-- ==== Sys2Proof/Word.lean ====
section
/-! DEFINITION. The word types of the block: bytes, 16-bit register containers, and the 32-bit address container of
the Memory Bus (spec 00_scope.md R5, R6). -/

namespace Sys2Proof

/-- A byte: the smallest addressable unit (20_memory.md R60). -/
abbrev Byte := BitVec 8

/-- A 16-bit container: `A`, `X`, `Y`, `D`, `SP`, `PC` and every memory operand (10_state.md R20). -/
abbrev Word := BitVec 16

/-- The address container on the bus, `u32` (20_memory.md R60). -/
abbrev Addr := BitVec 32

/-- The operand width of one operation: 8 or 16 bits (10_state.md R30). -/
inductive Width where
  | w8
  | w16
deriving DecidableEq, Repr

/-- Which flag of `P` gates an operation's width: `P.M` or `P.X` (30_encoding.md R92). -/
inductive Gate where
  | m
  | x
deriving DecidableEq, Repr

end Sys2Proof
end

