-- ==== Sys2Proof/Syntax.lean ====
section
/-! DEFINITION. The instructions of the block, one constructor of `Instr` for every row of spec/opcode_table.json, and
the three kinds of encoded word the block meets (30_encoding.md R90). -/

namespace Sys2Proof

/-- The 24 operations of the Instruction Executor (30_encoding.md R92), without their effective address. -/
inductive ExecOp where
  | and
  | eor
  | ora
  | adc
  | sbc
  | cmp
  | cpx
  | cpy
  | bit
  | lda
  | ldx
  | ldy
  | sta
  | stx
  | sty
  | stz
  | asl
  | rol
  | lsr
  | ror
  | inc
  | dec
  | tsb
  | trb
deriving DecidableEq, Repr

/-- One instruction: an executor command (XCMD) with its effective-address pair, a Step Controller command (SCMD) with
its budget, or a 65816 instruction as the Opcode Classifier sees it (OPC8) with its operand field. -/
inductive Instr where
  /-- XCMD 0x00 AND, 41_logic.md R141. -/
  | and (low high : Addr)
  /-- XCMD 0x01 EOR, 41_logic.md R142. -/
  | eor (low high : Addr)
  /-- XCMD 0x02 ORA, 41_logic.md R143. -/
  | ora (low high : Addr)
  /-- XCMD 0x03 ADC, 42_arithmetic.md R154. -/
  | adc (low high : Addr)
  /-- XCMD 0x04 SBC, 42_arithmetic.md R158. -/
  | sbc (low high : Addr)
  /-- XCMD 0x05 CMP, 43_compare_bit.md R171. -/
  | cmp (low high : Addr)
  /-- XCMD 0x06 CPX, 43_compare_bit.md R172. -/
  | cpx (low high : Addr)
  /-- XCMD 0x07 CPY, 43_compare_bit.md R173. -/
  | cpy (low high : Addr)
  /-- XCMD 0x08 BIT, 43_compare_bit.md R174. -/
  | bit (low high : Addr)
  /-- XCMD 0x09 LDA, 44_load_store.md R181. -/
  | lda (low high : Addr)
  /-- XCMD 0x0A LDX, 44_load_store.md R182. -/
  | ldx (low high : Addr)
  /-- XCMD 0x0B LDY, 44_load_store.md R183. -/
  | ldy (low high : Addr)
  /-- XCMD 0x0C STA, 44_load_store.md R184. -/
  | sta (low high : Addr)
  /-- XCMD 0x0D STX, 44_load_store.md R185. -/
  | stx (low high : Addr)
  /-- XCMD 0x0E STY, 44_load_store.md R186. -/
  | sty (low high : Addr)
  /-- XCMD 0x0F STZ, 44_load_store.md R187. -/
  | stz (low high : Addr)
  /-- XCMD 0x10 ASL, 45_rmw.md R202. -/
  | asl (low high : Addr)
  /-- XCMD 0x11 ROL, 45_rmw.md R203. -/
  | rol (low high : Addr)
  /-- XCMD 0x12 LSR, 45_rmw.md R204. -/
  | lsr (low high : Addr)
  /-- XCMD 0x13 ROR, 45_rmw.md R205. -/
  | ror (low high : Addr)
  /-- XCMD 0x14 INC, 45_rmw.md R206. -/
  | inc (low high : Addr)
  /-- XCMD 0x15 DEC, 45_rmw.md R207. -/
  | dec (low high : Addr)
  /-- XCMD 0x16 TSB, 45_rmw.md R210. -/
  | tsb (low high : Addr)
  /-- XCMD 0x17 TRB, 45_rmw.md R211. -/
  | trb (low high : Addr)
  /-- SCMD 0 STEPINTO, 47_step_controller.md R285; its `max` field is ignored (30_encoding.md R94). -/
  | stepInto (max : BitVec 32)
  /-- SCMD 1 STEPOVER, 47_step_controller.md R287. -/
  | stepOver (max : BitVec 32)
  /-- SCMD 2 STEPOUT, 47_step_controller.md R289. -/
  | stepOut (max : BitVec 32)
  /-- OPC8 0x20 JSR abs, 46_classifier.md R240. -/
  | jsrAbs (addr : BitVec 16)
  /-- OPC8 0x22 JSL long, 46_classifier.md R241. -/
  | jslLong (addr : BitVec 24)
  /-- OPC8 0xFC JSR (abs,X), 46_classifier.md R242. -/
  | jsrAbsX (addr : BitVec 16)
  /-- OPC8 0x60 RTS, 46_classifier.md R243. -/
  | rts
  /-- OPC8 0x6B RTL, 46_classifier.md R244. -/
  | rtl
  /-- OPC8 0x40 RTI, 46_classifier.md R245. -/
  | rti
  /-- OPC8 0x10 BPL rel, 46_classifier.md R246. -/
  | bplRel (disp : BitVec 8)
  /-- OPC8 0x30 BMI rel, 46_classifier.md R247. -/
  | bmiRel (disp : BitVec 8)
  /-- OPC8 0x50 BVC rel, 46_classifier.md R248. -/
  | bvcRel (disp : BitVec 8)
  /-- OPC8 0x70 BVS rel, 46_classifier.md R249. -/
  | bvsRel (disp : BitVec 8)
  /-- OPC8 0x90 BCC rel, 46_classifier.md R250. -/
  | bccRel (disp : BitVec 8)
  /-- OPC8 0xB0 BCS rel, 46_classifier.md R251. -/
  | bcsRel (disp : BitVec 8)
  /-- OPC8 0xD0 BNE rel, 46_classifier.md R252. -/
  | bneRel (disp : BitVec 8)
  /-- OPC8 0xF0 BEQ rel, 46_classifier.md R253. -/
  | beqRel (disp : BitVec 8)
  /-- OPC8 0x4C JMP abs, 46_classifier.md R254. -/
  | jmpAbs (addr : BitVec 16)
  /-- OPC8 0x5C JML long, 46_classifier.md R255. -/
  | jmlLong (addr : BitVec 24)
  /-- OPC8 0x6C JMP (abs), 46_classifier.md R256. -/
  | jmpInd (addr : BitVec 16)
  /-- OPC8 0x7C JMP (abs,X), 46_classifier.md R257. -/
  | jmpIndX (addr : BitVec 16)
  /-- OPC8 0xDC JML [abs], 46_classifier.md R258. -/
  | jmlInd (addr : BitVec 16)
  /-- OPC8 0x80 BRA rel, 46_classifier.md R259. -/
  | braRel (disp : BitVec 8)
  /-- OPC8 0x82 BRL rel16, 46_classifier.md R260. -/
  | brlRel16 (disp : BitVec 16)
deriving DecidableEq, Repr

/-- An encoded word, in one of the three formats of 30_encoding.md R90: a 69-bit executor command, a 34-bit step command,
or the bytes of a 65816 instruction, byte 0 (the opcode) first. -/
inductive CommandWord where
  | xcmd (w : BitVec 69)
  | scmd (w : BitVec 34)
  | opc8 (bytes : List Byte)
deriving DecidableEq, Repr

end Sys2Proof
end

