-- ==== Sys2Proof/WellFormed.lean ====
section
/-! DEFINITION. When an instruction term is well formed at an operand width: the effective-address pair is not one of the
malformed ones of 20_memory.md R71. Every other term is well formed as it stands, since its fields are exactly the
fields of its encoding (30_encoding.md R91, R94, R95). -/

namespace Sys2Proof

/-- The effective-address pair `(low, high)` of an executor command; the other instructions have none. -/
def Instr.ea : Instr → Option (Addr × Addr)
  | .and low high => some (low, high)
  | .eor low high => some (low, high)
  | .ora low high => some (low, high)
  | .adc low high => some (low, high)
  | .sbc low high => some (low, high)
  | .cmp low high => some (low, high)
  | .cpx low high => some (low, high)
  | .cpy low high => some (low, high)
  | .bit low high => some (low, high)
  | .lda low high => some (low, high)
  | .ldx low high => some (low, high)
  | .ldy low high => some (low, high)
  | .sta low high => some (low, high)
  | .stx low high => some (low, high)
  | .sty low high => some (low, high)
  | .stz low high => some (low, high)
  | .asl low high => some (low, high)
  | .rol low high => some (low, high)
  | .lsr low high => some (low, high)
  | .ror low high => some (low, high)
  | .inc low high => some (low, high)
  | .dec low high => some (low, high)
  | .tsb low high => some (low, high)
  | .trb low high => some (low, high)
  | .stepInto _ => none
  | .stepOver _ => none
  | .stepOut _ => none
  | .jsrAbs _ => none
  | .jslLong _ => none
  | .jsrAbsX _ => none
  | .rts => none
  | .rtl => none
  | .rti => none
  | .bplRel _ => none
  | .bmiRel _ => none
  | .bvcRel _ => none
  | .bvsRel _ => none
  | .bccRel _ => none
  | .bcsRel _ => none
  | .bneRel _ => none
  | .beqRel _ => none
  | .jmpAbs _ => none
  | .jmlLong _ => none
  | .jmpInd _ => none
  | .jmpIndX _ => none
  | .jmlInd _ => none
  | .braRel _ => none
  | .brlRel16 _ => none

/-- An address of the 24-bit space: bits 31:24 clear (20_memory.md R71(a)). -/
def inAddressSpace (a : Addr) : Bool := a.toNat < 16777216

/-- An effective-address pair that an operation of width `w` may be given (20_memory.md R71): the addresses it consults
lie in the space, and at 16 bits they differ. At 8 bits only `low` is consulted (40_regfile_flags.md R131). -/
def pairWellFormed (w : Width) (low high : Addr) : Bool :=
  match w with
  | .w8 => inAddressSpace low
  | .w16 => inAddressSpace low && inAddressSpace high && low != high

/-- The instruction term is well formed when it is executed at operand width `w`. -/
def Instr.wellFormed (w : Width) (i : Instr) : Bool :=
  match i.ea with
  | some (low, high) => pairWellFormed w low high
  | none => true

end Sys2Proof
end

