-- ==== Sys2Proof/Decode.lean ====
section
/-! DEFINITION. The decoder, total on every encoded word and rejecting by name, and after it the encoder, both written
from the encoding tables of 30_encoding.md (R91, R92, R94, R95, R97). -/

namespace Sys2Proof

/-- Why an encoded word is no instruction of the block. -/
inductive DecodeError where
  /-- XCMD `op` 0x18 to 0x1F (30_encoding.md R93). -/
  | reservedXcmd (op : BitVec 5)
  /-- SCMD `cmd` 3 (30_encoding.md R94). -/
  | reservedScmd
  /-- An opcode byte outside the table of 30_encoding.md R97: unclassified (R98), not illegal; it has no row and hence
  no instruction term, and the classifier still answers a query about it (46_classifier.md R261). -/
  | unclassified (op : Byte)
  /-- No opcode byte, or fewer operand bytes than the opcode's format has (30_encoding.md R95). -/
  | truncated
deriving DecidableEq, Repr

/-! ## Executor commands -/

/-- Operation code to operation (30_encoding.md R92); codes 0x18 to 0x1F select none (R93). -/
def ExecOp.ofCode (op : BitVec 5) : Option ExecOp :=
  match op.toNat with
  | 0x00 => some .and
  | 0x01 => some .eor
  | 0x02 => some .ora
  | 0x03 => some .adc
  | 0x04 => some .sbc
  | 0x05 => some .cmp
  | 0x06 => some .cpx
  | 0x07 => some .cpy
  | 0x08 => some .bit
  | 0x09 => some .lda
  | 0x0A => some .ldx
  | 0x0B => some .ldy
  | 0x0C => some .sta
  | 0x0D => some .stx
  | 0x0E => some .sty
  | 0x0F => some .stz
  | 0x10 => some .asl
  | 0x11 => some .rol
  | 0x12 => some .lsr
  | 0x13 => some .ror
  | 0x14 => some .inc
  | 0x15 => some .dec
  | 0x16 => some .tsb
  | 0x17 => some .trb
  | _ => none

/-- The instruction of an operation on an effective-address pair. -/
def ExecOp.toInstr : ExecOp → Addr → Addr → Instr
  | .and, low, high => .and low high
  | .eor, low, high => .eor low high
  | .ora, low, high => .ora low high
  | .adc, low, high => .adc low high
  | .sbc, low, high => .sbc low high
  | .cmp, low, high => .cmp low high
  | .cpx, low, high => .cpx low high
  | .cpy, low, high => .cpy low high
  | .bit, low, high => .bit low high
  | .lda, low, high => .lda low high
  | .ldx, low, high => .ldx low high
  | .ldy, low, high => .ldy low high
  | .sta, low, high => .sta low high
  | .stx, low, high => .stx low high
  | .sty, low, high => .sty low high
  | .stz, low, high => .stz low high
  | .asl, low, high => .asl low high
  | .rol, low, high => .rol low high
  | .lsr, low, high => .lsr low high
  | .ror, low, high => .ror low high
  | .inc, low, high => .inc low high
  | .dec, low, high => .dec low high
  | .tsb, low, high => .tsb low high
  | .trb, low, high => .trb low high

/-- The `op` field of an XCMD word, bits 68:64 (30_encoding.md R91). -/
def xcmdOp (w : BitVec 69) : BitVec 5 := w.extractLsb' 64 5

/-- The `high` field of an XCMD word, bits 63:32 (30_encoding.md R91). -/
def xcmdHigh (w : BitVec 69) : Addr := w.extractLsb' 32 32

/-- The `low` field of an XCMD word, bits 31:0 (30_encoding.md R91). -/
def xcmdLow (w : BitVec 69) : Addr := w.extractLsb' 0 32

/-- Decode an executor command (30_encoding.md R91 to R93). -/
def decodeXcmd (w : BitVec 69) : Except DecodeError Instr :=
  match ExecOp.ofCode (xcmdOp w) with
  | some op => .ok (op.toInstr (xcmdLow w) (xcmdHigh w))
  | none => .error (.reservedXcmd (xcmdOp w))

/-! ## Step commands -/

/-- The `cmd` field of an SCMD word, bits 33:32 (30_encoding.md R94). -/
def scmdCmd (w : BitVec 34) : BitVec 2 := w.extractLsb' 32 2

/-- The `max` field of an SCMD word, bits 31:0 (30_encoding.md R94). -/
def scmdMax (w : BitVec 34) : BitVec 32 := w.extractLsb' 0 32

/-- Decode a step command (30_encoding.md R94). -/
def decodeScmd (w : BitVec 34) : Except DecodeError Instr :=
  match (scmdCmd w).toNat with
  | 0 => .ok (.stepInto (scmdMax w))
  | 1 => .ok (.stepOver (scmdMax w))
  | 2 => .ok (.stepOut (scmdMax w))
  | _ => .error .reservedScmd

/-! ## 65816 instructions -/

/-- Operand of format ABS or REL16: two bytes, low byte first (30_encoding.md R95). -/
def operand16 (mk : BitVec 16 → Instr) : List Byte → Except DecodeError Instr
  | lo :: hi :: _ => .ok (mk (hi ++ lo))
  | _ => .error .truncated

/-- Operand of format LONG: three bytes, low, high, bank (30_encoding.md R95). -/
def operand24 (mk : BitVec 24 → Instr) : List Byte → Except DecodeError Instr
  | lo :: hi :: bank :: _ => .ok (mk (bank ++ hi ++ lo))
  | _ => .error .truncated

/-- Operand of format REL8: one displacement byte (30_encoding.md R95). -/
def operand8 (mk : BitVec 8 → Instr) : List Byte → Except DecodeError Instr
  | disp :: _ => .ok (mk disp)
  | _ => .error .truncated

/-- Decode the 65816 instruction with opcode byte `op` and the bytes that follow it (30_encoding.md R95, R97, R98). -/
def decodeOpcode (op : Byte) (operands : List Byte) : Except DecodeError Instr :=
  match op.toNat with
  | 0x20 => operand16 .jsrAbs operands
  | 0x22 => operand24 .jslLong operands
  | 0xFC => operand16 .jsrAbsX operands
  | 0x60 => .ok .rts
  | 0x6B => .ok .rtl
  | 0x40 => .ok .rti
  | 0x10 => operand8 .bplRel operands
  | 0x30 => operand8 .bmiRel operands
  | 0x50 => operand8 .bvcRel operands
  | 0x70 => operand8 .bvsRel operands
  | 0x90 => operand8 .bccRel operands
  | 0xB0 => operand8 .bcsRel operands
  | 0xD0 => operand8 .bneRel operands
  | 0xF0 => operand8 .beqRel operands
  | 0x4C => operand16 .jmpAbs operands
  | 0x5C => operand24 .jmlLong operands
  | 0x6C => operand16 .jmpInd operands
  | 0x7C => operand16 .jmpIndX operands
  | 0xDC => operand16 .jmlInd operands
  | 0x80 => operand8 .braRel operands
  | 0x82 => operand16 .brlRel16 operands
  | _ => .error (.unclassified op)

/-- Decode the bytes of a 65816 instruction, opcode first; bytes past the instruction are not looked at. -/
def decodeOpc8 : List Byte → Except DecodeError Instr
  | op :: operands => decodeOpcode op operands
  | [] => .error .truncated

/-- The decoder: total on every encoded word of the three formats (30_encoding.md R90). -/
def decode : CommandWord → Except DecodeError Instr
  | .xcmd w => decodeXcmd w
  | .scmd w => decodeScmd w
  | .opc8 bytes => decodeOpc8 bytes

/-! ## Words numbered as spec/opcode_table.json numbers them -/

/-- The first four bytes of a number, lowest first: "byte i of the instruction is bits 8i+7:8i". -/
def bytesOfTableWord (w : Nat) : List Byte :=
  [BitVec.ofNat 8 w, BitVec.ofNat 8 (w / 0x100), BitVec.ofNat 8 (w / 0x10000), BitVec.ofNat 8 (w / 0x1000000)]

/-- The encoded word that a table word of `nbits` bits stands for. The three formats have disjoint lengths: an OPC8
instruction has at most 32 bits, an SCMD word 34 and an XCMD word 69 (30_encoding.md R91, R94, R95). A word with a bit set
above its format's length is none. -/
def commandOfTableWord (nbits w : Nat) : Option CommandWord :=
  if nbits ≤ 32 then
    if w < 2 ^ 32 then some (.opc8 (bytesOfTableWord w)) else none
  else if nbits ≤ 40 then
    if w < 2 ^ 34 then some (.scmd (BitVec.ofNat 34 w)) else none
  else if w < 2 ^ 69 then some (.xcmd (BitVec.ofNat 69 w)) else none

/-- The instruction the decoder reads from a table word. -/
def decodeTableWord (nbits w : Nat) : Option Instr :=
  match commandOfTableWord nbits w with
  | some c => (decode c).toOption
  | none => none

/-! ## The encoder -/

/-- Operation to operation code (30_encoding.md R92). -/
def ExecOp.code : ExecOp → BitVec 5
  | .and => 0x00#5
  | .eor => 0x01#5
  | .ora => 0x02#5
  | .adc => 0x03#5
  | .sbc => 0x04#5
  | .cmp => 0x05#5
  | .cpx => 0x06#5
  | .cpy => 0x07#5
  | .bit => 0x08#5
  | .lda => 0x09#5
  | .ldx => 0x0A#5
  | .ldy => 0x0B#5
  | .sta => 0x0C#5
  | .stx => 0x0D#5
  | .sty => 0x0E#5
  | .stz => 0x0F#5
  | .asl => 0x10#5
  | .rol => 0x11#5
  | .lsr => 0x12#5
  | .ror => 0x13#5
  | .inc => 0x14#5
  | .dec => 0x15#5
  | .tsb => 0x16#5
  | .trb => 0x17#5

/-- Lay out an XCMD word: `op` in bits 68:64, `high` in 63:32, `low` in 31:0 (30_encoding.md R91). -/
def xcmdWord (op : ExecOp) (low high : Addr) : CommandWord := .xcmd (op.code ++ high ++ low)

/-- Lay out an SCMD word: `cmd` in bits 33:32, `max` in 31:0 (30_encoding.md R94). -/
def scmdWord (cmd : BitVec 2) (max : BitVec 32) : CommandWord := .scmd (cmd ++ max)

/-- Lay out an IMP instruction (30_encoding.md R95). -/
def impWord (op : Byte) : CommandWord := .opc8 [op]

/-- Lay out a REL8 instruction (30_encoding.md R95). -/
def rel8Word (op : Byte) (disp : BitVec 8) : CommandWord := .opc8 [op, disp]

/-- Lay out an ABS or REL16 instruction: low operand byte first (30_encoding.md R95). -/
def absWord (op : Byte) (v : BitVec 16) : CommandWord := .opc8 [op, v.extractLsb' 0 8, v.extractLsb' 8 8]

/-- Lay out a LONG instruction: low, high, bank (30_encoding.md R95). -/
def longWord (op : Byte) (v : BitVec 24) : CommandWord :=
  .opc8 [op, v.extractLsb' 0 8, v.extractLsb' 8 8, v.extractLsb' 16 8]

/-- The encoder: the word of an instruction (30_encoding.md R91, R92, R94, R95, R97). -/
def encode : Instr → CommandWord
  | .and low high => xcmdWord .and low high
  | .eor low high => xcmdWord .eor low high
  | .ora low high => xcmdWord .ora low high
  | .adc low high => xcmdWord .adc low high
  | .sbc low high => xcmdWord .sbc low high
  | .cmp low high => xcmdWord .cmp low high
  | .cpx low high => xcmdWord .cpx low high
  | .cpy low high => xcmdWord .cpy low high
  | .bit low high => xcmdWord .bit low high
  | .lda low high => xcmdWord .lda low high
  | .ldx low high => xcmdWord .ldx low high
  | .ldy low high => xcmdWord .ldy low high
  | .sta low high => xcmdWord .sta low high
  | .stx low high => xcmdWord .stx low high
  | .sty low high => xcmdWord .sty low high
  | .stz low high => xcmdWord .stz low high
  | .asl low high => xcmdWord .asl low high
  | .rol low high => xcmdWord .rol low high
  | .lsr low high => xcmdWord .lsr low high
  | .ror low high => xcmdWord .ror low high
  | .inc low high => xcmdWord .inc low high
  | .dec low high => xcmdWord .dec low high
  | .tsb low high => xcmdWord .tsb low high
  | .trb low high => xcmdWord .trb low high
  | .stepInto max => scmdWord 0#2 max
  | .stepOver max => scmdWord 1#2 max
  | .stepOut max => scmdWord 2#2 max
  | .jsrAbs addr => absWord 0x20#8 addr
  | .jslLong addr => longWord 0x22#8 addr
  | .jsrAbsX addr => absWord 0xFC#8 addr
  | .rts => impWord 0x60#8
  | .rtl => impWord 0x6B#8
  | .rti => impWord 0x40#8
  | .bplRel disp => rel8Word 0x10#8 disp
  | .bmiRel disp => rel8Word 0x30#8 disp
  | .bvcRel disp => rel8Word 0x50#8 disp
  | .bvsRel disp => rel8Word 0x70#8 disp
  | .bccRel disp => rel8Word 0x90#8 disp
  | .bcsRel disp => rel8Word 0xB0#8 disp
  | .bneRel disp => rel8Word 0xD0#8 disp
  | .beqRel disp => rel8Word 0xF0#8 disp
  | .jmpAbs addr => absWord 0x4C#8 addr
  | .jmlLong addr => longWord 0x5C#8 addr
  | .jmpInd addr => absWord 0x6C#8 addr
  | .jmpIndX addr => absWord 0x7C#8 addr
  | .jmlInd addr => absWord 0xDC#8 addr
  | .braRel disp => rel8Word 0x80#8 disp
  | .brlRel16 disp => absWord 0x82#8 disp

end Sys2Proof
end

