-- ==== Sys2Proof/Machine/State.lean ====
section
/-! DEFINITION. The state of the block as plain data (10_state.md R20), the requests of its host, what it answers, and
the reasons a step can stop. The fields marked MODEL are the model's own; INVENTORY.md lists every field. -/

namespace Sys2Proof.Machine

/-! ## Register File -/

/-- The Register File (10_state.md R20 to R29). -/
structure RegFile where
  /-- accumulator, R21 -/
  a : Word
  /-- index register X, R22 -/
  x : Word
  /-- index register Y, R22 -/
  y : Word
  /-- direct-page register, R23 -/
  d : Word
  /-- stack pointer, R24 -/
  sp : Word
  /-- program counter, the offset in the bank, R25 -/
  pc : Word
  /-- program bank, also written K, R26 -/
  pb : Byte
  /-- data bank, R27 -/
  dbr : Byte
  /-- status byte, N V M X D I Z C from bit 7 down, R28 -/
  p : Byte
  /-- emulation-mode flag, R29 -/
  e : Bool
deriving DecidableEq, Repr

/-- The flags of `P` (10_state.md R28). -/
inductive Flag where
  | n
  | v
  | m
  | x
  | d
  | i
  | z
  | c
deriving DecidableEq, Repr

/-- The name of a register of the Register File. -/
inductive RegName where
  | a
  | x
  | y
  | d
  | sp
  | pc
  | pb
  | dbr
  | p
  | e
deriving DecidableEq, Repr

/-- A write of one register, with a value of the register's width. -/
inductive RegWrite where
  | a (v : Word)
  | x (v : Word)
  | y (v : Word)
  | d (v : Word)
  | sp (v : Word)
  | pc (v : Word)
  | pb (v : Byte)
  | dbr (v : Byte)
  | p (v : Byte)
  | e (v : Bool)
deriving DecidableEq, Repr

/-! ## The bus -/

/-- Memory behind the bus: the bytes that differ from what an unlisted address reads as, by rising address
(20_memory.md R72; the canonical form is `memWf` of Machine/Ops.lean). -/
abbrev Memory := List Host.Cell

/-- One bus event of `TRACE` (10_state.md R39). -/
inductive BusEvent where
  | rd8 (addr : Addr) (value : Byte)
  | rd16 (low high : Addr) (value : Word)
  | wr8 (addr : Addr) (value : Byte)
  | wr16 (low high : Addr) (value : Word)
  | idle (arg : Bool)
deriving DecidableEq, Repr

/-- What the Instruction Executor and the Stepper work on: the Register File, the memory behind the bus, and the trace
of bus calls (47_step_controller.md R283, "the environment state"; 10_state.md R39). -/
structure Env where
  regs : RegFile
  mem : Memory
  trace : List BusEvent
deriving DecidableEq, Repr

/-! ## Step Controller -/

/-- A CallStackEntry (10_state.md R35); `symbol` is always absent in this block. -/
structure CallStackEntry where
  callAddress : Addr
  targetAddress : Addr
  returnAddress : Addr
  isLong : Bool
  symbol : Option String
deriving DecidableEq, Repr

/-- The status of a StepResult (60_exceptions.md R322). -/
inductive Status where
  | ok
  | errConfig
  | errEmptyStack
  | errTimeout
deriving DecidableEq, Repr

/-- A StepResult (10_state.md R37). -/
structure StepResult where
  success : Bool
  newPc : Addr
  instructionsExecuted : BitVec 32
  status : Status
  message : String
  call : Option CallStackEntry
  ret : Option CallStackEntry
deriving DecidableEq, Repr

/-- The three injected contracts (47_step_controller.md R280). -/
inductive Contract where
  | reader
  | stepper
  | pcGetter
deriving DecidableEq, Repr

/-- MODEL. One call of an injected contract (log 12). -/
inductive ContractCall where
  | pcGetter (pc : Addr)
  | reader (addr : Addr) (value : Byte)
  | stepper
deriving DecidableEq, Repr

/-! ## Opcode Classifier -/

/-- The outputs of the classifier's query interface (30_encoding.md R101). The two addresses are defined for call opcodes
only (46_classifier.md R235, R236). -/
structure Classification where
  isCall : Bool
  isReturn : Bool
  isBranch : Bool
  size : Nat
  returnAddress : Option Addr
  callTarget : Option Addr
deriving DecidableEq, Repr

/-! ## Host interface -/

/-- The operations of the Register File's public contract (40_regfile_flags.md R120). -/
inductive FlagOp where
  | getAccumulatorSize
  | getIndexSize
  | setZN (value : Word) (w : Width)
  | getCarryFlag
  | setCarryFlag (b : Bool)
  | setOverflowFlag (b : Bool)
  | setNegativeFlag (b : Bool)
  | setZeroFlag (b : Bool)
  | getDecimalFlag
deriving DecidableEq, Repr

/-- MODEL. What the host can ask for, one transaction each (00_scope.md R9, R10(d); log 10). -/
inductive Request where
  /-- an executor command (30_encoding.md R91) -/
  | xcmd (w : BitVec 69)
  /-- a step command (30_encoding.md R94) -/
  | scmd (w : BitVec 34)
  /-- a classifier query about the instruction at the combined PC `pc`, whose opcode byte is `op` (30_encoding.md R101) -/
  | query (pc : Addr) (op : Byte)
  /-- `Configure(which, present)` (10_state.md R38) -/
  | configure (which : Contract) (present : Bool)
  /-- an operation of the Register File's public contract (40_regfile_flags.md R120) -/
  | flagOp (op : FlagOp)
  /-- a register read (00_scope.md R10(d)) -/
  | readReg (r : RegName)
  /-- a register write (00_scope.md R10(d)) -/
  | writeReg (w : RegWrite)
  /-- a memory read (00_scope.md R10(d)) -/
  | readMem (a : BitVec 24)
  /-- a memory write (00_scope.md R10(d)) -/
  | writeMem (a : BitVec 24) (v : Byte)
deriving DecidableEq, Repr

/-- MODEL. What a transaction answers (log 11). -/
inductive Reply where
  | classified (c : Classification)
  | stepped (r : StepResult)
  | flag (b : Bool)
  | register (v : Word)
  | byte (v : Byte)
deriving DecidableEq, Repr

/-! ## The state -/

/-- The state of one instance of the block (10_state.md R20), with the memory behind its bus. -/
structure State where
  /-- Register File, memory and `TRACE` -/
  env : Env
  /-- `CS`, most recent last (10_state.md R34) -/
  callStack : List CallStackEntry
  /-- `cfg_reader` (10_state.md R38) -/
  cfgReader : Bool
  /-- `cfg_stepper` (10_state.md R38) -/
  cfgStepper : Bool
  /-- `cfg_pc` (10_state.md R38) -/
  cfgPc : Bool
  /-- MODEL: the calls of the injected contracts in order (log 12) -/
  calls : List ContractCall
  /-- MODEL: the host's requests, oldest first (log 10) -/
  inbox : List Request
  /-- MODEL: the combined PC of the classifier query being answered (log 14) -/
  queryPc : Addr
  /-- MODEL: what the last transaction answered (log 11) -/
  reply : Option Reply
  /-- MODEL: the index of the next free value (log 13) -/
  freeCount : Nat
deriving DecidableEq, Repr

/-- The Register File after reset. The spec gives no register a reset value (10_state.md R42). PRESUMED: the 65816 family's
(log 1); no statement rests on these values. -/
def RegFile.reset : RegFile :=
  { a := 0, x := 0, y := 0, d := 0, sp := 0x0100, pc := 0, pb := 0, dbr := 0, p := 0x34, e := true }

/-- The block right after reset (10_state.md R42; 70_reset_and_hazards.md R350): `CS` empty, nothing configured, `TRACE`
empty; memory with nothing listed; no request pending. -/
def State.reset : State :=
  { env := { regs := RegFile.reset, mem := [], trace := [] }
    callStack := []
    cfgReader := false
    cfgStepper := false
    cfgPc := false
    calls := []
    inbox := []
    queryPc := 0
    reply := none
    freeCount := 0 }

/-! ## Why a step stops -/

/-- The faults of the machine: none. No operation of the block can fault (00_scope.md R8; 60_exceptions.md R320): the
failures of the Step Controller are results of next states (60_exceptions.md R321). Nothing raises a fault, so this is
neither safe nor unsafe. -/
inductive Fault where
deriving DecidableEq, Repr

/-- Why the model gives a request no meaning. -/
inductive Refusal where
  /-- An instruction that has no meaning yet; raised by exec's arms only. Safe. -/
  | notModelled (mnemonic : String)
  /-- A command word with a reserved code: XCMD `op` 0x18 to 0x1F (30_encoding.md R93) or SCMD `cmd` 3 (R94); raised when
  such a word is fetched, with the decoder's name for it. Safe: the spec says that a model refuses it. -/
  | reservedCode (e : DecodeError)
  /-- A malformed effective address (20_memory.md R71: "undefined behavior of the caller"), raised by the executor
  commands. Safe: the spec says that a model refuses it. -/
  | malformedAddress
deriving DecidableEq, Repr

end Sys2Proof.Machine
end

