-- ==== Sys2Proof/Config.lean ====
section
/-! DEFINITION. What an implementation fixes and the spec leaves open (the table "Open parameters in one place" of
92_eei_decisions.md): the constants the spec chooses, and the free values, which have no body. -/

namespace Sys2Proof

/-! ## What the Stepper may do -/

/-- An effective-address pair that the block gives a meaning to at either width (20_memory.md R71): both addresses in the
24-bit space, and different. -/
structure GoodPair where
  low : BitVec 24
  high : BitVec 24
  distinct : low ≠ high
deriving DecidableEq, Repr

/-- One thing the Stepper does while it executes its instruction: "It may write any register and call the bus", and "any
executor operation it performs follows the rules of 41_logic.md to 45_rmw.md" (47_step_controller.md R283). There is no
action on the call stack or the configuration bits (R283(b)). -/
inductive StepperAction where
  /-- an executor command -/
  | command (op : ExecOp) (ea : GoodPair)
  /-- a register write -/
  | setReg (w : Machine.RegWrite)
  /-- bus call `ReadByte` -/
  | readByte (a : BitVec 24)
  /-- bus call `ReadWord` -/
  | readWord (ea : GoodPair)
  /-- bus call `WriteByte` -/
  | writeByte (a : BitVec 24) (v : Byte)
  /-- bus call `WriteWord` -/
  | writeWord (ea : GoodPair) (v : Word)
  /-- bus call `Idle` -/
  | idle (arg : Bool)
deriving DecidableEq, Repr

/-- A Stepper (47_step_controller.md R283): what it does at its `n`-th call, in the environment it finds. The call number
stands for whatever the Stepper remembers. -/
abbrev Stepper := Nat → Machine.RegFile → Machine.Memory → List StepperAction

namespace Config

/-- `DEFAULT_MAX_INSTRUCTIONS` (00_scope.md R5; 30_encoding.md R94). -/
def defaultMaxInstructions : BitVec 32 := 1000000

/-- `IDLE_ARG` (20_memory.md R66): the spec's choice, log 24. -/
def idleArg : Bool := false

/-- `0x80` (BRA) is in `BRANCH_EXTRA` (46_classifier.md R233, R259): open, log 16. -/
opaque braIsBranch : Bool

/-- `0x82` (BRL) is in `BRANCH_EXTRA` (46_classifier.md R233, R260): open, log 16. -/
opaque brlIsBranch : Bool

/-- `SIZE_OTHER(op) - 1`, so that `SIZE_OTHER(op)` is 1, 2, 3 or 4 (46_classifier.md R234): open, log 16. DESIGN CHOICE: no
byte is held to "1 for implied", since the spec does not say which of the unlisted bytes are implied. -/
opaque sizeOtherPred : Byte → Fin 4

/-- What `Reader` returns for an address past the 24-bit space, at a given free-value index: the spec gives no value there
(46_classifier.md R236; 92_eei_decisions.md D9, D24), log 6. -/
opaque readerBeyond : Nat → Addr → Byte

/-- The Stepper the Step Controller is configured with (47_step_controller.md R283): open, log 7. -/
opaque stepper : Stepper

end Config

end Sys2Proof
end

