-- ==== Sys2Proof/Machine/Ops.lean ====
section
/-! DEFINITION. The named operations over memory, bus and registers, the contracts `PcGetter` and `Reader`, and the
block's one failure mechanism (20_memory.md, 10_state.md, 47_step_controller.md R281, R282, 60_exceptions.md R321). -/

namespace Sys2Proof.Machine

/-! ## The reference memory (20_memory.md R72) -/

/-- How many addresses the space has: `ADDR_BITS` is 24 (20_memory.md R60). -/
abbrev addressSpace : Nat := 16777216

/-- What an address that memory does not list reads as. DESIGN CHOICE: the spec leaves the contents unspecified
(70_reset_and_hazards.md R350), log 2. -/
def unlistedByte : Byte := 0x00

/-- The byte at an address. -/
def memRead : Memory → Nat → Byte
  | [], _ => unlistedByte
  | (b, v) :: rest, a => if b = a then v else memRead rest a

/-- Store a byte, keeping the canonical form. -/
def memWrite : Memory → Nat → Byte → Memory
  | [], a, v => if v = unlistedByte then [] else [(a, v)]
  | (b, u) :: rest, a, v =>
    if a < b then (if v = unlistedByte then (b, u) :: rest else (a, v) :: (b, u) :: rest)
    else if a = b then (if v = unlistedByte then rest else (a, v) :: rest)
    else (b, u) :: memWrite rest a v

/-- The canonical form of memory: addresses strictly rising and inside the space, and no entry that equals what an
unlisted address reads as. -/
abbrev memWf (m : Memory) : Prop :=
  m.Pairwise (fun c d => c.1 < d.1) ∧ ∀ c ∈ m, c.1 < addressSpace ∧ c.2 ≠ unlistedByte

/-! ## Bus calls (20_memory.md R61 to R66), each with its trace event (10_state.md R39) -/

/-- Append one event to `TRACE`. -/
def Env.log (e : Env) (ev : BusEvent) : Env := { e with trace := e.trace ++ [ev] }

/-- The 16-bit value with the byte at `high` above the byte at `low` (R63). -/
def wordAt (m : Memory) (low high : Addr) : Word := memRead m high.toNat ++ memRead m low.toNat

/-- `ReadByte(addr)` (R62). -/
def busReadByte (a : Addr) (e : Env) : Byte × Env :=
  (memRead e.mem a.toNat, e.log (.rd8 a (memRead e.mem a.toNat)))

/-- `ReadWord(low, high)` (R63). -/
def busReadWord (low high : Addr) (e : Env) : Word × Env :=
  (wordAt e.mem low high, e.log (.rd16 low high (wordAt e.mem low high)))

/-- `WriteByte(addr, value)` (R64). -/
def busWriteByte (a : Addr) (v : Byte) (e : Env) : Env :=
  { e with mem := memWrite e.mem a.toNat v }.log (.wr8 a v)

/-- Which byte of a word access the bus handles first: the open parameter `WORD_ORDER` (R63, R65; log 4). -/
inductive WordOrder where
  | lowFirst
  | highFirst
deriving DecidableEq, Repr

/-- Store the two bytes of a word in the given order: `value[7:0]` at `low`, `value[15:8]` at `high` (R65). -/
def storeWord (o : WordOrder) (m : Memory) (low high : Addr) (v : Word) : Memory :=
  match o with
  | .lowFirst => memWrite (memWrite m low.toNat (v.extractLsb' 0 8)) high.toNat (v.extractLsb' 8 8)
  | .highFirst => memWrite (memWrite m high.toNat (v.extractLsb' 8 8)) low.toNat (v.extractLsb' 0 8)

/-- `WriteWord(low, high, value)` (R65). The order of the two stores is unobservable on this memory (log 4). -/
def busWriteWord (low high : Addr) (v : Word) (e : Env) : Env :=
  { e with mem := storeWord .lowFirst e.mem low high v }.log (.wr16 low high v)

/-- `Idle(arg)` (R66). -/
def busIdle (arg : Bool) (e : Env) : Env := e.log (.idle arg)

/-! ## Registers -/

/-- Write one register (00_scope.md R10). -/
def RegFile.write (w : RegWrite) (r : RegFile) : RegFile :=
  match w with
  | .a v => { r with a := v }
  | .x v => { r with x := v }
  | .y v => { r with y := v }
  | .d v => { r with d := v }
  | .sp v => { r with sp := v }
  | .pc v => { r with pc := v }
  | .pb v => { r with pb := v }
  | .dbr v => { r with dbr := v }
  | .p v => { r with p := v }
  | .e v => { r with e := v }

/-- Read one register, zero-extended to 16 bits (00_scope.md R10(d)). -/
def RegFile.read (n : RegName) (r : RegFile) : Word :=
  match n with
  | .a => r.a
  | .x => r.x
  | .y => r.y
  | .d => r.d
  | .sp => r.sp
  | .pc => r.pc
  | .pb => r.pb.setWidth 16
  | .dbr => r.dbr.setWidth 16
  | .p => r.p.setWidth 16
  | .e => if r.e then 1 else 0

/-- Change the Register File of an environment. -/
def Env.mapRegs (f : RegFile → RegFile) (e : Env) : Env := { e with regs := f e.regs }

/-! ## The contracts, wired to this register file and memory (log 5) -/

/-- `PcGetter()`: `(PB << 16) | PC` (10_state.md R25; 47_step_controller.md R282). -/
def pcGetter (r : RegFile) : Addr := (r.pb.setWidth 32 <<< 16) ||| r.pc.setWidth 32

/-- `Reader(addr)`: what `ReadByte` would return, with no side effect (20_memory.md R80; 47_step_controller.md R281). Past the
24-bit space it is the free value with index `k` (log 6). -/
def reader (k : Nat) (m : Memory) (a : Addr) : Byte :=
  if a.toNat < addressSpace then memRead m a.toNat else Config.readerBeyond k a

/-- `Reader` in a state. -/
def State.reader (s : State) (a : Addr) : Byte := Machine.reader s.freeCount s.env.mem a

/-- `PcGetter` in a state. -/
def State.pcGetter (s : State) : Addr := Machine.pcGetter s.env.regs

/-- Record calls of the contracts (log 12). -/
def State.logCalls (cs : List ContractCall) (s : State) : State := { s with calls := s.calls ++ cs }

/-- `depth`: the length of `CS` (10_state.md R34). -/
def State.depth (s : State) : Nat := s.callStack.length

/-- End a transaction with an answer. -/
def State.answer (r : Reply) (s : State) : State := { s with reply := some r }

/-! ## Failing (60_exceptions.md R321): the block's only exception mechanism. There is no return from it (R331). -/

/-- The machine-readable code of a status (60_exceptions.md R322). -/
def Status.code : Status → BitVec 2
  | .ok => 0
  | .errConfig => 1
  | .errEmptyStack => 2
  | .errTimeout => 3

/-- The message of a status: the spec's full text (60_exceptions.md R322; log 19). -/
def Status.message : Status → String
  | .ok => "ok"
  | .errConfig => "step controller not configured"
  | .errEmptyStack => "call stack is empty"
  | .errTimeout => "timed out"

/-- `fail(code)`: the StepResult of a command that fails, with the other fields as the raising rule gives them. It changes
no state (60_exceptions.md R321, R330). -/
def fail (code : Status) (newPc : Addr) (n : Nat) (call : Option CallStackEntry) : StepResult :=
  { success := false
    newPc := newPc
    instructionsExecuted := BitVec.ofNat 32 n
    status := code
    message := code.message
    call := call
    ret := none }

/-- The StepResult of a command that met its stop condition. -/
def succeed (newPc : Addr) (n : Nat) (call ret : Option CallStackEntry) : StepResult :=
  { success := true
    newPc := newPc
    instructionsExecuted := BitVec.ofNat 32 n
    status := .ok
    message := Status.ok.message
    call := call
    ret := ret }

end Sys2Proof.Machine
end

