-- ==== Sys2Proof/Machine/Classifier.lean ====
section
/-! DEFINITION. The Opcode Classifier (46_classifier.md R230 to R261): its functions, and the classifier query that is the
meaning of a 65816 instruction in this block. -/

namespace Sys2Proof.Machine

/-- `IsCallInstruction(op)` (R231): JSR, JSL, JSR (abs,X). -/
def isCall (op : Byte) : Bool := op == 0x20 || op == 0x22 || op == 0xFC

/-- `IsReturnInstruction(op)` (R232): RTS, RTL, RTI. -/
def isReturn (op : Byte) : Bool := op == 0x60 || op == 0x6B || op == 0x40

/-- The eight conditional branches (R233). -/
def isConditionalBranch (op : Byte) : Bool :=
  op == 0x10 || op == 0x30 || op == 0x50 || op == 0x70 || op == 0x90 || op == 0xB0 || op == 0xD0 || op == 0xF0

/-- The jumps (R233). -/
def isJump (op : Byte) : Bool := op == 0x4C || op == 0x5C || op == 0x6C || op == 0x7C || op == 0xDC

/-- `op` is in `BRANCH_EXTRA` (R233; log 16). -/
def inBranchExtra (op : Byte) : Bool := (op == 0x80 && Config.braIsBranch) || (op == 0x82 && Config.brlIsBranch)

/-- `IsBranchInstruction(op)` (R233). -/
def isBranch (op : Byte) : Bool := isConditionalBranch op || isJump op || inBranchExtra op

/-- `SIZE_OTHER(op)` (R234; log 16): 1, 2, 3 or 4. -/
def sizeOther (op : Byte) : Nat := (Config.sizeOtherPred op).val + 1

/-- `GetInstructionSize(op)` (R234). -/
def instructionSize (op : Byte) : Nat :=
  if isReturn op then 1
  else if isConditionalBranch op || op == 0x80 then 2
  else if op == 0x20 || op == 0xFC || op == 0x4C || op == 0x6C || op == 0x7C || op == 0xDC then 3
  else if op == 0x22 || op == 0x5C then 4
  else sizeOther op

/-- `CalculateReturnAddress(pc, op)` (R235): 24-bit for JSL, confined to the bank for the others. -/
def calculateReturnAddress (pc : Addr) (op : Byte) : Addr :=
  if op == 0x22 then (pc + 4) &&& 0xFFFFFF
  else (pc &&& 0xFF0000) ||| ((pc + BitVec.ofNat 32 (instructionSize op)) &&& 0x00FFFF)

/-- The addresses `CalculateCallTarget` reads, in order (R236): plain sums. -/
def callTargetReads (pc : Addr) (op : Byte) : List Addr :=
  if op == 0x20 then [pc + 1, pc + 2]
  else if op == 0x22 then [pc + 1, pc + 2, pc + 3]
  else []

/-- `CalculateCallTarget(pc, op)` (R236), through the given reader. -/
def calculateCallTarget (rd : Addr → Byte) (pc : Addr) (op : Byte) : Addr :=
  if op == 0x20 then (pc &&& 0xFF0000) ||| ((rd (pc + 2)).setWidth 32 <<< 8) ||| (rd (pc + 1)).setWidth 32
  else if op == 0x22 then
    ((rd (pc + 3)).setWidth 32 <<< 16) ||| ((rd (pc + 2)).setWidth 32 <<< 8) ||| (rd (pc + 1)).setWidth 32
  else 0

/-- The `Reader` calls of `CalculateCallTarget` in a state. -/
def callTargetCalls (s : State) (pc : Addr) (op : Byte) : List ContractCall :=
  (callTargetReads pc op).map fun a => .reader a (s.reader a)

/-- The outputs of the query interface (30_encoding.md R101); the two address calculations are defined for call opcodes
only (R235, R236). -/
def classify (s : State) (pc : Addr) (op : Byte) : Classification :=
  { isCall := isCall op
    isReturn := isReturn op
    isBranch := isBranch op
    size := instructionSize op
    returnAddress := if isCall op then some (calculateReturnAddress pc op) else none
    callTarget := if isCall op then some (calculateCallTarget s.reader pc op) else none }

/-- Answer the classifier query about opcode `op` at `queryPc`: nothing of the block's state changes (R230). DESIGN CHOICE:
the bytes of a JSR or JSL target are those of memory also while `cfg_reader` is 0; no rule says what an absent Reader
gives to a query (log 29). -/
def answerQuery (op : Byte) (s : State) : State :=
  { s with
    calls := s.calls ++ callTargetCalls s s.queryPc op
    reply := some (.classified (classify s s.queryPc op))
    freeCount := s.freeCount + 1 }

/-- OPC8 JSR abs: the classifier query about opcode 0x20 (R240). -/
def execJsrAbs (_addr : BitVec 16) (s : State) : Host.Outcome State Fault Refusal := .next (answerQuery 0x20 s)

/-- OPC8 JSL long: the classifier query about opcode 0x22 (R241). -/
def execJslLong (_addr : BitVec 24) (s : State) : Host.Outcome State Fault Refusal := .next (answerQuery 0x22 s)

/-- OPC8 JSR (abs,X): the classifier query about opcode 0xFC (R242). -/
def execJsrAbsX (_addr : BitVec 16) (s : State) : Host.Outcome State Fault Refusal := .next (answerQuery 0xFC s)

/-- OPC8 RTS: the classifier query about opcode 0x60 (R243). -/
def execRts (s : State) : Host.Outcome State Fault Refusal := .next (answerQuery 0x60 s)

/-- OPC8 RTL: the classifier query about opcode 0x6B (R244). -/
def execRtl (s : State) : Host.Outcome State Fault Refusal := .next (answerQuery 0x6B s)

/-- OPC8 RTI: the classifier query about opcode 0x40 (R245). -/
def execRti (s : State) : Host.Outcome State Fault Refusal := .next (answerQuery 0x40 s)

/-- OPC8 BPL rel: the classifier query about opcode 0x10 (R246). -/
def execBplRel (_disp : BitVec 8) (s : State) : Host.Outcome State Fault Refusal := .next (answerQuery 0x10 s)

/-- OPC8 BMI rel: the classifier query about opcode 0x30 (R247). -/
def execBmiRel (_disp : BitVec 8) (s : State) : Host.Outcome State Fault Refusal := .next (answerQuery 0x30 s)

/-- OPC8 BVC rel: the classifier query about opcode 0x50 (R248). -/
def execBvcRel (_disp : BitVec 8) (s : State) : Host.Outcome State Fault Refusal := .next (answerQuery 0x50 s)

/-- OPC8 BVS rel: the classifier query about opcode 0x70 (R249). -/
def execBvsRel (_disp : BitVec 8) (s : State) : Host.Outcome State Fault Refusal := .next (answerQuery 0x70 s)

/-- OPC8 BCC rel: the classifier query about opcode 0x90 (R250). -/
def execBccRel (_disp : BitVec 8) (s : State) : Host.Outcome State Fault Refusal := .next (answerQuery 0x90 s)

/-- OPC8 BCS rel: the classifier query about opcode 0xB0 (R251). -/
def execBcsRel (_disp : BitVec 8) (s : State) : Host.Outcome State Fault Refusal := .next (answerQuery 0xB0 s)

/-- OPC8 BNE rel: the classifier query about opcode 0xD0 (R252). -/
def execBneRel (_disp : BitVec 8) (s : State) : Host.Outcome State Fault Refusal := .next (answerQuery 0xD0 s)

/-- OPC8 BEQ rel: the classifier query about opcode 0xF0 (R253). -/
def execBeqRel (_disp : BitVec 8) (s : State) : Host.Outcome State Fault Refusal := .next (answerQuery 0xF0 s)

/-- OPC8 JMP abs: the classifier query about opcode 0x4C (R254). -/
def execJmpAbs (_addr : BitVec 16) (s : State) : Host.Outcome State Fault Refusal := .next (answerQuery 0x4C s)

/-- OPC8 JML long: the classifier query about opcode 0x5C (R255). -/
def execJmlLong (_addr : BitVec 24) (s : State) : Host.Outcome State Fault Refusal := .next (answerQuery 0x5C s)

/-- OPC8 JMP (abs): the classifier query about opcode 0x6C (R256). -/
def execJmpInd (_addr : BitVec 16) (s : State) : Host.Outcome State Fault Refusal := .next (answerQuery 0x6C s)

/-- OPC8 JMP (abs,X): the classifier query about opcode 0x7C (R257). -/
def execJmpIndX (_addr : BitVec 16) (s : State) : Host.Outcome State Fault Refusal := .next (answerQuery 0x7C s)

/-- OPC8 JML [abs]: the classifier query about opcode 0xDC (R258). -/
def execJmlInd (_addr : BitVec 16) (s : State) : Host.Outcome State Fault Refusal := .next (answerQuery 0xDC s)

/-- OPC8 BRA rel: the classifier query about opcode 0x80 (R259). -/
def execBraRel (_disp : BitVec 8) (s : State) : Host.Outcome State Fault Refusal := .next (answerQuery 0x80 s)

/-- OPC8 BRL rel16: the classifier query about opcode 0x82 (R260). -/
def execBrlRel16 (_disp : BitVec 16) (s : State) : Host.Outcome State Fault Refusal := .next (answerQuery 0x82 s)

end Sys2Proof.Machine
end

