-- ==== Sys2Proof/Machine/Flags.lean ====
section
/-! DEFINITION. The status byte `P`, and the flag queries and setters of the Register File's public contract
(10_state.md R28; 40_regfile_flags.md R120 to R129). -/

namespace Sys2Proof.Machine

/-- The bit position of a flag in `P` (10_state.md R28). -/
def Flag.bit : Flag → Nat
  | .n => 7
  | .v => 6
  | .m => 5
  | .x => 4
  | .d => 3
  | .i => 2
  | .z => 1
  | .c => 0

/-- One bit of `P`, read. -/
def RegFile.flag (f : Flag) (r : RegFile) : Bool := r.p.getLsbD f.bit

/-- `P` with one bit written. -/
def setBit (p : Byte) (k : Nat) (b : Bool) : Byte :=
  if b then p ||| (1#8 <<< k) else p &&& ~~~(1#8 <<< k)

/-- One bit of `P`, written; nothing else changes. -/
def RegFile.setFlag (f : Flag) (b : Bool) (r : RegFile) : RegFile := { r with p := setBit r.p f.bit b }

end Sys2Proof.Machine

namespace Sys2Proof

/-! ## Width arithmetic (00_scope.md R6) -/

/-- `W`. -/
def Width.bits : Width → Nat
  | .w8 => 8
  | .w16 => 16

/-- `MASK(W)`. -/
def Width.mask : Width → Word
  | .w8 => 0x00FF
  | .w16 => 0xFFFF

/-- The position of the sign bit, `W - 1`. -/
def Width.signBit : Width → Nat
  | .w8 => 7
  | .w16 => 15

end Sys2Proof

namespace Sys2Proof.Machine

/-! ## The operations of 40_regfile_flags.md -/

/-- `GetAccumulatorSize()` (R121): true in 8-bit mode. It reads `P.M` only. -/
def getAccumulatorSize (r : RegFile) : Bool := r.flag .m

/-- `GetIndexSize()` (R122): true in 8-bit mode. It reads `P.X` only. -/
def getIndexSize (r : RegFile) : Bool := r.flag .x

/-- `SetZN(value, W)` (R123). -/
def setZN (value : Word) (w : Width) (r : RegFile) : RegFile :=
  (r.setFlag .z (value &&& w.mask == 0)).setFlag .n (value.getLsbD w.signBit)

/-- `GetCarryFlag()` (R124). -/
def getCarryFlag (r : RegFile) : Bool := r.flag .c

/-- `SetCarryFlag(b)` (R125). -/
def setCarryFlag (b : Bool) (r : RegFile) : RegFile := r.setFlag .c b

/-- `SetOverflowFlag(b)` (R126). -/
def setOverflowFlag (b : Bool) (r : RegFile) : RegFile := r.setFlag .v b

/-- `SetNegativeFlag(b)` (R127). -/
def setNegativeFlag (b : Bool) (r : RegFile) : RegFile := r.setFlag .n b

/-- `SetZeroFlag(b)` (R128). -/
def setZeroFlag (b : Bool) (r : RegFile) : RegFile := r.setFlag .z b

/-- `GetDecimalFlag()` (R129). -/
def getDecimalFlag (r : RegFile) : Bool := r.flag .d

end Sys2Proof.Machine
end

