-- ==== Sys2Proof/Machine/Operands.lean ====
section
/-! DEFINITION. Width gating, the effective-address pair, the width-gated operand access, and the frame in which every
executor command runs (40_regfile_flags.md R130 to R132; 10_state.md R21, R30; 20_memory.md R71). -/

namespace Sys2Proof.Machine

/-- An effective-address pair (00_scope.md glossary): where the operand's low-order and high-order bytes live. -/
structure EA where
  low : Addr
  high : Addr
deriving DecidableEq, Repr

/-- `Width(gate)` (40_regfile_flags.md R130). -/
def width (g : Gate) (r : RegFile) : Width :=
  match g with
  | .m => if getAccumulatorSize r then .w8 else .w16
  | .x => if getIndexSize r then .w8 else .w16

/-- A malformed effective address for an operation of width `w` (20_memory.md R71): a consulted address with any of bits
31:24 set, or `low = high` at 16 bits. At 8 bits `high` is not consulted (40_regfile_flags.md R131; log 9). -/
def eaMalformed (w : Width) (ea : EA) : Bool :=
  match w with
  | .w8 => addressSpace ≤ ea.low.toNat
  | .w16 => addressSpace ≤ ea.low.toNat || addressSpace ≤ ea.high.toNat || ea.low == ea.high

/-- `ReadOperand(ea, w8)` (R131). -/
def readOperand (w : Width) (ea : EA) (e : Env) : Word × Env :=
  match w with
  | .w8 => ((busReadByte ea.low e).1.setWidth 16, (busReadByte ea.low e).2)
  | .w16 => busReadWord ea.low ea.high e

/-- `WriteOperand(ea, w8, v)` (R132). -/
def writeOperand (w : Width) (ea : EA) (v : Word) (e : Env) : Env :=
  match w with
  | .w8 => busWriteByte ea.low (v.extractLsb' 0 8) e
  | .w16 => busWriteWord ea.low ea.high v e

/-- A 16-bit register written at a width, its untouched high byte preserved in 8-bit mode (10_state.md R21). -/
def atWidth (w : Width) (old v : Word) : Word :=
  match w with
  | .w8 => (old &&& 0xFF00) ||| (v &&& 0x00FF)
  | .w16 => v

/-- `A` written at a width (10_state.md R21). -/
def writeA (w : Width) (v : Word) (r : RegFile) : RegFile := { r with a := atWidth w r.a v }

/-- Run one executor command: refuse a malformed effective address (20_memory.md R71), else do the operation on the
environment. A command changes nothing of the Step Controller and answers nothing. -/
def runCommand (g : Gate) (ea : EA) (op : EA → Env → Env) (s : State) : Host.Outcome State Fault Refusal :=
  if eaMalformed (width g s.env.regs) ea then .refused .malformedAddress
  else .next { s with env := op ea s.env, reply := none }

end Sys2Proof.Machine
end

