-- ==== Sys2Proof/Machine/Arith.lean ====
section
/-! DEFINITION. ADC and SBC, binary and decimal, at both widths (42_arithmetic.md R150 to R163). Intermediate values are
integers: they keep the carry out, and in decimal SBC they may be negative (R150). -/

namespace Sys2Proof.Machine

/-- Bit `k` of an integer, in two's complement: bit `k` of `r mod 2^32` (R150). -/
def intBit (r : Int) (k : Nat) : Bool := (r % 4294967296).toNat.testBit k

/-- What the accumulation yields: the value before the final normalisation, from which V is taken (R152), and the value
after it, from which the carry and the result are taken (R153, R157). -/
structure Accumulated where
  before : Int
  after : Int
deriving DecidableEq, Repr

/-- Binary accumulation (R151). -/
def accumulate (a v c : Nat) : Int := (a + v + c : Nat)

/-- `AdcDec8(a, v, c)` (R155), the value before normalisation. -/
def adcDec8 (a v c : Nat) : Nat :=
  let r := (a &&& 0x0F) + (v &&& 0x0F) + c
  let r := if r > 0x09 then (r + 0x06) ||| 0x10 else r
  (a &&& 0xF0) + (v &&& 0xF0) + r

/-- `AdcDec16(a, v, c)` (R156), the value before normalisation. -/
def adcDec16 (a v c : Nat) : Nat :=
  let r := (a &&& 0x000F) + (v &&& 0x000F) + c
  let r := if r > 0x0009 then (r + 0x0006) ||| 0x0010 else r
  let r := (a &&& 0x00F0) + (v &&& 0x00F0) + r
  let r := if r > 0x009F then (r + 0x0060) ||| 0x0100 else r
  let r := (a &&& 0x0F00) + (v &&& 0x0F00) + r
  let r := if r > 0x09FF then (r + 0x0600) ||| 0x1000 else r
  (a &&& 0xF000) + (v &&& 0xF000) + r

/-- `SbcDec8(a, v, c)` (R159) with `v` already complemented, the value before normalisation. -/
def sbcDec8 (a v c : Nat) : Int :=
  let r : Int := ((a &&& 0x0F) + (v &&& 0x0F) + c : Nat)
  let r := if r < 0x10 then r - 0x06 else r
  (((a &&& 0xF0) + (v &&& 0xF0) : Nat) : Int) + r

/-- `SbcDec16(a, v, c)` (R160) with `v` already complemented, the value before normalisation. -/
def sbcDec16 (a v c : Nat) : Int :=
  let r : Int := ((a &&& 0x000F) + (v &&& 0x000F) + c : Nat)
  let r := if r < 0x0010 then r - 0x0006 else r
  let r := (((a &&& 0x00F0) + (v &&& 0x00F0) : Nat) : Int) + r
  let r := if r < 0x0100 then r - 0x0060 else r
  let r := (((a &&& 0x0F00) + (v &&& 0x0F00) : Nat) : Int) + r
  let r := if r < 0x1000 then r - 0x0600 else r
  (((a &&& 0xF000) + (v &&& 0xF000) : Nat) : Int) + r

/-- The accumulation of ADC (R154): decimal when `d`. -/
def adcAccumulate (w : Width) (d : Bool) (a v c : Nat) : Accumulated :=
  match d, w with
  | false, _ => ⟨accumulate a v c, accumulate a v c⟩
  | true, .w8 => let r := adcDec8 a v c; ⟨r, if r > 0x9F then r + 0x60 else r⟩
  | true, .w16 => let r := adcDec16 a v c; ⟨r, if r > 0x9FFF then r + 0x6000 else r⟩

/-- The accumulation of SBC (R158), with `v` the complemented operand: decimal when `d`. -/
def sbcAccumulate (w : Width) (d : Bool) (a v c : Nat) : Accumulated :=
  match d, w with
  | false, _ => ⟨accumulate a v c, accumulate a v c⟩
  | true, .w8 => let r := sbcDec8 a v c; ⟨r, if r < 0x100 then r - 0x60 else r⟩
  | true, .w16 => let r := sbcDec16 a v c; ⟨r, if r < 0x10000 then r - 0x6000 else r⟩

/-- Overflow (R152): `a` and `v` share a sign bit and the sign bit of `r` differs from it. -/
def overflow (w : Width) (a v : Nat) (r : Int) : Bool :=
  (a.testBit w.signBit == v.testBit w.signBit) && (v.testBit w.signBit != intBit r w.signBit)

/-- Flags and write-back of ADC and SBC (R152, R153): V from the value before normalisation, carry and result from the
value after it, Z and N from `A` at the selected width. -/
def finishArith (w : Width) (a v : Nat) (acc : Accumulated) (r : RegFile) : RegFile :=
  let r := setOverflowFlag (overflow w a v acc.before) r
  let r := setCarryFlag (decide (acc.after > (w.mask.toNat : Int))) r
  let r := writeA w (BitVec.ofInt 16 acc.after) r
  setZN r.a w r

/-- The common shape of ADC and SBC (R150): `pre` is what the operation does to the operand before the accumulation. -/
def arithOp (pre : Width → Word → Word) (acc : Width → Bool → Nat → Nat → Nat → Accumulated) (ea : EA) (e : Env) : Env :=
  let w := width .m e.regs
  let m := readOperand w ea e
  let a := (e.regs.a &&& w.mask).toNat
  let v := (pre w m.1).toNat
  m.2.mapRegs fun r => finishArith w a v (acc w (getDecimalFlag r) a v (getCarryFlag r).toNat) r

/-- ADC (R154). -/
def adcOp : EA → Env → Env := arithOp (fun _ m => m) adcAccumulate

/-- SBC (R158): it complements the operand "before the same accumulation". -/
def sbcOp : EA → Env → Env := arithOp (fun w m => ~~~m &&& w.mask) sbcAccumulate

/-- XCMD ADC (R154). -/
def execAdc (low high : Addr) (s : State) : Host.Outcome State Fault Refusal := runCommand .m ⟨low, high⟩ adcOp s

/-- XCMD SBC (R158). -/
def execSbc (low high : Addr) (s : State) : Host.Outcome State Fault Refusal := runCommand .m ⟨low, high⟩ sbcOp s

end Sys2Proof.Machine
end

