-- ==== Sys2Proof/Machine/Compare.lean ====
section
/-! DEFINITION. The compare operations CMP, CPX, CPY and the bit test BIT (43_compare_bit.md R170 to R175). -/

namespace Sys2Proof.Machine

/-- The common shape of the compares (R170), with `reg` the register of the operation and `g` its width gate. -/
def compareOp (g : Gate) (reg : RegFile → Word) (ea : EA) (e : Env) : Env :=
  let w := width g e.regs
  let m := readOperand w ea e
  let r := (reg e.regs &&& w.mask).toNat + (~~~m.1 &&& w.mask).toNat + 1
  m.2.mapRegs fun f => setZN (BitVec.ofNat 16 r) w (setCarryFlag (decide (r > w.mask.toNat)) f)

/-- CMP (R171). -/
def cmpOp : EA → Env → Env := compareOp .m RegFile.a

/-- CPX (R172). -/
def cpxOp : EA → Env → Env := compareOp .x RegFile.x

/-- CPY (R173). -/
def cpyOp : EA → Env → Env := compareOp .x RegFile.y

/-- BIT (R174); N and V are written for every command, whatever addressing mode it came from (R175). -/
def bitOp (ea : EA) (e : Env) : Env :=
  let w := width .m e.regs
  let m := readOperand w ea e
  let t := (e.regs.a &&& m.1) &&& w.mask
  m.2.mapRegs fun r =>
    setOverflowFlag (m.1.getLsbD (w.bits - 2)) (setNegativeFlag (m.1.getLsbD (w.bits - 1)) (setZeroFlag (t == 0) r))

/-- XCMD CMP (R171). -/
def execCmp (low high : Addr) (s : State) : Host.Outcome State Fault Refusal := runCommand .m ⟨low, high⟩ cmpOp s

/-- XCMD CPX (R172). -/
def execCpx (low high : Addr) (s : State) : Host.Outcome State Fault Refusal := runCommand .x ⟨low, high⟩ cpxOp s

/-- XCMD CPY (R173). -/
def execCpy (low high : Addr) (s : State) : Host.Outcome State Fault Refusal := runCommand .x ⟨low, high⟩ cpyOp s

/-- XCMD BIT (R174). -/
def execBit (low high : Addr) (s : State) : Host.Outcome State Fault Refusal := runCommand .m ⟨low, high⟩ bitOp s

end Sys2Proof.Machine
end

