-- ==== Sys2Proof/Machine/LoadStore.lean ====
section
/-! DEFINITION. The loads LDA, LDX, LDY and the stores STA, STX, STY, STZ (44_load_store.md R180 to R189). -/

namespace Sys2Proof.Machine

/-- LDA (R181): the high byte of `A` is preserved in 8-bit mode. -/
def ldaOp (ea : EA) (e : Env) : Env :=
  let w := width .m e.regs
  let m := readOperand w ea e
  m.2.mapRegs fun r =>
    let r := writeA w m.1 r
    setZN r.a w r

/-- LDX (R182): in 8-bit index mode the zero-extended byte is written. -/
def ldxOp (ea : EA) (e : Env) : Env :=
  let w := width .x e.regs
  let m := readOperand w ea e
  m.2.mapRegs fun r => setZN m.1 w { r with x := m.1 }

/-- LDY (R183): as LDX. -/
def ldyOp (ea : EA) (e : Env) : Env :=
  let w := width .x e.regs
  let m := readOperand w ea e
  m.2.mapRegs fun r => setZN m.1 w { r with y := m.1 }

/-- The common shape of the stores (R184 to R187): the value at the selected width; no flag changes. -/
def storeOp (g : Gate) (value : RegFile → Word) (ea : EA) (e : Env) : Env :=
  writeOperand (width g e.regs) ea (value e.regs) e

/-- STA (R184). -/
def staOp : EA → Env → Env := storeOp .m RegFile.a

/-- STX (R185). -/
def stxOp : EA → Env → Env := storeOp .x RegFile.x

/-- STY (R186). -/
def styOp : EA → Env → Env := storeOp .x RegFile.y

/-- STZ (R187): gated by `P.M`. -/
def stzOp : EA → Env → Env := storeOp .m fun _ => 0

/-- XCMD LDA (R181). -/
def execLda (low high : Addr) (s : State) : Host.Outcome State Fault Refusal := runCommand .m ⟨low, high⟩ ldaOp s

/-- XCMD LDX (R182). -/
def execLdx (low high : Addr) (s : State) : Host.Outcome State Fault Refusal := runCommand .x ⟨low, high⟩ ldxOp s

/-- XCMD LDY (R183). -/
def execLdy (low high : Addr) (s : State) : Host.Outcome State Fault Refusal := runCommand .x ⟨low, high⟩ ldyOp s

/-- XCMD STA (R184). -/
def execSta (low high : Addr) (s : State) : Host.Outcome State Fault Refusal := runCommand .m ⟨low, high⟩ staOp s

/-- XCMD STX (R185). -/
def execStx (low high : Addr) (s : State) : Host.Outcome State Fault Refusal := runCommand .x ⟨low, high⟩ stxOp s

/-- XCMD STY (R186). -/
def execSty (low high : Addr) (s : State) : Host.Outcome State Fault Refusal := runCommand .x ⟨low, high⟩ styOp s

/-- XCMD STZ (R187). -/
def execStz (low high : Addr) (s : State) : Host.Outcome State Fault Refusal := runCommand .m ⟨low, high⟩ stzOp s

end Sys2Proof.Machine
end

