-- ==== Sys2Proof/Machine/Logic.lean ====
section
/-! DEFINITION. The logic operations AND, EOR, ORA (41_logic.md R140 to R143). -/

namespace Sys2Proof.Machine

/-- The common shape of the family (R140), with `f` the bitwise function of the operation. -/
def logicOp (f : Word → Word → Word) (ea : EA) (e : Env) : Env :=
  let w := width .m e.regs
  let m := readOperand w ea e
  m.2.mapRegs fun r =>
    let r := writeA w (f r.a m.1) r
    setZN r.a w r

/-- AND (R141). -/
def andOp : EA → Env → Env := logicOp fun a v => a &&& v

/-- EOR (R142). -/
def eorOp : EA → Env → Env := logicOp fun a v => a ^^^ v

/-- ORA (R143). -/
def oraOp : EA → Env → Env := logicOp fun a v => a ||| v

/-- XCMD AND (R141). -/
def execAnd (low high : Addr) (s : State) : Host.Outcome State Fault Refusal := runCommand .m ⟨low, high⟩ andOp s

/-- XCMD EOR (R142). -/
def execEor (low high : Addr) (s : State) : Host.Outcome State Fault Refusal := runCommand .m ⟨low, high⟩ eorOp s

/-- XCMD ORA (R143). -/
def execOra (low high : Addr) (s : State) : Host.Outcome State Fault Refusal := runCommand .m ⟨low, high⟩ oraOp s

end Sys2Proof.Machine
end

