-- ==== Sys2Proof/Machine/Rmw.lean ====
section
/-! DEFINITION. The read-modify-write operations ASL, ROL, LSR, ROR, INC, DEC, TSB, TRB (45_rmw.md R200 to R211). -/

namespace Sys2Proof.Machine

/-- The bus sequence of the family (R200): read, `Idle` once, the operation's function, write back to the same pair. `f`
takes the width, the operand as read and the Register File, and gives the new operand and the Register File with its flag
updates. -/
def rmwOp (f : Width → Word → RegFile → Word × RegFile) (ea : EA) (e : Env) : Env :=
  let w := width .m e.regs
  let m := readOperand w ea e
  let e1 := busIdle Config.idleArg m.2
  let q := f w m.1 e1.regs
  writeOperand w ea q.1 (e1.mapRegs fun _ => q.2)

/-- A flag as a word: 0 or 1. -/
def bitWord (b : Bool) : Word := if b then 1 else 0

/-- The flag updates of the shifts and rotates: the bit that leaves goes to C (R208), Z and N come from the result. -/
def shiftFlags (w : Width) (out : Bool) (res : Word) (r : RegFile) : Word × RegFile :=
  (res, setZN res w (setCarryFlag out r))

/-- ASL (R202). -/
def aslFn (w : Width) (m : Word) (r : RegFile) : Word × RegFile :=
  shiftFlags w (m.getLsbD w.signBit) ((m <<< 1) &&& w.mask) r

/-- ROL (R203). -/
def rolFn (w : Width) (m : Word) (r : RegFile) : Word × RegFile :=
  shiftFlags w (m.getLsbD w.signBit) (((m <<< 1) ||| bitWord (getCarryFlag r)) &&& w.mask) r

/-- LSR (R204). -/
def lsrFn (w : Width) (m : Word) (r : RegFile) : Word × RegFile :=
  shiftFlags w (m.getLsbD 0) (m >>> 1) r

/-- ROR (R205). -/
def rorFn (w : Width) (m : Word) (r : RegFile) : Word × RegFile :=
  shiftFlags w (m.getLsbD 0) ((m >>> 1) ||| (bitWord (getCarryFlag r) <<< w.signBit)) r

/-- INC (R206). -/
def incFn (w : Width) (m : Word) (r : RegFile) : Word × RegFile :=
  let res := (m + 1) &&& w.mask
  (res, setZN res w r)

/-- DEC (R207). -/
def decFn (w : Width) (m : Word) (r : RegFile) : Word × RegFile :=
  let res := (m - 1) &&& w.mask
  (res, setZN res w r)

/-- TSB (R209, R210): Z is tested on the operand as read. -/
def tsbFn (w : Width) (m : Word) (r : RegFile) : Word × RegFile :=
  let a := r.a &&& w.mask
  ((m ||| a) &&& w.mask, setZeroFlag (a &&& m == 0) r)

/-- TRB (R209, R211): Z is tested on the operand as read. -/
def trbFn (w : Width) (m : Word) (r : RegFile) : Word × RegFile :=
  let a := r.a &&& w.mask
  (m &&& ~~~a &&& w.mask, setZeroFlag (a &&& m == 0) r)

/-- XCMD ASL (R202). -/
def execAsl (low high : Addr) (s : State) : Host.Outcome State Fault Refusal := runCommand .m ⟨low, high⟩ (rmwOp aslFn) s

/-- XCMD ROL (R203). -/
def execRol (low high : Addr) (s : State) : Host.Outcome State Fault Refusal := runCommand .m ⟨low, high⟩ (rmwOp rolFn) s

/-- XCMD LSR (R204). -/
def execLsr (low high : Addr) (s : State) : Host.Outcome State Fault Refusal := runCommand .m ⟨low, high⟩ (rmwOp lsrFn) s

/-- XCMD ROR (R205). -/
def execRor (low high : Addr) (s : State) : Host.Outcome State Fault Refusal := runCommand .m ⟨low, high⟩ (rmwOp rorFn) s

/-- XCMD INC (R206). -/
def execInc (low high : Addr) (s : State) : Host.Outcome State Fault Refusal := runCommand .m ⟨low, high⟩ (rmwOp incFn) s

/-- XCMD DEC (R207). -/
def execDec (low high : Addr) (s : State) : Host.Outcome State Fault Refusal := runCommand .m ⟨low, high⟩ (rmwOp decFn) s

/-- XCMD TSB (R210). -/
def execTsb (low high : Addr) (s : State) : Host.Outcome State Fault Refusal := runCommand .m ⟨low, high⟩ (rmwOp tsbFn) s

/-- XCMD TRB (R211). -/
def execTrb (low high : Addr) (s : State) : Host.Outcome State Fault Refusal := runCommand .m ⟨low, high⟩ (rmwOp trbFn) s

end Sys2Proof.Machine
end

