-- ==== Sys2Proof/Machine/Executor.lean ====
section
/-! DEFINITION. The executor's operations by name, and what the Stepper does with the environment: "any executor operation
it performs follows the rules of 41_logic.md to 45_rmw.md" (47_step_controller.md R283(d)). -/

namespace Sys2Proof.Machine

/-- The width gate of each operation (30_encoding.md R92). -/
def gateOf : ExecOp → Gate
  | .cpx | .cpy | .ldx | .ldy | .stx | .sty => .x
  | .and | .eor | .ora | .adc | .sbc | .cmp | .bit | .lda | .sta | .stz => .m
  | .asl | .rol | .lsr | .ror | .inc | .dec | .tsb | .trb => .m

/-- The effect of each operation on the environment (30_encoding.md R92). -/
def opEffect : ExecOp → EA → Env → Env
  | .and => andOp
  | .eor => eorOp
  | .ora => oraOp
  | .adc => adcOp
  | .sbc => sbcOp
  | .cmp => cmpOp
  | .cpx => cpxOp
  | .cpy => cpyOp
  | .bit => bitOp
  | .lda => ldaOp
  | .ldx => ldxOp
  | .ldy => ldyOp
  | .sta => staOp
  | .stx => stxOp
  | .sty => styOp
  | .stz => stzOp
  | .asl => rmwOp aslFn
  | .rol => rmwOp rolFn
  | .lsr => rmwOp lsrFn
  | .ror => rmwOp rorFn
  | .inc => rmwOp incFn
  | .dec => rmwOp decFn
  | .tsb => rmwOp tsbFn
  | .trb => rmwOp trbFn

/-- A pair the Stepper uses, as an effective-address pair on the bus. -/
def ofGoodPair (p : GoodPair) : EA := ⟨p.low.setWidth 32, p.high.setWidth 32⟩

/-- One action of the Stepper. -/
def runAction (e : Env) : StepperAction → Env
  | .command op ea => opEffect op (ofGoodPair ea) e
  | .setReg w => e.mapRegs (RegFile.write w)
  | .readByte a => (busReadByte (a.setWidth 32) e).2
  | .readWord ea => (busReadWord (ofGoodPair ea).low (ofGoodPair ea).high e).2
  | .writeByte a v => busWriteByte (a.setWidth 32) v e
  | .writeWord ea v => busWriteWord (ofGoodPair ea).low (ofGoodPair ea).high v e
  | .idle arg => busIdle arg e

/-- The actions of one Stepper call, in order. -/
def runActions (acts : List StepperAction) (e : Env) : Env := acts.foldl runAction e

/-- `Stepper()` (47_step_controller.md R283): one call. It changes the environment only (R283(b)). -/
def callStepper (stp : Stepper) (s : State) : State :=
  { s with
    env := runActions (stp s.freeCount s.env.regs s.env.mem) s.env
    calls := s.calls ++ [.stepper]
    freeCount := s.freeCount + 1 }

end Sys2Proof.Machine
end

