-- ==== Sys2Proof/Machine/Controller.lean ====
section
/-! DEFINITION. The Step Controller: StepInto, StepOver, StepOut (47_step_controller.md R280 to R297; 60_exceptions.md
R320 to R327). The functions are parametric in the Stepper (R283); the instructions use `Config.stepper`. -/

namespace Sys2Proof.Machine

/-- The configuration check (R284). -/
def State.configured (s : State) : Bool := s.cfgReader && s.cfgStepper && s.cfgPc

/-- The result of an unconfigured controller (60_exceptions.md R323): the PC getter is not called. -/
def configError : StepResult := fail .errConfig 0 0 none

/-- The CallStackEntry of a call opcode at `pc` (R285; 10_state.md R35). -/
def callEntry (s : State) (pc : Addr) (op : Byte) : CallStackEntry :=
  { callAddress := pc
    targetAddress := calculateCallTarget s.reader pc op
    returnAddress := calculateReturnAddress pc op
    isLong := op == 0x22
    symbol := none }

/-- What inspecting the opcode before a step yields: the state with its call stack updated, and the event, if any. -/
structure Observed where
  state : State
  call : Option CallStackEntry
  ret : Option CallStackEntry
deriving DecidableEq, Repr

/-- Inspect the opcode `op` at `pc` before stepping (R285): push an entry for a call, pop the top entry for a return with a
non-empty stack, whatever its `isLong` (10_state.md R36). -/
def observe (pc : Addr) (op : Byte) (s : State) : Observed :=
  if isCall op then
    let entry := callEntry s pc op
    ⟨{ s with callStack := s.callStack ++ [entry], calls := s.calls ++ callTargetCalls s pc op }, some entry, none⟩
  else if isReturn op && s.depth > 0 then ⟨{ s with callStack := s.callStack.dropLast }, none, s.callStack.getLast?⟩
  else ⟨s, none, none⟩

/-- StepInto once the controller is known to be configured (R285): look at the opcode, push or pop, one Stepper call. -/
def stepOnce (stp : Stepper) (s : State) : StepResult × State :=
  let pc := s.pcGetter
  let op := s.reader pc
  let seen := observe pc op (s.logCalls [.pcGetter pc, .reader pc op])
  let t := callStepper stp seen.state
  (succeed t.pcGetter 1 seen.call seen.ret, t.logCalls [.pcGetter t.pcGetter])

/-- `StepInto()` (R285). -/
def stepInto (stp : Stepper) (s : State) : StepResult × State :=
  if s.configured then stepOnce stp s else (configError, s)

/-- End a command with a result that reports the current PC, which is one more `PcGetter` call. -/
def finishWith (result : Addr → StepResult) (s : State) : StepResult × State :=
  (result s.pcGetter, s.logCalls [.pcGetter s.pcGetter])

/-- The loop of StepOver (R287): `d0` is the depth before the call, `call` its entry, `n` the instructions executed so far
and `ret` the last event; the first argument is what is left of the budget. Success is tested before the budget. -/
def stepOverLoop (stp : Stepper) (d0 : Nat) (call : Option CallStackEntry) :
    Nat → Nat → Option CallStackEntry → State → StepResult × State
  | 0, n, ret, s =>
    if s.depth ≤ d0 then finishWith (fun pc => succeed pc n call ret) s
    else finishWith (fun pc => fail .errTimeout pc n call) s
  | left + 1, n, ret, s =>
    if s.depth ≤ d0 then finishWith (fun pc => succeed pc n call ret) s
    else
      let q := stepInto stp s
      stepOverLoop stp d0 call left (n + 1) q.1.ret q.2

/-- `StepOver(max)` (R287). The call is executed whatever `max` is (R288(b)). -/
def stepOver (stp : Stepper) (max : BitVec 32) (s : State) : StepResult × State :=
  if s.configured then
    let pc := s.pcGetter
    let op := s.reader pc
    let s0 := s.logCalls [.pcGetter pc, .reader pc op]
    if isCall op then
      let q := stepInto stp s0
      stepOverLoop stp s.depth q.1.call (max.toNat - 1) 1 none q.2
    else stepInto stp s0
  else (configError, s)

/-- The loop of StepOut (R289): the budget is tested before each step. -/
def stepOutLoop (stp : Stepper) (target : Nat) : Nat → Nat → State → StepResult × State
  | 0, n, s => finishWith (fun pc => fail .errTimeout pc n none) s
  | left + 1, n, s =>
    let q := stepInto stp s
    if q.2.depth ≤ target then finishWith (fun pc => succeed pc (n + 1) none q.1.ret) q.2
    else stepOutLoop stp target left (n + 1) q.2

/-- `StepOut(max)` (R289): configuration first, then the empty stack, then the loop (60_exceptions.md R327). -/
def stepOut (stp : Stepper) (max : BitVec 32) (s : State) : StepResult × State :=
  if s.configured then
    if s.depth = 0 then finishWith (fun pc => fail .errEmptyStack pc 0 none) s
    else stepOutLoop stp (s.depth - 1) max.toNat 0 s
  else (configError, s)

/-- Deliver a StepResult to the host (30_encoding.md R94, "The reply to every SCMD is a StepResult"). -/
def deliver (q : StepResult × State) : Host.Outcome State Fault Refusal := .next (q.2.answer (.stepped q.1))

/-- SCMD STEPINTO (R285); `max` is ignored (30_encoding.md R94). -/
def execStepInto (_max : BitVec 32) (s : State) : Host.Outcome State Fault Refusal := deliver (stepInto Config.stepper s)

/-- SCMD STEPOVER (R287). -/
def execStepOver (max : BitVec 32) (s : State) : Host.Outcome State Fault Refusal := deliver (stepOver Config.stepper max s)

/-- SCMD STEPOUT (R289). -/
def execStepOut (max : BitVec 32) (s : State) : Host.Outcome State Fault Refusal := deliver (stepOut Config.stepper max s)

end Sys2Proof.Machine
end

