-- ==== Sys2Proof/Machine/Dispatch.lean ====
section
/-! DEFINITION. One arm per instruction: the meaning it calls. -/

namespace Sys2Proof.Machine

def exec (i : Instr) (s : State) : Host.Outcome State Fault Refusal :=
  match i with
  | .and low high => Sys2Proof.Machine.execAnd low high s
  | .eor low high => Sys2Proof.Machine.execEor low high s
  | .ora low high => Sys2Proof.Machine.execOra low high s
  | .adc low high => Sys2Proof.Machine.execAdc low high s
  | .sbc low high => Sys2Proof.Machine.execSbc low high s
  | .cmp low high => Sys2Proof.Machine.execCmp low high s
  | .cpx low high => Sys2Proof.Machine.execCpx low high s
  | .cpy low high => Sys2Proof.Machine.execCpy low high s
  | .bit low high => Sys2Proof.Machine.execBit low high s
  | .lda low high => Sys2Proof.Machine.execLda low high s
  | .ldx low high => Sys2Proof.Machine.execLdx low high s
  | .ldy low high => Sys2Proof.Machine.execLdy low high s
  | .sta low high => Sys2Proof.Machine.execSta low high s
  | .stx low high => Sys2Proof.Machine.execStx low high s
  | .sty low high => Sys2Proof.Machine.execSty low high s
  | .stz low high => Sys2Proof.Machine.execStz low high s
  | .asl low high => Sys2Proof.Machine.execAsl low high s
  | .rol low high => Sys2Proof.Machine.execRol low high s
  | .lsr low high => Sys2Proof.Machine.execLsr low high s
  | .ror low high => Sys2Proof.Machine.execRor low high s
  | .inc low high => Sys2Proof.Machine.execInc low high s
  | .dec low high => Sys2Proof.Machine.execDec low high s
  | .tsb low high => Sys2Proof.Machine.execTsb low high s
  | .trb low high => Sys2Proof.Machine.execTrb low high s
  | .stepInto max => Sys2Proof.Machine.execStepInto max s
  | .stepOver max => Sys2Proof.Machine.execStepOver max s
  | .stepOut max => Sys2Proof.Machine.execStepOut max s
  | .jsrAbs addr => Sys2Proof.Machine.execJsrAbs addr s
  | .jslLong addr => Sys2Proof.Machine.execJslLong addr s
  | .jsrAbsX addr => Sys2Proof.Machine.execJsrAbsX addr s
  | .rts => Sys2Proof.Machine.execRts s
  | .rtl => Sys2Proof.Machine.execRtl s
  | .rti => Sys2Proof.Machine.execRti s
  | .bplRel disp => Sys2Proof.Machine.execBplRel disp s
  | .bmiRel disp => Sys2Proof.Machine.execBmiRel disp s
  | .bvcRel disp => Sys2Proof.Machine.execBvcRel disp s
  | .bvsRel disp => Sys2Proof.Machine.execBvsRel disp s
  | .bccRel disp => Sys2Proof.Machine.execBccRel disp s
  | .bcsRel disp => Sys2Proof.Machine.execBcsRel disp s
  | .bneRel disp => Sys2Proof.Machine.execBneRel disp s
  | .beqRel disp => Sys2Proof.Machine.execBeqRel disp s
  | .jmpAbs addr => Sys2Proof.Machine.execJmpAbs addr s
  | .jmlLong addr => Sys2Proof.Machine.execJmlLong addr s
  | .jmpInd addr => Sys2Proof.Machine.execJmpInd addr s
  | .jmpIndX addr => Sys2Proof.Machine.execJmpIndX addr s
  | .jmlInd addr => Sys2Proof.Machine.execJmlInd addr s
  | .braRel disp => Sys2Proof.Machine.execBraRel disp s
  | .brlRel16 disp => Sys2Proof.Machine.execBrlRel16 disp s

end Sys2Proof.Machine
end

