-- ==== Sys2Proof/Machine/Fetch.lean ====
section
/-! DEFINITION. Taking the host's next request: fetching a command, and the transactions of the host that are no
instruction (00_scope.md R9, R10(d); 10_state.md R38; 40_regfile_flags.md R120). -/

namespace Sys2Proof.Machine

/-- What taking the next request yields: an instruction to execute, a transaction that is done, or a reason to stop. -/
inductive Fetched where
  | run (i : Instr) (s : State)
  | done (s : State)
  | stop (r : Refusal)
deriving DecidableEq, Repr

/-- `Configure(which, present)` (10_state.md R38). -/
def configure (which : Contract) (present : Bool) (s : State) : State :=
  match which with
  | .reader => { s with cfgReader := present, reply := none }
  | .stepper => { s with cfgStepper := present, reply := none }
  | .pcGetter => { s with cfgPc := present, reply := none }

/-- Change the Register File; nothing is answered. -/
def State.updateRegs (f : RegFile → RegFile) (s : State) : State := { s with env := s.env.mapRegs f, reply := none }

/-- An operation of the Register File's public contract (40_regfile_flags.md R120 to R129). -/
def doFlagOp (op : FlagOp) (s : State) : State :=
  match op with
  | .getAccumulatorSize => s.answer (.flag (getAccumulatorSize s.env.regs))
  | .getIndexSize => s.answer (.flag (getIndexSize s.env.regs))
  | .setZN value w => s.updateRegs (setZN value w)
  | .getCarryFlag => s.answer (.flag (getCarryFlag s.env.regs))
  | .setCarryFlag b => s.updateRegs (setCarryFlag b)
  | .setOverflowFlag b => s.updateRegs (setOverflowFlag b)
  | .setNegativeFlag b => s.updateRegs (setNegativeFlag b)
  | .setZeroFlag b => s.updateRegs (setZeroFlag b)
  | .getDecimalFlag => s.answer (.flag (getDecimalFlag s.env.regs))

/-- The host writes a byte of memory: no bus call of the block, so no trace event (log 15). -/
def hostWriteMem (a : BitVec 24) (v : Byte) (s : State) : State :=
  { s with env := { s.env with mem := memWrite s.env.mem a.toNat v }, reply := none }

/-- Decode a command word of the inbox; a reserved code is refused (30_encoding.md R93, R94). -/
def fetchCommand (c : CommandWord) (s : State) : Fetched :=
  match decode c with
  | .ok i => .run i s
  | .error e => .stop (.reservedCode e)

/-- The bytes of the 65816 instruction a query is about: its opcode byte, and what memory holds after it (log 14), also
while `cfg_reader` is 0 (log 29). -/
def queryBytes (pc : Addr) (op : Byte) (s : State) : List Byte :=
  [op, s.reader (pc + 1), s.reader (pc + 2), s.reader (pc + 3)]

/-- A classifier query (30_encoding.md R101): the instruction of a classified opcode is executed; for any other opcode
the classifier answers at once (46_classifier.md R261). -/
def fetchQuery (pc : Addr) (op : Byte) (s : State) : Fetched :=
  match decode (.opc8 (queryBytes pc op s)) with
  | .ok i => .run i { s with queryPc := pc }
  | .error _ => .done (answerQuery op { s with queryPc := pc })

/-- Take one request, already removed from the inbox. -/
def take (r : Request) (s : State) : Fetched :=
  match r with
  | .xcmd w => fetchCommand (.xcmd w) s
  | .scmd w => fetchCommand (.scmd w) s
  | .query pc op => fetchQuery pc op s
  | .configure which present => .done (configure which present s)
  | .flagOp op => .done (doFlagOp op s)
  | .readReg n => .done (s.answer (.register (s.env.regs.read n)))
  | .writeReg w => .done (s.updateRegs (RegFile.write w))
  | .readMem a => .done (s.answer (.byte (memRead s.env.mem a.toNat)))
  | .writeMem a v => .done (hostWriteMem a v s)

/-- Fetch: take the oldest request; with none pending nothing happens (log 10). -/
def fetch (s : State) : Fetched :=
  match s.inbox with
  | [] => .done s
  | r :: rest => take r { s with inbox := rest }

/-! ## Placing a table word where the next step fetches it -/

/-- Store bytes at consecutive addresses. -/
def placeBytes : Memory → Nat → List Byte → Memory
  | m, _, [] => m
  | m, a, b :: rest => placeBytes (memWrite m a b) (a + 1) rest

/-- Where a 65816 instruction is placed: at `PcGetter()`, or at 0 if its four bytes would pass the space there. -/
def placePc (s : State) : Addr := if s.pcGetter.toNat + 4 ≤ addressSpace then s.pcGetter else 0

/-- Put a table word at the head of the inbox; the bytes of a 65816 instruction go into memory too (log 14, log 21). -/
def placeTableWord (nbits w : Nat) (s : State) : State :=
  if nbits ≤ 32 then
    { s with
      env := { s.env with mem := placeBytes s.env.mem (placePc s).toNat (bytesOfTableWord w) }
      inbox := .query (placePc s) (BitVec.ofNat 8 w) :: s.inbox }
  else if nbits ≤ 40 then { s with inbox := .scmd (BitVec.ofNat 34 w) :: s.inbox }
  else { s with inbox := .xcmd (BitVec.ofNat 69 w) :: s.inbox }

end Sys2Proof.Machine
end

