-- ==== Sys2Proof/Machine/Step.lean ====
section
/-! DEFINITION. One step: one transaction (00_scope.md R9). -/

namespace Sys2Proof.Machine

/-- One step: take the host's oldest request and do it (00_scope.md R9, R10). -/
def step (s : State) : Host.Outcome State Fault Refusal :=
  match fetch s with
  | .run i t => exec i t
  | .done t => .next t
  | .stop r => .refused r

/-- `s` with a table word placed where the next step fetches it (log 21). -/
def State.withFetchWord (s : State) (nbits w : Nat) : State := placeTableWord nbits w s

end Sys2Proof.Machine
end

