-- ==== Sys2Proof/Safety.lean ====
section
/-! DEFINITION. What counts as a safe run, and the terms in which the claims speak of a transaction: the invariant every
step keeps, the launch premises of the spec, what an operand is, and what a transaction leaves alone. -/

namespace Sys2Proof.Machine

/-! ## Invariants -/

/-- A combined address: bits 31:24 are 0 (10_state.md R25, R35). -/
abbrev Combined (a : Addr) : Prop := a.toNat < addressSpace

/-- An entry of the call stack as this block makes it: combined addresses, no symbol (10_state.md R35). -/
abbrev CallStackEntry.Wf (c : CallStackEntry) : Prop :=
  Combined c.callAddress ∧ Combined c.targetAddress ∧ Combined c.returnAddress ∧ c.symbol = none

/-- The invariant of the machine: memory is in canonical form and inside the 24-bit space, and every entry of the call stack
is one the block makes. -/
abbrev State.Inv (s : State) : Prop := memWf s.env.mem ∧ ∀ c ∈ s.callStack, c.Wf

/-- The environment invariants (10_state.md R32): (a) `E = 1` implies `P.M = 1` and `P.X = 1`; (b) `P.X = 1` implies that
the high bytes of `X` and `Y` are 0. They are launch premises: the block keeps them and does not enforce them. -/
abbrev RegFile.LaunchOk (r : RegFile) : Prop :=
  (r.e = true → r.flag .m = true ∧ r.flag .x = true) ∧
    (r.flag .x = true → r.x &&& 0xFF00 = 0 ∧ r.y &&& 0xFF00 = 0)

/-- A run of `k` steps from `s` that ends in a state: every request on the way was given a meaning. -/
def SafeRun (k : Nat) (s : State) : Prop := ∃ t, core.run k s = .next t

/-! ## Reading a state -/

/-- One flag of a state. -/
def State.flag (s : State) (f : Flag) : Bool := s.env.regs.flag f

/-- One byte of memory: the model's read of one address. -/
def State.byte (s : State) (a : Nat) : Byte := memRead s.env.mem a

/-- The width that a gate selects (10_state.md R30): 8 when its flag is 1, else 16. -/
def State.width (s : State) : Gate → Width
  | .m => if s.flag .m then .w8 else .w16
  | .x => if s.flag .x then .w8 else .w16

/-- The operand bytes lie in the 24-bit space, at different addresses (20_memory.md R71); at 8 bits there is one. -/
abbrev AddressesOk (w : Width) (low high : Addr) : Prop :=
  match w with
  | .w8 => low.toNat < 16777216
  | .w16 => low.toNat < 16777216 ∧ high.toNat < 16777216 ∧ low ≠ high

/-- The memory operand at a pair (20_memory.md R62, R63): the byte at `low`, or the byte at `high` above it. -/
def State.operand (s : State) (w : Width) (low high : Addr) : Word :=
  match w with
  | .w8 => (s.byte low.toNat).setWidth 16
  | .w16 => s.byte high.toNat ++ s.byte low.toNat

/-- The bus event of one operand read (10_state.md R39; 20_memory.md R69). -/
def readEvent (w : Width) (low high : Addr) (v : Word) : BusEvent :=
  match w with
  | .w8 => .rd8 low (v.extractLsb' 0 8)
  | .w16 => .rd16 low high v

/-- The bus event of one operand write (10_state.md R39; 20_memory.md R69). -/
def writeEvent (w : Width) (low high : Addr) (v : Word) : BusEvent :=
  match w with
  | .w8 => .wr8 low (v.extractLsb' 0 8)
  | .w16 => .wr16 low high v

/-! ## What a transaction does and leaves alone -/

/-- `Z` and `N` are those of `v` at width `w` (40_regfile_flags.md R123). -/
def State.ZNFrom (t : State) (w : Width) (v : Word) : Prop :=
  (t.flag .z = true ↔ v.toNat % 2 ^ w.bits = 0) ∧ t.flag .n = v.getLsbD (w.bits - 1)

/-- Every flag but the listed ones is as before. -/
def KeepsFlagsBut (fs : List Flag) (s t : State) : Prop := ∀ f, f ∉ fs → t.flag f = s.flag f

/-- Every register but the listed ones and `P` is as before. -/
def KeepsRegsBut (ns : List RegName) (s t : State) : Prop :=
  ∀ n, n ≠ .p → n ∉ ns → t.env.regs.read n = s.env.regs.read n

/-- Every byte of memory is as before. -/
def KeepsMemory (s t : State) : Prop := ∀ a, t.byte a = s.byte a

/-- The operand `v` is stored at the pair and every other byte is as before (20_memory.md R64, R65). -/
def StoresOnly (w : Width) (low high : Addr) (v : Word) (s t : State) : Prop :=
  match w with
  | .w8 => t.byte low.toNat = v.extractLsb' 0 8 ∧ ∀ a, a ≠ low.toNat → t.byte a = s.byte a
  | .w16 =>
    t.byte low.toNat = v.extractLsb' 0 8 ∧ t.byte high.toNat = v.extractLsb' 8 8 ∧
      ∀ a, a ≠ low.toNat → a ≠ high.toNat → t.byte a = s.byte a

/-- The bus calls of the transaction are exactly the listed ones. -/
def BusCalls (evs : List BusEvent) (s t : State) : Prop := t.env.trace = s.env.trace ++ evs

/-- The Step Controller and the host's requests are as before. -/
def KeepsController (s t : State) : Prop :=
  t.callStack = s.callStack ∧ t.cfgReader = s.cfgReader ∧ t.cfgStepper = s.cfgStepper ∧ t.cfgPc = s.cfgPc ∧
    t.calls = s.calls ∧ t.inbox = s.inbox ∧ t.queryPc = s.queryPc ∧ t.freeCount = s.freeCount

/-- The command ends with a StepResult. -/
def Delivers (r : StepResult) (t : State) : Prop := t.reply = some (.stepped r)

/-- How many calls of the Stepper a list of contract calls holds. -/
def stepperCalls (cs : List ContractCall) : Nat := cs.countP fun c => c == .stepper

/-- The state after `k` StepIntos. -/
def stepIntos (stp : Stepper) : Nat → State → State
  | 0, s => s
  | k + 1, s => stepIntos stp k (stepInto stp s).2

/-- A state without its record of contract calls, which no rule reads (log 12). -/
def State.forgetCalls (s : State) : State := { s with calls := [] }

/-- The Stepper keeps the launch premises: whatever it does to an environment that meets them, the environment it leaves
meets them (10_state.md R32, "whoever writes `P`, `E`, `X` and `Y` from outside keeps"). -/
def KeepsLaunch (stp : Stepper) : Prop :=
  ∀ n e, e.regs.LaunchOk → (runActions (stp n e.regs e.mem) e).regs.LaunchOk

/-! ## Values at a width -/

/-- The part of a 16-bit container that takes part at width `w` (10_state.md R21, R22), as a number. -/
def lowBits (w : Width) (v : Word) : Nat := v.toNat % 2 ^ w.bits

/-- The sign bit of an integer at width `w`: bit `w - 1` of its two's complement (42_arithmetic.md R150). -/
def signBit (w : Width) (r : Int) : Bool := decide (2 ^ (w.bits - 1) ≤ r % 2 ^ w.bits)

/-- A `w`-bit value read as two's complement (42_arithmetic.md R161). -/
def signed (w : Width) (n : Nat) : Int := if n < 2 ^ (w.bits - 1) then n else (n : Int) - 2 ^ w.bits

/-- An integer that a signed `w`-bit value can hold (42_arithmetic.md R161). -/
abbrev SignedFits (w : Width) (r : Int) : Prop := -2 ^ (w.bits - 1) ≤ r ∧ r ≤ 2 ^ (w.bits - 1) - 1

/-- The overflow rule (42_arithmetic.md R152): `a` and `v` share a sign bit, and `r` has the other one. -/
abbrev Overflows (w : Width) (a v : Nat) (r : Int) : Prop := signBit w a = signBit w v ∧ signBit w r ≠ signBit w v

/-! ## Decimal arithmetic, nibble group by nibble group (42_arithmetic.md R155, R156, R159, R160) -/

/-- How many decimal digits a `w`-bit value has. -/
def digits : Width → Nat
  | .w8 => 2
  | .w16 => 4

/-- Nibble group `k` of a value, in place. -/
def nibbleGroup (k v : Nat) : Nat := v / 16 ^ k % 16 * 16 ^ k

/-- The correction of ADC after group `k`: past nine, add six and OR in the carry into the next group. -/
def adcFix (k : Nat) (r : Int) : Int :=
  if 10 * 16 ^ k ≤ r then (((r.toNat + 6 * 16 ^ k) ||| 16 ^ (k + 1) : Nat) : Int) else r

/-- The correction of SBC after group `k`: with no carry out of the group, subtract six. -/
def sbcFix (k : Nat) (r : Int) : Int := if r < 16 ^ (k + 1) then r - 6 * 16 ^ k else r

/-- The sum up to nibble group `k`, every lower group corrected, group `k` not yet. -/
def stages (fix : Nat → Int → Int) (a v c : Nat) : Nat → Int
  | 0 => (nibbleGroup 0 a + nibbleGroup 0 v + c : Nat)
  | k + 1 => (nibbleGroup (k + 1) a + nibbleGroup (k + 1) v : Nat) + fix k (stages fix a v c k)

/-- The number that `n` packed decimal digits encode (42_arithmetic.md R162, `dec`). -/
def ofBcd : Nat → Nat → Nat
  | 0, _ => 0
  | n + 1, v => v % 16 + 10 * ofBcd n (v / 16)

/-- `n` packed decimal digits of a number (42_arithmetic.md R162, `bcd`). -/
def toBcd : Nat → Nat → Nat
  | 0, _ => 0
  | n + 1, k => k % 10 + 16 * toBcd n (k / 10)

/-- Every one of the `n` nibbles is in 0 to 9 (00_scope.md glossary, "valid BCD"). -/
def ValidBcd : Nat → Nat → Prop
  | 0, _ => True
  | n + 1, v => v % 16 ≤ 9 ∧ ValidBcd n (v / 16)

/-! ## Frames of the executor's families -/

/-- An executor command's word: operation code, then `high`, then `low` (30_encoding.md R91). -/
def Encodes (code : BitVec 5) (i : Addr → Addr → Instr) : Prop :=
  ∀ low high, decode (.xcmd (code ++ high ++ low)) = .ok (i low high)

/-- `A` takes `v` at width `w`, its high byte kept at 8 bits, and Z and N are those of `A` at that width
(10_state.md R21, R31). -/
def AccumulatorGets (w : Width) (v : Word) (s t : State) : Prop :=
  lowBits w t.env.regs.a = lowBits w v ∧
    (w = .w8 → t.env.regs.a.extractLsb' 8 8 = s.env.regs.a.extractLsb' 8 8) ∧ t.ZNFrom w t.env.regs.a

/-- The frame of a command that reads its operand: one bus read and nothing stored; only the listed registers and flags
can change. -/
def ReadFrame (g : Gate) (low high : Addr) (regs : List RegName) (flags : List Flag) (s t : State) : Prop :=
  KeepsRegsBut regs s t ∧ KeepsFlagsBut flags s t ∧ KeepsMemory s t ∧
    BusCalls [readEvent (s.width g) low high (s.operand (s.width g) low high)] s t ∧ KeepsController s t ∧
    t.reply = none

/-- The frame of a command that stores `v`: one bus write; no register and no flag changes. -/
def StoreFrame (g : Gate) (low high : Addr) (v : Word) (s t : State) : Prop :=
  KeepsRegsBut [] s t ∧ KeepsFlagsBut [] s t ∧ StoresOnly (s.width g) low high v s t ∧
    BusCalls [writeEvent (s.width g) low high v] s t ∧ KeepsController s t ∧ t.reply = none

/-- The frame of a read-modify-write command that stores `v` (45_rmw.md R200): read, `Idle`, write; only the listed flags
can change. That the argument of `Idle` is false is the spec's own decision D12 (log 24). -/
def RmwFrame (low high : Addr) (v : Word) (flags : List Flag) (s t : State) : Prop :=
  KeepsRegsBut [] s t ∧ KeepsFlagsBut flags s t ∧ StoresOnly (s.width .m) low high v s t ∧
    BusCalls [readEvent (s.width .m) low high (s.operand (s.width .m) low high), .idle false,
      writeEvent (s.width .m) low high v] s t ∧ KeepsController s t ∧ t.reply = none

/-- The outcome of a compare of `reg` with the operand (43_compare_bit.md R170), in the rule's two forms. -/
def Compared (g : Gate) (reg : Word) (low high : Addr) (s t : State) : Prop :=
  let w := s.width g
  let a := lowBits w reg
  let m := (s.operand w low high).toNat
  let r := a + (2 ^ w.bits - 1 - m) + 1
  (t.flag .c = true ↔ 2 ^ w.bits ≤ r) ∧ t.ZNFrom w (BitVec.ofNat 16 r) ∧
    (t.flag .c = true ↔ m ≤ a) ∧ (t.flag .z = true ↔ a = m) ∧ t.flag .n = signBit w ((a : Int) - m) ∧
    ReadFrame g low high [] [.n, .z, .c] s t

/-- The result of ADC or SBC: `r` is the sum V is taken from, `final` the one the carry and the result are taken from, and
`a` and `v` are what enters the accumulation (42_arithmetic.md R152, R153). -/
def Accumulates (a v : Nat) (r final : Int) (low high : Addr) (s t : State) : Prop :=
  let w := s.width .m
  (lowBits w t.env.regs.a : Int) = final % 2 ^ w.bits ∧
    (w = .w8 → t.env.regs.a.extractLsb' 8 8 = s.env.regs.a.extractLsb' 8 8) ∧
    (t.flag .c = true ↔ 2 ^ w.bits ≤ final) ∧ (t.flag .v = true ↔ Overflows w a v r) ∧ t.ZNFrom w t.env.regs.a ∧
    ReadFrame .m low high [.a] [.n, .v, .z, .c] s t

/-- `{P.C, m}`: the carry above the operand (45_rmw.md R208). -/
def State.carryAbove (s : State) (w : Width) (low high : Addr) : Nat :=
  (s.flag .c).toNat * 2 ^ w.bits + (s.operand w low high).toNat

/-! ## Instructions by kind, and states that differ in one place -/

/-- A step command (30_encoding.md R94). -/
def IsStep (i : Instr) : Prop := ∃ max, i = .stepInto max ∨ i = .stepOver max ∨ i = .stepOut max

/-- A state with one register written. -/
def State.setReg (w : RegWrite) (s : State) : State := { s with env := s.env.mapRegs (RegFile.write w) }

/-- A state with `P.I` written. -/
def State.setI (b : Bool) (s : State) : State := { s with env := s.env.mapRegs (RegFile.setFlag .i b) }

/-- A state with the high byte of `A` replaced. -/
def State.setAHigh (h : Byte) (s : State) : State :=
  { s with env := s.env.mapRegs fun r => { r with a := h ++ r.a.extractLsb' 0 8 } }

/-- A state with its two observations replaced: `TRACE` (10_state.md R39) and the record of contract calls (log 12). -/
def State.setObserved (tr : List BusEvent) (cs : List ContractCall) (s : State) : State :=
  { s with env := { s.env with trace := tr }, calls := cs }

/-! ## The classifier's answers -/

/-- The bank and the offset of a combined address (10_state.md R25). -/
def combine (bank offset : Nat) : Addr := BitVec.ofNat 32 (bank * 65536 + offset)

/-- A query answered with `c`, after reading exactly the listed addresses; nothing of the block changes
(46_classifier.md R230). -/
def Answered (c : Classification) (reads : List Addr) (s t : State) : Prop :=
  t.reply = some (.classified c) ∧ t.env = s.env ∧ t.callStack = s.callStack ∧ t.cfgReader = s.cfgReader ∧
    t.cfgStepper = s.cfgStepper ∧ t.cfgPc = s.cfgPc ∧ t.inbox = s.inbox ∧ t.queryPc = s.queryPc ∧
    t.calls = s.calls ++ reads.map fun a => .reader a (s.reader a)

/-- The outputs for an opcode that is no call: the two addresses are not defined (46_classifier.md R235, R236). -/
def plainOutputs (isReturn isBranch : Bool) (size : Nat) : Classification :=
  { isCall := false, isReturn := isReturn, isBranch := isBranch, size := size, returnAddress := none, callTarget := none }

/-! ## The Step Controller -/

/-- All three contracts are configured (47_step_controller.md R284). -/
abbrev Configured (s : State) : Prop := s.cfgReader = true ∧ s.cfgStepper = true ∧ s.cfgPc = true

/-- What no step command changes. -/
def KeepsSettings (s t : State) : Prop :=
  t.cfgReader = s.cfgReader ∧ t.cfgStepper = s.cfgStepper ∧ t.cfgPc = s.cfgPc ∧ t.inbox = s.inbox ∧ t.queryPc = s.queryPc

/-- The fields of a StepResult (10_state.md R37) but its message, which is a function of the status (60_exceptions.md
R322). -/
def IsResult (r : StepResult) (success : Bool) (newPc : Addr) (n : Nat) (status : Status)
    (call ret : Option CallStackEntry) : Prop :=
  r.success = success ∧ r.newPc = newPc ∧ r.instructionsExecuted = BitVec.ofNat 32 n ∧ r.status = status ∧
    r.call = call ∧ r.ret = ret

/-- The opcode byte at the current PC. -/
def State.opcode (s : State) : Byte := s.byte s.pcGetter.toNat

end Sys2Proof.Machine
end

