-- ==== Sys2Proof/Certificates/Slice0/Obligations.lean ====
section
/-! DEFINITION. The statements for the provers. Each formalises the rules of spec/ that OBLIGATIONS.json cites for it.
Every executor statement is a completion statement: its conclusion is that exec answers a next state, and it gives the
frame of that state. -/

open Sys2Proof Sys2Proof.Machine

/-! ## Encoding -/

/-- Decoding an encoded instruction gives it back, for every instruction and every operand (30_encoding.md R91 to R97).
The formats and codes are the spec's own decisions D2, D3, D20. -/
def Obligations.DecodeEncode : Prop := ∀ i : Instr, decode (encode i) = .ok i

/-- Encoding what the decoder read gives the word back: whole for XCMD and SCMD words; for a 65816 instruction the bytes
that were read, which stand at the front (30_encoding.md R91, R94, R95). The formats and codes are the spec's own
decisions D2, D3, D20. -/
def Obligations.EncodeDecode : Prop :=
  (∀ w i, decode (.xcmd w) = .ok i → encode i = .xcmd w) ∧
    (∀ w i, decode (.scmd w) = .ok i → encode i = .scmd w) ∧
    ∀ bytes i, decode (.opc8 bytes) = .ok i → ∃ front, encode i = .opc8 front ∧ front <+: bytes

/-- Words written out from the formats of 30_encoding.md R91, R94, R95 and the codes of R92, R94, R97 decode to the
instructions they stand for. The formats and codes are the spec's own decisions D2, D3, D20. -/
def Obligations.WrittenOutWordsDecode : Prop :=
  decode (.xcmd 0x03007E0011007E0010#69) = .ok (.adc 0x7E0010 0x7E0011) ∧
    decode (.xcmd 0x0C007E0000007E00FF#69) = .ok (.sta 0x7E00FF 0x7E0000) ∧
    decode (.xcmd 0x17FFFFFFFF00000001#69) = .ok (.trb 0x00000001 0xFFFFFFFF) ∧
    decode (.scmd 0x10000000A#34) = .ok (.stepOver 10) ∧
    decode (.opc8 [0x20, 0x10, 0x00]) = .ok (.jsrAbs 0x0010) ∧
    decode (.opc8 [0x22, 0x00, 0x80, 0x7E]) = .ok (.jslLong 0x7E8000) ∧
    decode (.opc8 [0x82, 0xFD, 0xFF]) = .ok (.brlRel16 0xFFFD)

/-- Reserved codes are refused by name and given no meaning (30_encoding.md R93, R94); no opcode byte is refused: every
classifier query is answered (R98, R100). What a model does with a reserved code is the spec's own decision D4. -/
def Obligations.ReservedCodesAreRefused : Prop :=
  (∀ s w rest, s.inbox = .xcmd w :: rest → 0x18 ≤ (w.extractLsb' 64 5).toNat →
      step s = .refused (.reservedCode (.reservedXcmd (w.extractLsb' 64 5)))) ∧
    (∀ s w rest, s.inbox = .scmd w :: rest → w.extractLsb' 32 2 = 3#2 → step s = .refused (.reservedCode .reservedScmd)) ∧
    ∀ s pc op rest, s.inbox = .query pc op :: rest → ∃ t, step s = .next t ∧ t.env = s.env ∧ t.callStack = s.callStack

/-! ## The step -/

/-- A step runs the instruction that the command word at the head of the inbox decodes to, and a query runs the
instruction of its opcode byte and the bytes memory holds after it (logs 10, 14). -/
def Obligations.StepRunsTheDecodedInstruction : Prop :=
  (∀ s w rest i, s.inbox = .xcmd w :: rest → decode (.xcmd w) = .ok i → step s = exec i { s with inbox := rest }) ∧
    (∀ s w rest i, s.inbox = .scmd w :: rest → decode (.scmd w) = .ok i → step s = exec i { s with inbox := rest }) ∧
    ∀ s pc op rest i, s.inbox = .query pc op :: rest →
      decode (.opc8 [op, s.reader (pc + 1), s.reader (pc + 2), s.reader (pc + 3)]) = .ok i →
      step s = exec i { s with inbox := rest, queryPc := pc }

/-- A table word placed with withFetchWord is what the very next step runs, on the same registers and call stack
(log 21). -/
def Obligations.PlacedWordRunsNext : Prop :=
  ∀ (s : State) (nbits w : Nat) (i : Instr), s.Inv → decodeTableWord nbits w = some i →
    ∃ u, step (s.withFetchWord nbits w) = exec i u ∧ u.env.regs = s.env.regs ∧ u.env.trace = s.env.trace ∧
      u.callStack = s.callStack ∧ u.inbox = s.inbox ∧ (32 < nbits → u = s)

/-- With no request pending a step changes nothing; the host's transactions do what they say and nothing else
(00_scope.md R10(d); 10_state.md R38). The inbox, and what an empty one does, are the model's choice (log 10), and so is
that the host's accesses to memory are not in `TRACE` (log 15). Configure is the spec's own decision D32. -/
def Obligations.HostTransactions : Prop :=
  (∀ s : State, s.inbox = [] → step s = .next s) ∧
    (∀ s which present rest, s.inbox = .configure which present :: rest →
      ∃ t, step s = .next t ∧ t.env = s.env ∧ t.callStack = s.callStack ∧ t.inbox = rest ∧ t.calls = s.calls ∧
        t.queryPc = s.queryPc ∧ t.freeCount = s.freeCount ∧ t.reply = none ∧
        t.cfgReader = (if which = .reader then present else s.cfgReader) ∧
        t.cfgStepper = (if which = .stepper then present else s.cfgStepper) ∧
        t.cfgPc = (if which = .pcGetter then present else s.cfgPc)) ∧
    (∀ s n rest, s.inbox = .readReg n :: rest →
      step s = .next { s with inbox := rest, reply := some (.register (s.env.regs.read n)) }) ∧
    (∀ s w rest, s.inbox = .writeReg w :: rest →
      ∃ t, step s = .next t ∧ t.env.mem = s.env.mem ∧ t.env.trace = s.env.trace ∧
        KeepsController { s with inbox := rest } t ∧ t.reply = none ∧
        t.env.regs = match w with
          | .a v => { s.env.regs with a := v }
          | .x v => { s.env.regs with x := v }
          | .y v => { s.env.regs with y := v }
          | .d v => { s.env.regs with d := v }
          | .sp v => { s.env.regs with sp := v }
          | .pc v => { s.env.regs with pc := v }
          | .pb v => { s.env.regs with pb := v }
          | .dbr v => { s.env.regs with dbr := v }
          | .p v => { s.env.regs with p := v }
          | .e v => { s.env.regs with e := v }) ∧
    (∀ s a rest, s.inbox = .readMem a :: rest →
      step s = .next { s with inbox := rest, reply := some (.byte (s.byte a.toNat)) }) ∧
    ∀ s a v rest, s.Inv → s.inbox = .writeMem a v :: rest →
      ∃ t, step s = .next t ∧ t.env.regs = s.env.regs ∧ t.env.trace = s.env.trace ∧
        KeepsController { s with inbox := rest } t ∧ t.reply = none ∧ t.byte a.toNat = v ∧ ∀ b, b ≠ a.toNat → t.byte b = s.byte b

/-- The operations of the Register File's public contract (40_regfile_flags.md R121 to R129), as transactions: what each
returns, the flags it writes, and that it touches nothing else. That the width queries read P.M and P.X only is the
spec's own decision D6; offering them as requests is log 10. -/
def Obligations.FlagOperations : Prop :=
  ∀ s op rest, s.inbox = .flagOp op :: rest →
    ∃ t, step s = .next t ∧ KeepsRegsBut [] s t ∧ KeepsMemory s t ∧ t.env.trace = s.env.trace ∧
      KeepsController { s with inbox := rest } t ∧
      match op with
      | .getAccumulatorSize => t.reply = some (.flag (s.flag .m)) ∧ KeepsFlagsBut [] s t
      | .getIndexSize => t.reply = some (.flag (s.flag .x)) ∧ KeepsFlagsBut [] s t
      | .getCarryFlag => t.reply = some (.flag (s.flag .c)) ∧ KeepsFlagsBut [] s t
      | .getDecimalFlag => t.reply = some (.flag (s.flag .d)) ∧ KeepsFlagsBut [] s t
      | .setZN v w =>
        t.reply = none ∧ t.ZNFrom w v ∧ KeepsFlagsBut [.z, .n] s t ∧ ¬(t.flag .z = true ∧ t.flag .n = true)
      | .setCarryFlag b => t.reply = none ∧ t.flag .c = b ∧ KeepsFlagsBut [.c] s t
      | .setOverflowFlag b => t.reply = none ∧ t.flag .v = b ∧ KeepsFlagsBut [.v] s t
      | .setNegativeFlag b => t.reply = none ∧ t.flag .n = b ∧ KeepsFlagsBut [.n] s t
      | .setZeroFlag b => t.reply = none ∧ t.flag .z = b ∧ KeepsFlagsBut [.z] s t

/-! ## The executor's operations -/

/-- AND, EOR and ORA (41_logic.md R140 to R143). -/
def Obligations.LogicResult : Prop :=
  Encodes 0x00 Instr.and ∧ Encodes 0x01 Instr.eor ∧ Encodes 0x02 Instr.ora ∧
    ∀ (s : State) (low high : Addr), AddressesOk (s.width .m) low high →
      let a := s.env.regs.a
      let v := s.operand (s.width .m) low high
      (∃ t, exec (.and low high) s = .next t ∧ AccumulatorGets (s.width .m) (a &&& v) s t ∧
        ReadFrame .m low high [.a] [.n, .z] s t) ∧
      (∃ t, exec (.eor low high) s = .next t ∧ AccumulatorGets (s.width .m) (a ^^^ v) s t ∧
        ReadFrame .m low high [.a] [.n, .z] s t) ∧
      ∃ t, exec (.ora low high) s = .next t ∧ AccumulatorGets (s.width .m) (a ||| v) s t ∧
        ReadFrame .m low high [.a] [.n, .z] s t

/-- ADC and SBC in binary mode obey the integer laws of 42_arithmetic.md R161. The spec marks R161 as derived from R151
to R153; V of SBC rests on its decision D15. -/
def Obligations.BinaryArithmeticLaws : Prop :=
  ∀ (s : State) (low high : Addr), AddressesOk (s.width .m) low high → s.flag .d = false →
    let w := s.width .m
    let a := lowBits w s.env.regs.a
    let m := (s.operand w low high).toNat
    let c := (s.flag .c).toNat
    (∃ t, exec (.adc low high) s = .next t ∧
      Accumulates a m (a + m + c : Nat) (a + m + c : Nat) low high s t ∧
      lowBits w t.env.regs.a = (a + m + c) % 2 ^ w.bits ∧ (t.flag .c = true ↔ 2 ^ w.bits ≤ a + m + c) ∧
      (t.flag .v = true ↔ ¬SignedFits w (signed w a + signed w m + c))) ∧
    ∃ t, exec (.sbc low high) s = .next t ∧
      Accumulates a (2 ^ w.bits - 1 - m) (a + (2 ^ w.bits - 1 - m) + c : Nat) (a + (2 ^ w.bits - 1 - m) + c : Nat)
        low high s t ∧
      (lowBits w t.env.regs.a : Int) = ((a : Int) - m - (1 - c)) % 2 ^ w.bits ∧
      (t.flag .c = true ↔ 0 ≤ (a : Int) - m - (1 - c)) ∧
      (t.flag .v = true ↔ ¬SignedFits w (signed w a - signed w m - (1 - c)))

/-- ADC in either mode, on every operand (42_arithmetic.md R150 to R157): decimal accumulation goes nibble group by
nibble group, V comes from the sum before the last correction, the carry and the result from the sum after it. The
decimal stages, V and the carry are the spec's own decisions D13, D14 and D16 (log 17). -/
def Obligations.AdcAccumulation : Prop :=
  Encodes 0x03 Instr.adc ∧
    ∀ (s : State) (low high : Addr), AddressesOk (s.width .m) low high →
      let w := s.width .m
      let last := digits w - 1
      let a := lowBits w s.env.regs.a
      let m := (s.operand w low high).toNat
      let c := (s.flag .c).toNat
      let r : Int := if s.flag .d then stages adcFix a m c last else (a + m + c : Nat)
      ∃ t, exec (.adc low high) s = .next t ∧
        Accumulates a m r (if s.flag .d = true ∧ 10 * 16 ^ last ≤ r then r + 6 * 16 ^ last else r) low high s t

/-- SBC in either mode, on every operand (42_arithmetic.md R150 to R153, R158 to R160): the operand is complemented
before the same accumulation. V and the decimal stages are the spec's own decisions D13 to D16 (log 17). -/
def Obligations.SbcAccumulation : Prop :=
  Encodes 0x04 Instr.sbc ∧
    ∀ (s : State) (low high : Addr), AddressesOk (s.width .m) low high →
      let w := s.width .m
      let last := digits w - 1
      let a := lowBits w s.env.regs.a
      let v := 2 ^ w.bits - 1 - (s.operand w low high).toNat
      let c := (s.flag .c).toNat
      let r : Int := if s.flag .d then stages sbcFix a v c last else (a + v + c : Nat)
      ∃ t, exec (.sbc low high) s = .next t ∧
        Accumulates a v r (if s.flag .d then sbcFix last r else r) low high s t

/-- The decimal laws (42_arithmetic.md R162): on valid BCD, ADC and SBC add and subtract the numbers encoded, and the
carry is the decimal one; V is that of the accumulation and carries no decimal meaning. The spec marks R162 as derived;
V rests on its decisions D14 and D15. -/
def Obligations.DecimalLaws : Prop :=
  ∀ (s : State) (low high : Addr), AddressesOk (s.width .m) low high → s.flag .d = true →
    let w := s.width .m
    let n := digits w
    let a := lowBits w s.env.regs.a
    let m := (s.operand w low high).toNat
    let c := (s.flag .c).toNat
    ValidBcd n a → ValidBcd n m →
      (∃ t, exec (.adc low high) s = .next t ∧
        lowBits w t.env.regs.a = toBcd n ((ofBcd n a + ofBcd n m + c) % 10 ^ n) ∧
        (t.flag .c = true ↔ 10 ^ n ≤ ofBcd n a + ofBcd n m + c) ∧ t.ZNFrom w t.env.regs.a ∧
        (t.flag .v = true ↔ Overflows w a m (stages adcFix a m c (n - 1)))) ∧
      ∃ t, exec (.sbc low high) s = .next t ∧
        lowBits w t.env.regs.a = toBcd n (((ofBcd n a : Int) - ofBcd n m - (1 - c)) % 10 ^ n).toNat ∧
        (t.flag .c = true ↔ 0 ≤ (ofBcd n a : Int) - ofBcd n m - (1 - c)) ∧ t.ZNFrom w t.env.regs.a ∧
        (t.flag .v = true ↔
          Overflows w a (2 ^ w.bits - 1 - m) (stages sbcFix a (2 ^ w.bits - 1 - m) c (n - 1)))

/-- CMP, CPX and CPY (43_compare_bit.md R170 to R173): `reg + ~operand + 1`, that is, C is "no borrow", Z is equality,
and N is the sign of the difference; no register changes. The comparisons with the operand and the sign of the
difference are the "Equivalent statement" that R170 marks as derived. -/
def Obligations.CompareResult : Prop :=
  Encodes 0x05 Instr.cmp ∧ Encodes 0x06 Instr.cpx ∧ Encodes 0x07 Instr.cpy ∧
    ∀ (s : State) (low high : Addr),
      (AddressesOk (s.width .m) low high →
        ∃ t, exec (.cmp low high) s = .next t ∧ Compared .m s.env.regs.a low high s t) ∧
      (AddressesOk (s.width .x) low high →
        (∃ t, exec (.cpx low high) s = .next t ∧ Compared .x s.env.regs.x low high s t) ∧
        ∃ t, exec (.cpy low high) s = .next t ∧ Compared .x s.env.regs.y low high s t)

/-- BIT (43_compare_bit.md R174): Z from `A & operand`, N and V from the operand's two top bits at the selected width. V
from bit 14 at 16 bits is the spec's own decision D17. -/
def Obligations.BitTestResult : Prop :=
  Encodes 0x08 Instr.bit ∧
    ∀ (s : State) (low high : Addr), AddressesOk (s.width .m) low high →
      let w := s.width .m
      let m := s.operand w low high
      ∃ t, exec (.bit low high) s = .next t ∧ (t.flag .z = true ↔ lowBits w (s.env.regs.a &&& m) = 0) ∧
        t.flag .n = m.getLsbD (w.bits - 1) ∧ t.flag .v = m.getLsbD (w.bits - 2) ∧
        ReadFrame .m low high [] [.n, .v, .z] s t

/-- LDA, LDX and LDY (44_load_store.md R181 to R183): LDA keeps the high byte of `A` at 8 bits, LDX and LDY write the
zero-extended value. The zero high byte of X and Y at 8 bits is the spec's own decision D7. -/
def Obligations.LoadResult : Prop :=
  Encodes 0x09 Instr.lda ∧ Encodes 0x0A Instr.ldx ∧ Encodes 0x0B Instr.ldy ∧
    ∀ (s : State) (low high : Addr),
      (AddressesOk (s.width .m) low high →
        ∃ t, exec (.lda low high) s = .next t ∧
          AccumulatorGets (s.width .m) (s.operand (s.width .m) low high) s t ∧
          ReadFrame .m low high [.a] [.n, .z] s t) ∧
      (AddressesOk (s.width .x) low high →
        let v := s.operand (s.width .x) low high
        (∃ t, exec (.ldx low high) s = .next t ∧ t.env.regs.x = v ∧ t.ZNFrom (s.width .x) v ∧
          ReadFrame .x low high [.x] [.n, .z] s t) ∧
        ∃ t, exec (.ldy low high) s = .next t ∧ t.env.regs.y = v ∧ t.ZNFrom (s.width .x) v ∧
          ReadFrame .x low high [.y] [.n, .z] s t)

/-- STA, STX, STY and STZ (44_load_store.md R184 to R187): the value at the selected width goes to the pair, every other
byte of memory and every register and flag is as before, and the only bus call is the write. The width gate of STZ is
the spec's own decision D18. -/
def Obligations.StoreResult : Prop :=
  Encodes 0x0C Instr.sta ∧ Encodes 0x0D Instr.stx ∧ Encodes 0x0E Instr.sty ∧ Encodes 0x0F Instr.stz ∧
    ∀ (s : State) (low high : Addr), s.Inv →
      (AddressesOk (s.width .m) low high →
        (∃ t, exec (.sta low high) s = .next t ∧ StoreFrame .m low high s.env.regs.a s t) ∧
        ∃ t, exec (.stz low high) s = .next t ∧ StoreFrame .m low high 0 s t) ∧
      (AddressesOk (s.width .x) low high →
        (∃ t, exec (.stx low high) s = .next t ∧ StoreFrame .x low high s.env.regs.x s t) ∧
        ∃ t, exec (.sty low high) s = .next t ∧ StoreFrame .x low high s.env.regs.y s t)

/-- ASL and LSR (45_rmw.md R202, R204). The width gate, the function and the flags are the spec's own decisions D18 and
D19, from general knowledge (log 18). The argument of Idle is its decision D12 (log 24). -/
def Obligations.ShiftResult : Prop :=
  Encodes 0x10 Instr.asl ∧ Encodes 0x12 Instr.lsr ∧
    ∀ (s : State) (low high : Addr), s.Inv → AddressesOk (s.width .m) low high →
      let w := s.width .m
      let m := (s.operand w low high).toNat
      (∃ t, exec (.asl low high) s = .next t ∧
        let res := BitVec.ofNat 16 (2 * m % 2 ^ w.bits)
        (t.flag .c = true ↔ 2 ^ (w.bits - 1) ≤ m) ∧ t.ZNFrom w res ∧ RmwFrame low high res [.n, .z, .c] s t) ∧
      ∃ t, exec (.lsr low high) s = .next t ∧
        let res := BitVec.ofNat 16 (m / 2)
        (t.flag .c = true ↔ m % 2 = 1) ∧ t.flag .n = false ∧ t.ZNFrom w res ∧ RmwFrame low high res [.n, .z, .c] s t

/-- ROL and ROR (45_rmw.md R203, R205). The width gate, the function and the flags are the spec's own decisions D18 and
D19, from general knowledge (log 18). The argument of Idle is its decision D12 (log 24). -/
def Obligations.RotateResult : Prop :=
  Encodes 0x11 Instr.rol ∧ Encodes 0x13 Instr.ror ∧
    ∀ (s : State) (low high : Addr), s.Inv → AddressesOk (s.width .m) low high →
      let w := s.width .m
      let m := (s.operand w low high).toNat
      let c := (s.flag .c).toNat
      (∃ t, exec (.rol low high) s = .next t ∧
        let res := BitVec.ofNat 16 ((2 * m + c) % 2 ^ w.bits)
        (t.flag .c = true ↔ 2 ^ (w.bits - 1) ≤ m) ∧ t.ZNFrom w res ∧ RmwFrame low high res [.n, .z, .c] s t) ∧
      ∃ t, exec (.ror low high) s = .next t ∧
        let res := BitVec.ofNat 16 (m / 2 + c * 2 ^ (w.bits - 1))
        (t.flag .c = true ↔ m % 2 = 1) ∧ t.flag .n = s.flag .c ∧ t.ZNFrom w res ∧
          RmwFrame low high res [.n, .z, .c] s t

/-- The shift and rotate laws (45_rmw.md R208): one bit position; the bit that leaves goes to C; ROL and ROR rotate
`{P.C, m}`, and ROR after ROL gives it back. The width gate, the function and the flags are the spec's own decisions D18
and D19, from general knowledge (log 18). -/
def Obligations.ShiftRotateLaws : Prop :=
  ∀ (s : State) (low high : Addr), s.Inv → AddressesOk (s.width .m) low high →
    let w := s.width .m
    let m := (s.operand w low high).toNat
    (∃ t, exec (.asl low high) s = .next t ∧ t.carryAbove w low high = 2 * m) ∧
    (∃ t, exec (.lsr low high) s = .next t ∧ m = 2 * (t.operand w low high).toNat + (t.flag .c).toNat) ∧
    (∃ t, exec (.rol low high) s = .next t ∧
      t.carryAbove w low high = 2 * s.carryAbove w low high % 2 ^ (w.bits + 1) + (s.flag .c).toNat ∧
      ∃ u, exec (.ror low high) t = .next u ∧ u.carryAbove w low high = s.carryAbove w low high) ∧
    ∃ t, exec (.ror low high) s = .next t ∧
      s.carryAbove w low high = 2 * t.carryAbove w low high % 2 ^ (w.bits + 1) + (t.flag .c).toNat

/-- INC and DEC (45_rmw.md R206, R207): modulo the width, C and V untouched. The width gate, the function and the flags
are the spec's own decisions D18 and D19, from general knowledge (log 18). The argument of Idle is its decision D12 (log
24). -/
def Obligations.IncrementResult : Prop :=
  Encodes 0x14 Instr.inc ∧ Encodes 0x15 Instr.dec ∧
    ∀ (s : State) (low high : Addr), s.Inv → AddressesOk (s.width .m) low high →
      let w := s.width .m
      let m := (s.operand w low high).toNat
      (∃ t, exec (.inc low high) s = .next t ∧
        let res := BitVec.ofNat 16 ((m + 1) % 2 ^ w.bits)
        t.ZNFrom w res ∧ RmwFrame low high res [.n, .z] s t) ∧
      ∃ t, exec (.dec low high) s = .next t ∧
        let res := BitVec.ofInt 16 (((m : Int) - 1) % 2 ^ w.bits)
        t.ZNFrom w res ∧ RmwFrame low high res [.n, .z] s t

/-- TSB and TRB (45_rmw.md R209 to R211): Z is tested on the operand as read; `A` at the selected width sets or clears
its bits in memory; only Z changes. The width gate, the function and the flags are the spec's own decisions D18 and D19,
from general knowledge (log 18). The argument of Idle is its decision D12 (log 24). -/
def Obligations.TestAndSetResult : Prop :=
  Encodes 0x16 Instr.tsb ∧ Encodes 0x17 Instr.trb ∧
    ∀ (s : State) (low high : Addr), s.Inv → AddressesOk (s.width .m) low high →
      let w := s.width .m
      let a := BitVec.ofNat 16 (lowBits w s.env.regs.a)
      let m := s.operand w low high
      (∃ t, exec (.tsb low high) s = .next t ∧ (t.flag .z = true ↔ a &&& m = 0) ∧
        RmwFrame low high (m ||| a) [.z] s t) ∧
      ∃ t, exec (.trb low high) s = .next t ∧ (t.flag .z = true ↔ a &&& m = 0) ∧
        RmwFrame low high (m &&& ~~~a) [.z] s t

/-- The bus calls of an executor command (20_memory.md R69; 70_reset_and_hazards.md R362): one access per read and
write, and `Idle` exactly once, between them, in the read-modify-write operations only. The width gate of STZ and of the
read-modify-write family is the spec's own decision D18, the argument of Idle its D12 (log 24). -/
def Obligations.BusCallsPerOperation : Prop :=
  ∀ (op : ExecOp) (s : State) (low high : Addr), AddressesOk (s.width (gateOf op)) low high →
    ∃ t v, exec (op.toInstr low high) s = .next t ∧
      let w := s.width (gateOf op)
      let rd := readEvent w low high (s.operand w low high)
      BusCalls
        (match op with
          | .and | .eor | .ora | .adc | .sbc | .cmp | .cpx | .cpy | .bit | .lda | .ldx | .ldy => [rd]
          | .sta | .stx | .sty | .stz => [writeEvent w low high v]
          | .asl | .rol | .lsr | .ror | .inc | .dec | .tsb | .trb => [rd, .idle false, writeEvent w low high v]) s t

/-- The write set (10_state.md R33): an executor command never writes D, SP, PC, PB, DBR, E or the flags M, X, D, I; the
classifier writes nothing; the Step Controller changes the environment only by its Stepper's calls. -/
def Obligations.WriteSet : Prop :=
  (∀ (i : Instr) (s t : State), exec i s = .next t →
    (¬IsStep i → KeepsRegsBut [.a, .x, .y] s t ∧ KeepsFlagsBut [.n, .v, .z, .c] s t ∧ t.callStack = s.callStack ∧
      KeepsSettings s t) ∧
    (i.ea = none → ¬IsStep i → t.env = s.env) ∧
    (IsStep i → KeepsSettings s t ∧
      ∃ k, t.env = (stepIntos Config.stepper k s).env ∧ t.callStack = (stepIntos Config.stepper k s).callStack)) ∧
  ∀ (stp : Stepper) (s : State), (stepInto stp s).2.env =
    if Configured s then runActions (stp s.freeCount s.env.regs s.env.mem) s.env else s.env

/-- The rules of the block preserve the environment invariants (10_state.md R32): an executor command or a classifier
query from a state that meets them ends in one that does. The invariants are the spec's own decisions D6 and D7. -/
def Obligations.LaunchPremisesKept : Prop :=
  ∀ (i : Instr) (s t : State), ¬IsStep i → s.env.regs.LaunchOk → exec i s = .next t → t.env.regs.LaunchOk

/-- A step command keeps the environment invariants if its Stepper does (10_state.md R32; 47_step_controller.md R283),
whatever the Stepper and the budget. The invariants are the spec's own decisions D6 and D7. -/
def Obligations.StepCommandsKeepLaunchPremises : Prop :=
  ∀ (stp : Stepper) (max : BitVec 32) (s : State), KeepsLaunch stp → s.env.regs.LaunchOk →
    (stepInto stp s).2.env.regs.LaunchOk ∧ (stepOver stp max s).2.env.regs.LaunchOk ∧
      (stepOut stp max s).2.env.regs.LaunchOk

/-- A malformed effective address is refused and given no meaning (20_memory.md R71): an address past bit 23, or equal
addresses in a 16-bit operation. At 8 bits only `low` is looked at (log 9). The cases are the spec's own decision D9. -/
def Obligations.MalformedAddressesAreRefused : Prop :=
  ∀ (op : ExecOp) (s : State) (low high : Addr),
    (16777216 ≤ low.toNat → exec (op.toInstr low high) s = .refused .malformedAddress) ∧
    (s.width (gateOf op) = .w16 → 16777216 ≤ high.toNat ∨ low = high →
      exec (op.toInstr low high) s = .refused .malformedAddress)

/-- In an 8-bit operation `ea.high` is not consulted (40_regfile_flags.md R131, R132; 30_encoding.md R91): the outcome
does not depend on it. That a malformed `high` does not matter at 8 bits is DEDUCED (log 9). -/
def Obligations.EightBitIgnoresHigh : Prop :=
  ∀ (op : ExecOp) (s : State) (low high high' : Addr), s.width (gateOf op) = .w8 →
    exec (op.toInstr low high) s = exec (op.toInstr low high') s

/-- In 8-bit mode the high byte of `A` takes no part in an executor command, and is preserved (10_state.md R21): replacing
it before the command and after the command is the same. -/
def Obligations.EightBitIgnoresHighByteOfA : Prop :=
  ∀ (op : ExecOp) (s t : State) (low high : Addr) (h : Byte), s.flag .m = true →
    exec (op.toInstr low high) s = .next t → exec (op.toInstr low high) (s.setAHigh h) = .next (t.setAHigh h)

/-- No executor command and no classifier query reads D, SP, PC, PB, DBR, E or `P.I` (10_state.md R20, R23 to R29):
writing one of them before the command and after the command is the same. That E is not read is the spec's own decision
D6, that D, SP and DBR are storage its D8. -/
def Obligations.UnreadRegistersDoNotMatter : Prop :=
  ∀ (i : Instr) (s t : State), ¬IsStep i → exec i s = .next t →
    (∀ v, exec i (s.setReg (.d v)) = .next (t.setReg (.d v)) ∧ exec i (s.setReg (.sp v)) = .next (t.setReg (.sp v)) ∧
      exec i (s.setReg (.pc v)) = .next (t.setReg (.pc v))) ∧
    (∀ v, exec i (s.setReg (.pb v)) = .next (t.setReg (.pb v)) ∧ exec i (s.setReg (.dbr v)) = .next (t.setReg (.dbr v))) ∧
    ∀ b, exec i (s.setReg (.e b)) = .next (t.setReg (.e b)) ∧ exec i (s.setI b) = .next (t.setI b)

/-- No instruction reads `TRACE` (10_state.md R39) or the record of contract calls (the model's own, log 12): with both
replaced beforehand, the outcome is the same but for what stands before the new entries. TRACE is the spec's own
decision D35. -/
def Obligations.ObservationsAreNotRead : Prop :=
  ∀ (i : Instr) (s t : State) (tr : List BusEvent) (cs : List ContractCall), exec i s = .next t →
    ∃ newTr newCs, t.env.trace = s.env.trace ++ newTr ∧ t.calls = s.calls ++ newCs ∧
      exec i (s.setObserved tr cs) = .next (t.setObserved (tr ++ newTr) (cs ++ newCs))

/-! ## Memory -/

/-- The reference memory (20_memory.md R62, R64, R72): a byte written reads back, every other byte is as before, and the
canonical form is kept. The reference memory is the spec's own decision D10 (log 3). -/
def Obligations.ByteAccess : Prop :=
  ∀ (e : Env) (a : Addr) (v : Byte), memWf e.mem → a.toNat < 16777216 →
    memWf (busWriteByte a v e).mem ∧ (busReadByte a (busWriteByte a v e)).1 = v ∧
      (∀ b : Addr, b ≠ a → (busReadByte b (busWriteByte a v e)).1 = (busReadByte b e).1) ∧
      (busReadByte a e).2.mem = e.mem ∧ (busReadByte a e).2.trace = e.trace ++ [.rd8 a (busReadByte a e).1] ∧
      (busWriteByte a v e).trace = e.trace ++ [.wr8 a v] ∧ (busIdle false e).mem = e.mem ∧
      (busIdle false e).regs = e.regs

/-- Word accesses (20_memory.md R63, R65, R67): the low-order byte at `low`, the high-order byte at `high`, at any two
different addresses; a byte read sees the byte of the word. The reference memory is the spec's own decision D10 (log 3). -/
def Obligations.WordAccess : Prop :=
  ∀ (e : Env) (low high : Addr) (v : Word), memWf e.mem → AddressesOk .w16 low high →
    (busReadWord low high e).1 = (busReadByte high e).1 ++ (busReadByte low e).1 ∧
      (busReadWord low high e).2.trace = e.trace ++ [.rd16 low high (busReadWord low high e).1] ∧
      (busReadWord low high (busWriteWord low high v e)).1 = v ∧
      (busReadByte low (busWriteWord low high v e)).1 = v.extractLsb' 0 8 ∧
      (busReadByte high (busWriteWord low high v e)).1 = v.extractLsb' 8 8 ∧
      (∀ b : Addr, b ≠ low → b ≠ high → (busReadByte b (busWriteWord low high v e)).1 = (busReadByte b e).1) ∧
      (busWriteWord low high v e).trace = e.trace ++ [.wr16 low high v] ∧ memWf (busWriteWord low high v e).mem

/-- `WORD_ORDER` is unobservable on the reference memory (00_scope.md R5; log 4): storing the two bytes in either order
gives the same memory. -/
def Obligations.WordOrderUnobservable : Prop :=
  ∀ (m : Memory) (low high : Addr) (v : Word), memWf m → AddressesOk .w16 low high →
    storeWord .lowFirst m low high v = storeWord .highFirst m low high v

/-- `Reader` is the byte that memory holds at that moment (20_memory.md R80): a store is seen by the next opcode fetch.
What Reader returns is the spec's own decision D33 (log 5). -/
def Obligations.ReaderSeesStores : Prop :=
  (∀ (s : State) (a : Addr), a.toNat < 16777216 → s.reader a = s.byte a.toNat) ∧
    ∀ (s : State) (low high : Addr), s.Inv → AddressesOk (s.width .m) low high →
      ∃ t, exec (.sta low high) s = .next t ∧ t.reader low = s.env.regs.a.extractLsb' 0 8 ∧
        (s.pcGetter = low → t.opcode = s.env.regs.a.extractLsb' 0 8)

/-! ## Invariants and reset -/

/-- The invariant of the machine is kept by every step: memory stays in canonical form and inside the 24-bit space
(20_memory.md R60, R72), and every entry of the call stack has combined addresses and no symbol (10_state.md R35). The
reference memory is the spec's own decision D10, the absent symbol its D25. -/
def Obligations.InvariantKept : Prop := ∀ s t : State, s.Inv → step s = .next t → t.Inv

/-- The invariant holds right after reset. -/
def Obligations.InvariantAtReset : Prop := State.reset.Inv

/-- What the spec gives for reset (10_state.md R42; 70_reset_and_hazards.md R350): the call stack and the trace empty,
nothing configured. The registers it leaves unspecified are not spoken of (log 1). The values are the spec's own
decision D30. -/
def Obligations.ResetState : Prop :=
  State.reset.callStack = [] ∧ State.reset.depth = 0 ∧ State.reset.cfgReader = false ∧ State.reset.cfgStepper = false ∧
    State.reset.cfgPc = false ∧ State.reset.env.trace = []

/-! ## The classifier -/

/-- JSR, JSL and JSR (abs,X) (46_classifier.md R240 to R242): the outputs, the return address and the call target, and
the `Reader` calls in ascending order. The opcode bytes, the wrap and the target are the spec's own decisions D20, D23
and D24; that a query reads memory also while no Reader is configured is log 29. -/
def Obligations.CallsAreClassified : Prop :=
  ∀ (s : State) (a16 : BitVec 16) (a24 : BitVec 24),
    let pc := s.queryPc
    let bank := pc.toNat / 65536 % 256
    let lo := (s.reader (pc + 1)).toNat
    let hi := (s.reader (pc + 2)).toNat
    let bk := (s.reader (pc + 3)).toNat
    decode (.opc8 [0x20, a16.extractLsb' 0 8, a16.extractLsb' 8 8]) = .ok (.jsrAbs a16) ∧
    decode (.opc8 [0x22, a24.extractLsb' 0 8, a24.extractLsb' 8 8, a24.extractLsb' 16 8]) = .ok (.jslLong a24) ∧
    decode (.opc8 [0xFC, a16.extractLsb' 0 8, a16.extractLsb' 8 8]) = .ok (.jsrAbsX a16) ∧
    (∃ t, exec (.jsrAbs a16) s = .next t ∧ Answered
      { isCall := true, isReturn := false, isBranch := false, size := 3,
        returnAddress := some (combine bank ((pc.toNat + 3) % 65536)),
        callTarget := some (combine bank (hi * 256 + lo)) } [pc + 1, pc + 2] s t) ∧
    (∃ t, exec (.jslLong a24) s = .next t ∧ Answered
      { isCall := true, isReturn := false, isBranch := false, size := 4,
        returnAddress := some (BitVec.ofNat 32 ((pc.toNat + 4) % 16777216)),
        callTarget := some (combine bk (hi * 256 + lo)) } [pc + 1, pc + 2, pc + 3] s t) ∧
    ∃ t, exec (.jsrAbsX a16) s = .next t ∧ Answered
      { isCall := true, isReturn := false, isBranch := false, size := 3,
        returnAddress := some (combine bank ((pc.toNat + 3) % 65536)), callTarget := some 0 } [] s t

/-- RTS, RTL and RTI (46_classifier.md R243 to R245): the outputs; and when one is stepped with a non-empty call stack
the top entry is popped, whatever its `is_long`. The opcode bytes are the spec's own decision D20. -/
def Obligations.ReturnsAreClassified : Prop :=
  decode (.opc8 [0x60]) = .ok .rts ∧ decode (.opc8 [0x6B]) = .ok .rtl ∧ decode (.opc8 [0x40]) = .ok .rti ∧
    (∀ s : State,
      (∃ t, exec .rts s = .next t ∧ Answered (plainOutputs true false 1) [] s t) ∧
      (∃ t, exec .rtl s = .next t ∧ Answered (plainOutputs true false 1) [] s t) ∧
      ∃ t, exec .rti s = .next t ∧ Answered (plainOutputs true false 1) [] s t) ∧
    ∀ (s : State) (max : BitVec 32) (below : List CallStackEntry) (top : CallStackEntry), Configured s →
      s.opcode ∈ [0x60, 0x6B, 0x40] → s.callStack = below ++ [top] →
      ∃ t r, exec (.stepInto max) s = .next t ∧ Delivers r t ∧ t.callStack = below ∧ r.ret = some top ∧ r.call = none

/-- The eight conditional branches (46_classifier.md R246 to R253). The opcode bytes are the spec's own decision D20. -/
def Obligations.ConditionalBranchesAreClassified : Prop :=
  ∀ (s : State) (d : BitVec 8),
    let ok := fun (op : Byte) (i : Instr) => decode (.opc8 [op, d]) = .ok i ∧
      ∃ t, exec i s = .next t ∧ Answered (plainOutputs false true 2) [] s t
    ok 0x10 (.bplRel d) ∧ ok 0x30 (.bmiRel d) ∧ ok 0x50 (.bvcRel d) ∧ ok 0x70 (.bvsRel d) ∧ ok 0x90 (.bccRel d) ∧
      ok 0xB0 (.bcsRel d) ∧ ok 0xD0 (.bneRel d) ∧ ok 0xF0 (.beqRel d)

/-- The jumps (46_classifier.md R254 to R258): branches, of size 3, or 4 for the long one; stepping one pushes no entry.
The opcode bytes and the set of jumps are the spec's own decisions D20 and D21. -/
def Obligations.JumpsAreClassified : Prop :=
  (∀ (s : State) (a : BitVec 16) (l : BitVec 24),
    let ok := fun (op : Byte) (i : Instr) =>
      decode (.opc8 [op, a.extractLsb' 0 8, a.extractLsb' 8 8]) = .ok i ∧
        ∃ t, exec i s = .next t ∧ Answered (plainOutputs false true 3) [] s t
    ok 0x4C (.jmpAbs a) ∧ ok 0x6C (.jmpInd a) ∧ ok 0x7C (.jmpIndX a) ∧ ok 0xDC (.jmlInd a) ∧
      decode (.opc8 [0x5C, l.extractLsb' 0 8, l.extractLsb' 8 8, l.extractLsb' 16 8]) = .ok (.jmlLong l) ∧
      ∃ t, exec (.jmlLong l) s = .next t ∧ Answered (plainOutputs false true 4) [] s t) ∧
  ∀ (s : State) (max : BitVec 32), Configured s → s.opcode ∈ [0x4C, 0x5C, 0x6C, 0x7C, 0xDC] →
    ∃ t r, exec (.stepInto max) s = .next t ∧ Delivers r t ∧ t.callStack = s.callStack ∧ r.call = none ∧ r.ret = none

/-- BRA and BRL (46_classifier.md R259, R260), for every value of the open parameters `BRANCH_EXTRA` and `SIZE_OTHER`
(log 16). The parameters are left open by the spec's decisions D21 and D22 (log 16). -/
def Obligations.UnconditionalBranchesAreClassified : Prop :=
  ∀ (s : State) (d : BitVec 8) (l : BitVec 16),
    decode (.opc8 [0x80, d]) = .ok (.braRel d) ∧
    decode (.opc8 [0x82, l.extractLsb' 0 8, l.extractLsb' 8 8]) = .ok (.brlRel16 l) ∧
    (∃ t, exec (.braRel d) s = .next t ∧ Answered (plainOutputs false Config.braIsBranch 2) [] s t) ∧
    ∃ t, exec (.brlRel16 l) s = .next t ∧ Answered (plainOutputs false Config.brlIsBranch (sizeOther 0x82)) [] s t

/-- Every other opcode byte (46_classifier.md R261): no class, size `SIZE_OTHER(op)`, which is 1, 2, 3 or 4; it is
stepped with no call-stack change and no event. The open size is the spec's own decision D22. -/
def Obligations.OtherOpcodesAreUnclassified : Prop :=
  ∀ (op : Byte), op ∉ [0x20, 0x22, 0xFC, 0x60, 0x6B, 0x40, 0x10, 0x30, 0x50, 0x70, 0x90, 0xB0, 0xD0, 0xF0, 0x4C, 0x5C,
      0x6C, 0x7C, 0xDC, 0x80, 0x82] →
    (1 ≤ sizeOther op ∧ sizeOther op ≤ 4) ∧
    (∀ s pc rest, s.inbox = .query pc op :: rest →
      ∃ t, step s = .next t ∧
        Answered (plainOutputs false false (sizeOther op)) [] { s with inbox := rest, queryPc := pc } t) ∧
    ∀ (s : State) (max : BitVec 32), Configured s → s.opcode = op →
      ∃ t r, exec (.stepInto max) s = .next t ∧ Delivers r t ∧ t.callStack = s.callStack ∧ r.success = true ∧
        r.call = none ∧ r.ret = none

/-- The classes are disjoint (46_classifier.md R237), and the three predicates recognise exactly the listed opcodes
(R231 to R233). The spec marks R237 as derived; the opcode bytes are its decisions D20 and D21. -/
def Obligations.ClassesAreDisjoint : Prop :=
  ∀ op : Byte,
    (isCall op = true ↔ op ∈ [0x20, 0x22, 0xFC]) ∧ (isReturn op = true ↔ op ∈ [0x60, 0x6B, 0x40]) ∧
    (isBranch op = true ↔ op ∈ [0x10, 0x30, 0x50, 0x70, 0x90, 0xB0, 0xD0, 0xF0, 0x4C, 0x5C, 0x6C, 0x7C, 0xDC] ∨
      (op = 0x80 ∧ Config.braIsBranch = true) ∨ (op = 0x82 ∧ Config.brlIsBranch = true)) ∧
    ¬(isCall op = true ∧ isReturn op = true) ∧ ¬(isCall op = true ∧ isBranch op = true) ∧
    ¬(isReturn op = true ∧ isBranch op = true)

/-- The two address calculations on a combined PC (46_classifier.md R235, R236; 10_state.md R25): a JSR return address
stays in the bank of the call, a JSL one may carry into the bank byte; every address they give is combined. The edges
and the assembly are the spec's own decisions D23 and D24. -/
def Obligations.CallAddresses : Prop :=
  ∀ (rd : Addr → Byte) (pb : Byte) (offset : BitVec 16),
    let pc := combine pb.toNat offset.toNat
    (∀ op, op = 0x20 ∨ op = 0xFC →
      calculateReturnAddress pc op = combine pb.toNat ((offset.toNat + 3) % 65536)) ∧
    calculateReturnAddress pc 0x22 = BitVec.ofNat 32 ((pb.toNat * 65536 + offset.toNat + 4) % 16777216) ∧
    calculateCallTarget rd pc 0x20 = combine pb.toNat ((rd (pc + 2)).toNat * 256 + (rd (pc + 1)).toNat) ∧
    calculateCallTarget rd pc 0x22 =
      combine (rd (pc + 3)).toNat ((rd (pc + 2)).toNat * 256 + (rd (pc + 1)).toNat) ∧
    calculateCallTarget rd pc 0xFC = 0 ∧
    callTargetReads pc 0x20 = [pc + 1, pc + 2] ∧ callTargetReads pc 0x22 = [pc + 1, pc + 2, pc + 3] ∧
    callTargetReads pc 0xFC = []

/-- The operand that the decoder reads from a call instruction is the one the classifier assembles into the target
(30_encoding.md R95, R96): a query about a JSR or JSL runs it with its operand, and answers with that operand as target.
The assembly of a target is the spec's own decision D24; that a query reads memory also while no Reader is configured is
log 29. -/
def Obligations.TargetIsTheDecodedOperand : Prop :=
  ∀ (s : State) (pc : Addr) (rest : List Request),
    (s.inbox = .query pc 0x20 :: rest →
      ∃ addr u t, fetch s = .run (.jsrAbs addr) u ∧ step s = .next t ∧
        ∃ c, t.reply = some (.classified c) ∧ c.callTarget = some (combine (pc.toNat / 65536 % 256) addr.toNat)) ∧
    (s.inbox = .query pc 0x22 :: rest →
      ∃ addr u t, fetch s = .run (.jslLong addr) u ∧ step s = .next t ∧
        ∃ c, t.reply = some (.classified c) ∧ c.callTarget = some (BitVec.ofNat 32 addr.toNat))

/-! ## The Step Controller -/

/-- An unconfigured controller fails with ERR_CONFIG (60_exceptions.md R323; 47_step_controller.md R284): no contract is
called and nothing changes. The status code and `new_pc = 0` are the spec's own decision D29. -/
def Obligations.UnconfiguredFails : Prop :=
  ∀ (s : State) (i : Instr), IsStep i → ¬Configured s →
    ∃ r, exec i s = .next (s.answer (.stepped r)) ∧ IsResult r false 0 0 .errConfig none none

/-- STEPINTO (47_step_controller.md R285): the result, the push or the pop, exactly one Stepper call, and the contract
calls in order. The order of the contract calls is the spec's own decision D26. -/
def Obligations.StepIntoResult : Prop :=
  ∀ (s : State) (max : BitVec 32), Configured s →
    let pc := s.pcGetter
    let op := s.opcode
    let entry : CallStackEntry :=
      { callAddress := pc, targetAddress := calculateCallTarget s.reader pc op,
        returnAddress := calculateReturnAddress pc op, isLong := op == 0x22, symbol := none }
    ∃ t r, exec (.stepInto max) s = .next t ∧ Delivers r t ∧ KeepsSettings s t ∧
      t.env = runActions (Config.stepper s.freeCount s.env.regs s.env.mem) s.env ∧
      t.calls = s.calls ++ [.pcGetter pc, .reader pc op] ++ (if isCall op then callTargetCalls s pc op else []) ++
        [.stepper, .pcGetter t.pcGetter] ∧
      (isCall op = true →
        IsResult r true t.pcGetter 1 .ok (some entry) none ∧ t.callStack = s.callStack ++ [entry]) ∧
      (∀ below top, isReturn op = true → s.callStack = below ++ [top] →
        IsResult r true t.pcGetter 1 .ok none (some top) ∧ t.callStack = below) ∧
      (isReturn op = true → s.callStack = [] →
        IsResult r true t.pcGetter 1 .ok none none ∧ t.callStack = []) ∧
      (isCall op = false → isReturn op = false →
        IsResult r true t.pcGetter 1 .ok none none ∧ t.callStack = s.callStack)

/-- One StepInto changes the depth by +1 on a call, by -1 on a return with a non-empty stack, and by 0 otherwise
(47_step_controller.md R291), whatever the Stepper. The spec marks R291 as derived from R285. -/
def Obligations.StepIntoDepthChange : Prop :=
  ∀ (stp : Stepper) (s : State), Configured s →
    (stepInto stp s).2.depth =
      if isCall s.opcode then s.depth + 1 else if isReturn s.opcode then s.depth - 1 else s.depth

/-- What STEPOVER on a call ends with (47_step_controller.md R287, R288, R295): a return to the recorded depth within
the budget, or a timeout after exactly the budget, and at least the call. The accounting and the events are the spec's
own decision D27. -/
def Obligations.StepOverOutcomes : Prop :=
  ∀ (s : State) (max : BitVec 32), Configured s → isCall s.opcode = true →
    ∃ t r, exec (.stepOver max) s = .next t ∧ Delivers r t ∧ KeepsSettings s t ∧
      ((∃ n e, 2 ≤ n ∧ n ≤ max.toNat ∧ t.depth = s.depth ∧
        IsResult r true t.pcGetter n .ok (some (callEntry s s.pcGetter s.opcode)) (some e)) ∨
      (s.depth < t.depth ∧
        IsResult r false t.pcGetter (Max.max max.toNat 1) .errTimeout
          (some (callEntry s s.pcGetter s.opcode)) none))

/-- STEPOVER is its StepIntos (47_step_controller.md R287, R293), for every Stepper. Unconfigured it fails; on an opcode
that is no call it is one StepInto; on a call it stops at the first step after which the depth is back at the recorded
one, or at the budget, success first; nothing is rolled back. The accounting is the spec's own decision D27; the record
of contract calls (log 12) is left out of the comparison. -/
def Obligations.StepOverReplaysStepInto : Prop :=
  (∀ (max : BitVec 32) (s : State), exec (.stepOver max) s =
    .next ((stepOver Config.stepper max s).2.answer (.stepped (stepOver Config.stepper max s).1))) ∧
  ∀ (stp : Stepper) (max : BitVec 32) (s : State),
    let q := stepOver stp max s
    (¬Configured s → IsResult q.1 false 0 0 .errConfig none none ∧ q.2 = s) ∧
    (Configured s → isCall s.opcode = false →
      q.1 = (stepInto stp s).1 ∧ q.2.forgetCalls = (stepInto stp s).2.forgetCalls) ∧
    ∀ n, Configured s → isCall s.opcode = true → 1 ≤ n → n ≤ Max.max max.toNat 1 →
      (∀ k, 1 ≤ k → k < n → s.depth < (stepIntos stp k s).depth) →
      let u := stepIntos stp n s
      let entry := callEntry s s.pcGetter s.opcode
      (u.depth ≤ s.depth →
        IsResult q.1 true u.pcGetter n .ok (some entry) (stepInto stp (stepIntos stp (n - 1) s)).1.ret ∧
        q.2.forgetCalls = u.forgetCalls) ∧
      (s.depth < u.depth → n = Max.max max.toNat 1 →
        IsResult q.1 false u.pcGetter n .errTimeout (some entry) none ∧ q.2.forgetCalls = u.forgetCalls)

/-- STEPOUT on an empty call stack fails with ERR_EMPTY_STACK (60_exceptions.md R324), before anything is executed and
whatever the budget. The result's fields are the spec's own decisions D28 and D29. -/
def Obligations.StepOutOfEmptyStackFails : Prop :=
  ∀ (s : State) (max : BitVec 32), Configured s → s.callStack = [] →
    ∃ t r, exec (.stepOut max) s = .next t ∧ Delivers r t ∧
      IsResult r false s.pcGetter 0 .errEmptyStack none none ∧ t.env = s.env ∧ t.callStack = [] ∧ KeepsSettings s t ∧
      t.calls = s.calls ++ [.pcGetter s.pcGetter]

/-- What STEPOUT on a non-empty call stack ends with (47_step_controller.md R289, R290, R295): the target depth within
the budget, with the entry popped last, or a timeout after exactly the budget. The events are the spec's own decision
D28. -/
def Obligations.StepOutOutcomes : Prop :=
  ∀ (s : State) (max : BitVec 32), Configured s → s.callStack ≠ [] →
    ∃ t r, exec (.stepOut max) s = .next t ∧ Delivers r t ∧ KeepsSettings s t ∧
      ((∃ n e, 1 ≤ n ∧ n ≤ max.toNat ∧ t.depth = s.depth - 1 ∧ IsResult r true t.pcGetter n .ok none (some e)) ∨
      (s.depth ≤ t.depth ∧ IsResult r false t.pcGetter max.toNat .errTimeout none none))

/-- STEPOUT is its StepIntos (47_step_controller.md R289, R293), for every Stepper. Unconfigured it fails, and on an
empty call stack it fails; else it stops at the first step after which the depth is below the starting one, or at the
budget, which is tested before each step; nothing is rolled back. The order of the tests is the spec's own decision D28;
the record of contract calls (log 12) is left out of the comparison. -/
def Obligations.StepOutReplaysStepInto : Prop :=
  (∀ (max : BitVec 32) (s : State), exec (.stepOut max) s =
    .next ((stepOut Config.stepper max s).2.answer (.stepped (stepOut Config.stepper max s).1))) ∧
  ∀ (stp : Stepper) (max : BitVec 32) (s : State),
    let q := stepOut stp max s
    (¬Configured s → IsResult q.1 false 0 0 .errConfig none none ∧ q.2 = s) ∧
    (Configured s → s.callStack = [] →
      IsResult q.1 false s.pcGetter 0 .errEmptyStack none none ∧ q.2.forgetCalls = s.forgetCalls) ∧
    ∀ n, Configured s → s.callStack ≠ [] → n ≤ max.toNat →
      (∀ k, 1 ≤ k → k < n → s.depth ≤ (stepIntos stp k s).depth) →
      let u := stepIntos stp n s
      (u.depth < s.depth →
        IsResult q.1 true u.pcGetter n .ok none (stepInto stp (stepIntos stp (n - 1) s)).1.ret ∧
        q.2.forgetCalls = u.forgetCalls) ∧
      (s.depth ≤ u.depth → n = max.toNat →
        IsResult q.1 false u.pcGetter n .errTimeout none none ∧ q.2.forgetCalls = u.forgetCalls)

/-- STEPOUT at a return opcode ends with that instruction (47_step_controller.md R290(c)); with a budget of 0 it
executes nothing (R290(a)). The spec marks R290 as derived; the order of the tests is its decision D28. -/
def Obligations.StepOutAtReturn : Prop :=
  ∀ (s : State) (below : List CallStackEntry) (top : CallStackEntry), Configured s → s.callStack = below ++ [top] →
    (∀ max : BitVec 32, 1 ≤ max.toNat → isReturn s.opcode = true →
      ∃ t r, exec (.stepOut max) s = .next t ∧ Delivers r t ∧ t.callStack = below ∧
        IsResult r true t.pcGetter 1 .ok none (some top)) ∧
    ∃ t r, exec (.stepOut 0) s = .next t ∧ Delivers r t ∧ t.env = s.env ∧ t.callStack = s.callStack ∧
      IsResult r false s.pcGetter 0 .errTimeout none none

/-- The budget (47_step_controller.md R292): `instructions_executed` is the number of Stepper calls made, and never
passes the budget (the call of STEPOVER is executed whatever the budget). The spec marks R292 as derived; the calls are
counted in the record of log 12. -/
def Obligations.BudgetBoundsStepperCalls : Prop :=
  ∀ (s : State) (max : BitVec 32),
    (∃ t r, exec (.stepInto max) s = .next t ∧ Delivers r t ∧ r.instructionsExecuted.toNat ≤ 1 ∧
      stepperCalls t.calls = stepperCalls s.calls + r.instructionsExecuted.toNat) ∧
    (∃ t r, exec (.stepOver max) s = .next t ∧ Delivers r t ∧ r.instructionsExecuted.toNat ≤ Max.max max.toNat 1 ∧
      stepperCalls t.calls = stepperCalls s.calls + r.instructionsExecuted.toNat) ∧
    ∃ t r, exec (.stepOut max) s = .next t ∧ Delivers r t ∧ r.instructionsExecuted.toNat ≤ max.toNat ∧
      stepperCalls t.calls = stepperCalls s.calls + r.instructionsExecuted.toNat

/-- Status, success and message go together (60_exceptions.md R322), and each command raises only the failures of
60_exceptions.md R326. The status codes are the spec's own decision D29; it marks R326 as derived. -/
def Obligations.StatusOfResults : Prop :=
  ∀ (s t : State) (i : Instr), exec i s = .next t →
    (¬IsStep i → ∀ r, ¬Delivers r t) ∧
    (IsStep i → ∃ r, Delivers r t ∧ (r.success = true ↔ r.status = .ok) ∧ (r.success = true ↔ r.status.code = 0) ∧
      (r.status = .errEmptyStack → "empty".toList <:+: r.message.toList) ∧
      (r.status = .errTimeout → "timed out".toList <:+: r.message.toList) ∧
      (r.status = .errEmptyStack → ∃ max, i = .stepOut max) ∧
      (r.status = .errTimeout → (∃ max, i = .stepOut max) ∨ ((∃ max, i = .stepOver max) ∧ isCall s.opcode = true)))

/-- The order of the checks (60_exceptions.md R327): configuration, then the empty stack, then the loop; in the STEPOVER
loop success comes before the budget, so a subroutine of one instruction is over at a budget of 2. The order of the
checks after configuration is the spec's own decisions D27 and D28. -/
def Obligations.FailurePriority : Prop :=
  (∀ (s : State) (max : BitVec 32), ¬Configured s → s.callStack = [] →
    ∃ t r, exec (.stepOut max) s = .next t ∧ Delivers r t ∧ r.status = .errConfig) ∧
  (∀ s : State, Configured s → s.callStack = [] →
    ∃ t r, exec (.stepOut 0) s = .next t ∧ Delivers r t ∧ r.status = .errEmptyStack) ∧
  ∀ (stp : Stepper) (s : State), Configured s → isCall s.opcode = true →
    isReturn (stepInto stp s).2.opcode = true →
    (stepOver stp 2 s).1.success = true ∧ (stepOver stp 2 s).1.instructionsExecuted = 2

/-- Only StepInto changes the call stack (47_step_controller.md R297): a step whose request is no step command leaves it
alone, and a step command leaves what some number of StepIntos leave; reset empties it. -/
def Obligations.OnlyStepIntoChangesTheCallStack : Prop :=
  (∀ s t : State, step s = .next t →
    ((∀ w, s.inbox.head? ≠ some (.scmd w)) → t.callStack = s.callStack) ∧
    ∃ k, t.callStack = (stepIntos Config.stepper k s).callStack) ∧
  State.reset.callStack = []
end

