-- ==== Sys2Proof/Laws/Encoding.lean ====
section
/-! SUPPORT. The fields of a word laid out by the encoder are the ones the decoder reads (30_encoding.md R91, R94, R95). -/

namespace Sys2Proof

/-- The low part of a concatenation. -/
theorem extract_append_low {m n : Nat} (a : BitVec m) (b : BitVec n) : (a ++ b).extractLsb' 0 n = b := by
  apply BitVec.eq_of_getLsbD_eq
  intro i hi
  simp [BitVec.getLsbD_append, hi]

/-- The high part of a concatenation. -/
theorem extract_append_high {m n : Nat} (a : BitVec m) (b : BitVec n) : (a ++ b).extractLsb' n m = a := by
  apply BitVec.eq_of_getLsbD_eq
  intro i hi
  simp [BitVec.getLsbD_append, hi]

/-- The middle part of a concatenation of three. -/
theorem extract_append_mid {m n k : Nat} (a : BitVec m) (b : BitVec n) (c : BitVec k) :
    (a ++ b ++ c).extractLsb' k n = b := by
  apply BitVec.eq_of_getLsbD_eq
  intro i hi
  simp [BitVec.getLsbD_append, hi]

/-- The high part of a concatenation of three. -/
theorem extract_append_top {m n k : Nat} (a : BitVec m) (b : BitVec n) (c : BitVec k) :
    (a ++ b ++ c).extractLsb' (n + k) m = a := by
  apply BitVec.eq_of_getLsbD_eq
  intro i hi
  have h1 : ¬(n + k + i < k) := by omega
  have h2 : n + k + i - k = n + i := by omega
  simp [BitVec.getLsbD_append, h1, h2, hi]

@[simp] theorem xcmdLow_append (op : BitVec 5) (low high : Addr) : xcmdLow (op ++ high ++ low) = low :=
  extract_append_low (op ++ high) low

@[simp] theorem xcmdHigh_append (op : BitVec 5) (low high : Addr) : xcmdHigh (op ++ high ++ low) = high :=
  extract_append_mid op high low

@[simp] theorem xcmdOp_append (op : BitVec 5) (low high : Addr) : xcmdOp (op ++ high ++ low) = op :=
  extract_append_top op high low

@[simp] theorem scmdMax_append (cmd : BitVec 2) (max : BitVec 32) : scmdMax (cmd ++ max) = max :=
  extract_append_low cmd max

@[simp] theorem scmdCmd_append (cmd : BitVec 2) (max : BitVec 32) : scmdCmd (cmd ++ max) = cmd :=
  extract_append_high cmd max

/-- A word is the concatenation of its fields (R91). -/
theorem xcmd_eq_append (w : BitVec 69) : w = xcmdOp w ++ xcmdHigh w ++ xcmdLow w := by
  apply BitVec.eq_of_getLsbD_eq
  intro i hi
  simp only [xcmdOp, xcmdHigh, xcmdLow, BitVec.getLsbD_append, BitVec.getLsbD_extractLsb']
  by_cases h1 : i < 32
  · simp [h1]
  · by_cases h2 : i - 32 < 32
    · simp [h1, h2]; congr 1; omega
    · have h3 : i - 32 - 32 < 5 := by omega
      simp [h1, h2, h3]; congr 1; omega

/-- A word is the concatenation of its fields (R94). -/
theorem scmd_eq_append (w : BitVec 34) : w = scmdCmd w ++ scmdMax w := by
  apply BitVec.eq_of_getLsbD_eq
  intro i hi
  simp only [scmdCmd, scmdMax, BitVec.getLsbD_append, BitVec.getLsbD_extractLsb']
  by_cases h1 : i < 32
  · simp [h1]
  · have h3 : i - 32 < 2 := by omega
    simp [h1, h3]; congr 1; omega

/-- The two bytes of a 16-bit operand put together again. -/
@[simp] theorem bytes16_append (v : BitVec 16) : v.extractLsb' 8 8 ++ v.extractLsb' 0 8 = v := by
  apply BitVec.eq_of_getLsbD_eq
  intro i hi
  simp only [BitVec.getLsbD_append, BitVec.getLsbD_extractLsb']
  by_cases h1 : i < 8
  · simp [h1]
  · have h3 : i - 8 < 8 := by omega
    simp [h1, h3]; congr 1; omega

/-- The three bytes of a 24-bit operand put together again. -/
@[simp] theorem bytes24_append (v : BitVec 24) : v.extractLsb' 16 8 ++ v.extractLsb' 8 8 ++ v.extractLsb' 0 8 = v := by
  apply BitVec.eq_of_getLsbD_eq
  intro i hi
  simp only [BitVec.getLsbD_append, BitVec.getLsbD_extractLsb']
  by_cases h1 : i < 8
  · simp [h1]
  · by_cases h2 : i - 8 < 8
    · simp [h1, h2]; congr 1; omega
    · have h3 : i - 8 - 8 < 8 := by omega
      simp [h1, h2, h3]; congr 1; omega

/-- The operation code of an operation selects it (R92). -/
@[simp] theorem ofCode_code (op : ExecOp) : ExecOp.ofCode op.code = some op := by cases op <;> rfl

/-- An operation code that selects an operation is that operation's code (R92). -/
theorem code_of_ofCode {c : BitVec 5} {op : ExecOp} (h : ExecOp.ofCode c = some op) : op.code = c := by
  revert c op; decide

/-- Codes 0x18 to 0x1F, and only they, select no operation (R93). -/
theorem ofCode_eq_none (c : BitVec 5) : ExecOp.ofCode c = none ↔ 0x18 ≤ c.toNat := by
  revert c; decide

/-- Decoding an executor command laid out field by field. -/
theorem decodeXcmd_append (op : ExecOp) (low high : Addr) :
    decodeXcmd (op.code ++ high ++ low) = .ok (op.toInstr low high) := by
  simp [decodeXcmd]

end Sys2Proof
end

