-- ==== Sys2Proof/Laws/State.lean ====
section
/-! SUPPORT. One lemma per field per update of the state records, so that no proof unfolds an update. -/

namespace Sys2Proof.Machine

/-! ## Environment updates -/

@[simp] theorem Env.log_regs (e : Env) (ev : BusEvent) : (e.log ev).regs = e.regs := rfl
@[simp] theorem Env.log_mem (e : Env) (ev : BusEvent) : (e.log ev).mem = e.mem := rfl
@[simp] theorem Env.log_trace (e : Env) (ev : BusEvent) : (e.log ev).trace = e.trace ++ [ev] := rfl
@[simp] theorem Env.mapRegs_regs (f : RegFile → RegFile) (e : Env) : (e.mapRegs f).regs = f e.regs := rfl
@[simp] theorem Env.mapRegs_mem (f : RegFile → RegFile) (e : Env) : (e.mapRegs f).mem = e.mem := rfl
@[simp] theorem Env.mapRegs_trace (f : RegFile → RegFile) (e : Env) : (e.mapRegs f).trace = e.trace := rfl

/-! ## Register File updates -/

@[simp] theorem RegFile.setFlag_a (f : Flag) (b : Bool) (r : RegFile) : (r.setFlag f b).a = r.a := rfl
@[simp] theorem RegFile.setFlag_x (f : Flag) (b : Bool) (r : RegFile) : (r.setFlag f b).x = r.x := rfl
@[simp] theorem RegFile.setFlag_y (f : Flag) (b : Bool) (r : RegFile) : (r.setFlag f b).y = r.y := rfl
@[simp] theorem RegFile.setFlag_d (f : Flag) (b : Bool) (r : RegFile) : (r.setFlag f b).d = r.d := rfl
@[simp] theorem RegFile.setFlag_sp (f : Flag) (b : Bool) (r : RegFile) : (r.setFlag f b).sp = r.sp := rfl
@[simp] theorem RegFile.setFlag_pc (f : Flag) (b : Bool) (r : RegFile) : (r.setFlag f b).pc = r.pc := rfl
@[simp] theorem RegFile.setFlag_pb (f : Flag) (b : Bool) (r : RegFile) : (r.setFlag f b).pb = r.pb := rfl
@[simp] theorem RegFile.setFlag_dbr (f : Flag) (b : Bool) (r : RegFile) : (r.setFlag f b).dbr = r.dbr := rfl
@[simp] theorem RegFile.setFlag_e (f : Flag) (b : Bool) (r : RegFile) : (r.setFlag f b).e = r.e := rfl

@[simp] theorem writeA_a (w : Width) (v : Word) (r : RegFile) : (writeA w v r).a = atWidth w r.a v := rfl
@[simp] theorem writeA_x (w : Width) (v : Word) (r : RegFile) : (writeA w v r).x = r.x := rfl
@[simp] theorem writeA_y (w : Width) (v : Word) (r : RegFile) : (writeA w v r).y = r.y := rfl
@[simp] theorem writeA_d (w : Width) (v : Word) (r : RegFile) : (writeA w v r).d = r.d := rfl
@[simp] theorem writeA_sp (w : Width) (v : Word) (r : RegFile) : (writeA w v r).sp = r.sp := rfl
@[simp] theorem writeA_pc (w : Width) (v : Word) (r : RegFile) : (writeA w v r).pc = r.pc := rfl
@[simp] theorem writeA_pb (w : Width) (v : Word) (r : RegFile) : (writeA w v r).pb = r.pb := rfl
@[simp] theorem writeA_dbr (w : Width) (v : Word) (r : RegFile) : (writeA w v r).dbr = r.dbr := rfl
@[simp] theorem writeA_e (w : Width) (v : Word) (r : RegFile) : (writeA w v r).e = r.e := rfl
@[simp] theorem writeA_flag (w : Width) (v : Word) (f : Flag) (r : RegFile) : (writeA w v r).flag f = r.flag f := rfl

@[simp] theorem setZN_a (v : Word) (w : Width) (r : RegFile) : (setZN v w r).a = r.a := rfl
@[simp] theorem setZN_x (v : Word) (w : Width) (r : RegFile) : (setZN v w r).x = r.x := rfl
@[simp] theorem setZN_y (v : Word) (w : Width) (r : RegFile) : (setZN v w r).y = r.y := rfl
@[simp] theorem setZN_d (v : Word) (w : Width) (r : RegFile) : (setZN v w r).d = r.d := rfl
@[simp] theorem setZN_sp (v : Word) (w : Width) (r : RegFile) : (setZN v w r).sp = r.sp := rfl
@[simp] theorem setZN_pc (v : Word) (w : Width) (r : RegFile) : (setZN v w r).pc = r.pc := rfl
@[simp] theorem setZN_pb (v : Word) (w : Width) (r : RegFile) : (setZN v w r).pb = r.pb := rfl
@[simp] theorem setZN_dbr (v : Word) (w : Width) (r : RegFile) : (setZN v w r).dbr = r.dbr := rfl
@[simp] theorem setZN_e (v : Word) (w : Width) (r : RegFile) : (setZN v w r).e = r.e := rfl

/-! ## State updates -/

@[simp] theorem State.answer_env (q : Reply) (s : State) : (s.answer q).env = s.env := rfl
@[simp] theorem State.answer_callStack (q : Reply) (s : State) : (s.answer q).callStack = s.callStack := rfl
@[simp] theorem State.answer_cfgReader (q : Reply) (s : State) : (s.answer q).cfgReader = s.cfgReader := rfl
@[simp] theorem State.answer_cfgStepper (q : Reply) (s : State) : (s.answer q).cfgStepper = s.cfgStepper := rfl
@[simp] theorem State.answer_cfgPc (q : Reply) (s : State) : (s.answer q).cfgPc = s.cfgPc := rfl
@[simp] theorem State.answer_calls (q : Reply) (s : State) : (s.answer q).calls = s.calls := rfl
@[simp] theorem State.answer_inbox (q : Reply) (s : State) : (s.answer q).inbox = s.inbox := rfl
@[simp] theorem State.answer_queryPc (q : Reply) (s : State) : (s.answer q).queryPc = s.queryPc := rfl
@[simp] theorem State.answer_reply (q : Reply) (s : State) : (s.answer q).reply = some q := rfl
@[simp] theorem State.answer_freeCount (q : Reply) (s : State) : (s.answer q).freeCount = s.freeCount := rfl

@[simp] theorem State.logCalls_env (cs : List ContractCall) (s : State) : (s.logCalls cs).env = s.env := rfl
@[simp] theorem State.logCalls_callStack (cs : List ContractCall) (s : State) : (s.logCalls cs).callStack = s.callStack := rfl
@[simp] theorem State.logCalls_cfgReader (cs : List ContractCall) (s : State) : (s.logCalls cs).cfgReader = s.cfgReader := rfl
@[simp] theorem State.logCalls_cfgStepper (cs : List ContractCall) (s : State) : (s.logCalls cs).cfgStepper = s.cfgStepper := rfl
@[simp] theorem State.logCalls_cfgPc (cs : List ContractCall) (s : State) : (s.logCalls cs).cfgPc = s.cfgPc := rfl
@[simp] theorem State.logCalls_calls (cs : List ContractCall) (s : State) : (s.logCalls cs).calls = s.calls ++ cs := rfl
@[simp] theorem State.logCalls_inbox (cs : List ContractCall) (s : State) : (s.logCalls cs).inbox = s.inbox := rfl
@[simp] theorem State.logCalls_queryPc (cs : List ContractCall) (s : State) : (s.logCalls cs).queryPc = s.queryPc := rfl
@[simp] theorem State.logCalls_reply (cs : List ContractCall) (s : State) : (s.logCalls cs).reply = s.reply := rfl
@[simp] theorem State.logCalls_freeCount (cs : List ContractCall) (s : State) : (s.logCalls cs).freeCount = s.freeCount := rfl
@[simp] theorem State.logCalls_pcGetter (cs : List ContractCall) (s : State) : (s.logCalls cs).pcGetter = s.pcGetter := rfl
@[simp] theorem State.logCalls_reader (cs : List ContractCall) (s : State) : (s.logCalls cs).reader = s.reader := rfl
@[simp] theorem State.logCalls_depth (cs : List ContractCall) (s : State) : (s.logCalls cs).depth = s.depth := rfl
@[simp] theorem State.logCalls_configured (cs : List ContractCall) (s : State) :
    (s.logCalls cs).configured = s.configured := rfl

@[simp] theorem State.updateRegs_env (f : RegFile → RegFile) (s : State) : (s.updateRegs f).env = s.env.mapRegs f := rfl
@[simp] theorem State.updateRegs_callStack (f : RegFile → RegFile) (s : State) : (s.updateRegs f).callStack = s.callStack := rfl

@[simp] theorem callStepper_env (stp : Stepper) (s : State) :
    (callStepper stp s).env = runActions (stp s.freeCount s.env.regs s.env.mem) s.env := rfl
@[simp] theorem callStepper_callStack (stp : Stepper) (s : State) : (callStepper stp s).callStack = s.callStack := rfl
@[simp] theorem callStepper_cfgReader (stp : Stepper) (s : State) : (callStepper stp s).cfgReader = s.cfgReader := rfl
@[simp] theorem callStepper_cfgStepper (stp : Stepper) (s : State) : (callStepper stp s).cfgStepper = s.cfgStepper := rfl
@[simp] theorem callStepper_cfgPc (stp : Stepper) (s : State) : (callStepper stp s).cfgPc = s.cfgPc := rfl
@[simp] theorem callStepper_calls (stp : Stepper) (s : State) : (callStepper stp s).calls = s.calls ++ [.stepper] := rfl
@[simp] theorem callStepper_inbox (stp : Stepper) (s : State) : (callStepper stp s).inbox = s.inbox := rfl
@[simp] theorem callStepper_queryPc (stp : Stepper) (s : State) : (callStepper stp s).queryPc = s.queryPc := rfl
@[simp] theorem callStepper_reply (stp : Stepper) (s : State) : (callStepper stp s).reply = s.reply := rfl
@[simp] theorem callStepper_freeCount (stp : Stepper) (s : State) : (callStepper stp s).freeCount = s.freeCount + 1 := rfl

@[simp] theorem answerQuery_env (op : Byte) (s : State) : (answerQuery op s).env = s.env := rfl
@[simp] theorem answerQuery_callStack (op : Byte) (s : State) : (answerQuery op s).callStack = s.callStack := rfl
@[simp] theorem answerQuery_cfgReader (op : Byte) (s : State) : (answerQuery op s).cfgReader = s.cfgReader := rfl
@[simp] theorem answerQuery_cfgStepper (op : Byte) (s : State) : (answerQuery op s).cfgStepper = s.cfgStepper := rfl
@[simp] theorem answerQuery_cfgPc (op : Byte) (s : State) : (answerQuery op s).cfgPc = s.cfgPc := rfl
@[simp] theorem answerQuery_inbox (op : Byte) (s : State) : (answerQuery op s).inbox = s.inbox := rfl
@[simp] theorem answerQuery_queryPc (op : Byte) (s : State) : (answerQuery op s).queryPc = s.queryPc := rfl
@[simp] theorem answerQuery_reply (op : Byte) (s : State) :
    (answerQuery op s).reply = some (.classified (classify s s.queryPc op)) := rfl

@[simp] theorem configure_env (which : Contract) (present : Bool) (s : State) : (configure which present s).env = s.env := by
  cases which <;> rfl
@[simp] theorem configure_callStack (which : Contract) (present : Bool) (s : State) :
    (configure which present s).callStack = s.callStack := by
  cases which <;> rfl

end Sys2Proof.Machine
end

