-- ==== Sys2Proof/Laws/Flags.lean ====
section
/-! SUPPORT. What the status byte's reads, writes and derived operations do (10_state.md R28; 40_regfile_flags.md R123). -/

namespace Sys2Proof.Machine

/-- Writing bit `k` of a byte and reading bit `j`. -/
theorem getLsbD_setBit (p : Byte) (j k : Nat) (b : Bool) (hj : j < 8) :
    (setBit p k b).getLsbD j = if j = k then b else p.getLsbD j := by
  unfold setBit
  by_cases h : j = k
  · subst h; cases b <;> simp [hj]
  · cases b <;> simp [h, hj] <;> intros <;> omega

theorem Flag.bit_lt (f : Flag) : f.bit < 8 := by cases f <;> decide

theorem Flag.bit_inj {f g : Flag} : f.bit = g.bit ↔ f = g := by cases f <;> cases g <;> decide

/-- A flag after a write: the written one has the new value, every other its old one. -/
theorem flag_setFlag (f g : Flag) (b : Bool) (r : RegFile) :
    (r.setFlag g b).flag f = if f = g then b else r.flag f := by
  simp [RegFile.flag, RegFile.setFlag, getLsbD_setBit _ _ _ _ f.bit_lt, Flag.bit_inj]

@[simp] theorem flag_setFlag_same (f : Flag) (b : Bool) (r : RegFile) : (r.setFlag f b).flag f = b := by
  simp [flag_setFlag]

theorem flag_setFlag_other {f g : Flag} (b : Bool) (r : RegFile) (h : f ≠ g) : (r.setFlag g b).flag f = r.flag f := by
  simp [flag_setFlag, h]

/-- `P` is determined by its eight flags. -/
theorem p_eq_of_flags {r t : RegFile} (h : ∀ f, r.flag f = t.flag f) : r.p = t.p := by
  apply BitVec.eq_of_getLsbD_eq
  intro i hi
  have key : ∀ f : Flag, r.p.getLsbD f.bit = t.p.getLsbD f.bit := h
  have : i = 0 ∨ i = 1 ∨ i = 2 ∨ i = 3 ∨ i = 4 ∨ i = 5 ∨ i = 6 ∨ i = 7 := by omega
  rcases this with rfl | rfl | rfl | rfl | rfl | rfl | rfl | rfl
  exacts [key .c, key .z, key .i, key .d, key .x, key .m, key .v, key .n]

/-- The flags after `SetZN` (40_regfile_flags.md R123). -/
theorem flag_setZN (f : Flag) (v : Word) (w : Width) (r : RegFile) :
    (setZN v w r).flag f =
      if f = .n then v.getLsbD w.signBit else if f = .z then v &&& w.mask == 0 else r.flag f := by
  simp [setZN, flag_setFlag]

@[simp] theorem flag_n_setZN (v : Word) (w : Width) (r : RegFile) : (setZN v w r).flag .n = v.getLsbD w.signBit := by
  simp [flag_setZN]

@[simp] theorem flag_z_setZN (v : Word) (w : Width) (r : RegFile) : (setZN v w r).flag .z = (v &&& w.mask == 0) := by
  simp [flag_setZN]

theorem flag_setZN_other {f : Flag} (v : Word) (w : Width) (r : RegFile) (hn : f ≠ .n) (hz : f ≠ .z) :
    (setZN v w r).flag f = r.flag f := by
  simp [flag_setZN, hn, hz]

theorem width_m (r : RegFile) : width .m r = if r.flag .m then .w8 else .w16 := rfl
theorem width_x (r : RegFile) : width .x r = if r.flag .x then .w8 else .w16 := rfl

/-- A width depends on its gate flag only. -/
theorem width_congr {r t : RegFile} (g : Gate) (hm : r.flag .m = t.flag .m) (hx : r.flag .x = t.flag .x) :
    width g r = width g t := by
  cases g <;> simp [width_m, width_x, hm, hx]

end Sys2Proof.Machine
end

