-- ==== Sys2Proof/Laws/Memory.lean ====
section
/-! SUPPORT. The laws of memory: read after write, and the canonical form (20_memory.md R72, R76). -/

namespace Sys2Proof.Machine

@[simp] theorem memRead_nil (a : Nat) : memRead [] a = unlistedByte := rfl

/-- An address below every listed one reads as unlisted. -/
theorem memRead_of_lt {m : Memory} {a : Nat} (h : ∀ c ∈ m, a < c.1) : memRead m a = unlistedByte := by
  induction m with
  | nil => rfl
  | cons c rest ih =>
    obtain ⟨b, v⟩ := c
    have hb : a < b := h (b, v) (by simp)
    simp only [memRead]
    rw [if_neg (by omega)]
    exact ih fun c hc => h c (by simp [hc])

/-- Read after write, on a memory in canonical order. -/
theorem memRead_memWrite (m : Memory) (a k : Nat) (v : Byte) (h : m.Pairwise fun c d => c.1 < d.1) :
    memRead (memWrite m a v) k = if k = a then v else memRead m k := by
  induction m with
  | nil =>
    by_cases hv : v = unlistedByte <;> by_cases hk : k = a <;> simp [memWrite, memRead, hv, hk, eq_comm]
    intro h; exact absurd h.symm hk
  | cons c rest ih =>
    obtain ⟨b, u⟩ := c
    have hrest := (List.pairwise_cons.mp h).2
    have hlt := (List.pairwise_cons.mp h).1
    have hbelow : ∀ {j : Nat}, j ≤ b → memRead rest j = unlistedByte := fun {j} hj =>
      memRead_of_lt fun c hc => Nat.lt_of_le_of_lt hj (hlt c hc)
    simp only [memWrite]
    by_cases hab : a < b
    · rw [if_pos hab]
      by_cases hv : v = unlistedByte
      · rw [if_pos hv]
        by_cases hk : k = a
        · subst hk
          rw [if_pos rfl, memRead, if_neg (by omega), hbelow (by omega), hv]
        · rw [if_neg hk]
      · rw [if_neg hv]
        by_cases hk : k = a
        · simp [memRead, hk]
        · rw [if_neg hk, memRead, if_neg (by omega)]
    · rw [if_neg hab]
      by_cases hab' : a = b
      · subst hab'
        rw [if_pos rfl]
        by_cases hv : v = unlistedByte
        · rw [if_pos hv]
          by_cases hk : k = a
          · subst hk; rw [if_pos rfl, hbelow (by omega), hv]
          · rw [if_neg hk, memRead, if_neg (by omega)]
        · rw [if_neg hv]
          by_cases hk : k = a
          · simp [memRead, hk]
          · rw [if_neg hk, memRead, memRead, if_neg (by omega), if_neg (by omega)]
      · rw [if_neg hab']
        by_cases hk : k = b
        · subst hk
          rw [memRead, if_pos rfl, if_neg (by omega), memRead, if_pos rfl]
        · have hbk : ¬b = k := fun h => hk h.symm
          simp [memRead, hbk, ih hrest]

/-- A byte written reads back. -/
theorem memRead_memWrite_same {m : Memory} (h : memWf m) (a : Nat) (v : Byte) : memRead (memWrite m a v) a = v := by
  simp [memRead_memWrite m a a v h.1]

/-- A write leaves every other address alone. -/
theorem memRead_memWrite_other {m : Memory} (h : memWf m) {a k : Nat} (v : Byte) (hk : k ≠ a) :
    memRead (memWrite m a v) k = memRead m k := by
  simp [memRead_memWrite m a k v h.1, hk]

/-- Where the entries of a memory after a write come from. -/
theorem mem_memWrite {m : Memory} {a : Nat} {v : Byte} {c : Host.Cell} (h : c ∈ memWrite m a v) :
    (c = (a, v) ∧ v ≠ unlistedByte) ∨ c ∈ m := by
  induction m with
  | nil =>
    simp only [memWrite] at h
    split at h <;> simp_all
  | cons d rest ih =>
    obtain ⟨b, u⟩ := d
    simp only [memWrite] at h
    split at h
    · split at h
      · exact .inr h
      · rcases List.mem_cons.mp h with rfl | h
        · exact .inl ⟨rfl, ‹_›⟩
        · exact .inr h
    · split at h
      · split at h
        · exact .inr (List.mem_cons_of_mem _ h)
        · rcases List.mem_cons.mp h with rfl | h
          · exact .inl ⟨rfl, ‹_›⟩
          · exact .inr (List.mem_cons_of_mem _ h)
      · rcases List.mem_cons.mp h with rfl | h
        · exact .inr (by simp)
        · rcases ih h with h | h
          · exact .inl h
          · exact .inr (List.mem_cons_of_mem _ h)

theorem pairwise_memWrite {m : Memory} (a : Nat) (v : Byte) (h : m.Pairwise fun c d => c.1 < d.1) :
    (memWrite m a v).Pairwise fun c d => c.1 < d.1 := by
  induction m with
  | nil => simp only [memWrite]; split <;> simp
  | cons d rest ih =>
    obtain ⟨b, u⟩ := d
    obtain ⟨hlt, hrest⟩ := List.pairwise_cons.mp h
    simp only [memWrite]
    split
    · split
      · exact h
      · refine List.pairwise_cons.mpr ⟨?_, h⟩
        intro c hc
        rcases List.mem_cons.mp hc with rfl | hc
        · assumption
        · have := hlt c hc; simp only at *; omega
    · split
      · subst_vars
        split
        · exact hrest
        · exact List.pairwise_cons.mpr ⟨hlt, hrest⟩
      · refine List.pairwise_cons.mpr ⟨?_, ih hrest⟩
        intro c hc
        rcases mem_memWrite hc with ⟨rfl, -⟩ | hc
        · simp only; omega
        · exact hlt c hc

/-- A write inside the space keeps the canonical form. -/
theorem memWf_memWrite {m : Memory} (h : memWf m) {a : Nat} (ha : a < addressSpace) (v : Byte) : memWf (memWrite m a v) := by
  refine ⟨pairwise_memWrite a v h.1, fun c hc => ?_⟩
  rcases mem_memWrite hc with ⟨rfl, hv⟩ | hc
  · exact ⟨ha, hv⟩
  · exact h.2 c hc

theorem memWf_reset : memWf State.reset.env.mem := by decide

theorem memWf_storeWord {m : Memory} (h : memWf m) {low high : Addr} (hl : low.toNat < addressSpace)
    (hh : high.toNat < addressSpace) (o : WordOrder) (v : Word) : memWf (storeWord o m low high v) := by
  cases o
  · exact memWf_memWrite (memWf_memWrite h hl _) hh _
  · exact memWf_memWrite (memWf_memWrite h hh _) hl _

/-- Two canonical memories that read alike at every address are equal. -/
theorem mem_ext {m n : Memory} (hm : memWf m) (hn : memWf n) (h : ∀ a, memRead m a = memRead n a) : m = n := by
  induction m generalizing n with
  | nil =>
    cases n with
    | nil => rfl
    | cons c rest =>
      obtain ⟨b, v⟩ := c
      have := h b
      simp [memRead] at this
      exact absurd this.symm (hn.2 (b, v) (by simp)).2
  | cons c rest ih =>
    obtain ⟨b, v⟩ := c
    have hmr : memWf rest := ⟨(List.pairwise_cons.mp hm.1).2, fun c hc => hm.2 c (by simp [hc])⟩
    have hmlt := (List.pairwise_cons.mp hm.1).1
    cases n with
    | nil =>
      have := h b
      simp [memRead] at this
      exact absurd this (hm.2 (b, v) (by simp)).2
    | cons d rest' =>
      obtain ⟨b', v'⟩ := d
      have hnr : memWf rest' := ⟨(List.pairwise_cons.mp hn.1).2, fun c hc => hn.2 c (by simp [hc])⟩
      have hnlt := (List.pairwise_cons.mp hn.1).1
      have hv : v ≠ unlistedByte := (hm.2 (b, v) (by simp)).2
      have hv' : v' ≠ unlistedByte := (hn.2 (b', v') (by simp)).2
      have hb : b = b' := by
        rcases Nat.lt_trichotomy b b' with hlt | heq | hgt
        · have h1 := h b
          rw [memRead, if_pos rfl, memRead, if_neg (by omega)] at h1
          rw [memRead_of_lt fun c hc => Nat.lt_trans hlt (hnlt c hc)] at h1
          exact absurd h1 hv
        · exact heq
        · have h1 := h b'
          rw [memRead, if_neg (by omega), memRead, if_pos rfl] at h1
          rw [memRead_of_lt fun c hc => Nat.lt_trans hgt (hmlt c hc)] at h1
          exact absurd h1.symm hv'
      subst hb
      have hvv : v = v' := by simpa [memRead] using h b
      subst hvv
      have : rest = rest' := ih hmr hnr fun a => by
        have h1 := h a
        simp only [memRead] at h1
        split at h1
        · subst_vars
          rw [memRead_of_lt hmlt, memRead_of_lt hnlt]
        · exact h1
      rw [this]

/-- The bytes after a word store, in either order, at two different addresses. -/
theorem memRead_storeWord {m : Memory} (h : memWf m) {low high : Addr} (hl : low.toNat < addressSpace)
    (hh : high.toNat < addressSpace) (hne : low ≠ high) (o : WordOrder) (v : Word) (k : Nat) :
    memRead (storeWord o m low high v) k =
      if k = low.toNat then v.extractLsb' 0 8 else if k = high.toNat then v.extractLsb' 8 8 else memRead m k := by
  have hne' : low.toNat ≠ high.toNat := fun hc => hne (BitVec.eq_of_toNat_eq hc)
  cases o
  · rw [storeWord, memRead_memWrite _ _ _ _ (memWf_memWrite h hl _).1, memRead_memWrite _ _ _ _ h.1]
    by_cases h1 : k = low.toNat
    · subst h1; rw [if_neg hne', if_pos rfl]; simp
    · simp [h1]
  · rw [storeWord, memRead_memWrite _ _ _ _ (memWf_memWrite h hh _).1, memRead_memWrite _ _ _ _ h.1]

end Sys2Proof.Machine
end

