-- ==== Sys2Proof/Laws/Operands.lean ====
section
/-! SUPPORT. What the operand accesses and the frame of an executor command do, said once (40_regfile_flags.md R131, R132;
20_memory.md R69, R71). -/

namespace Sys2Proof.Machine

theorem State.width_eq (s : State) (g : Gate) : s.width g = Machine.width g s.env.regs := by cases g <;> rfl

/-! ## The malformed pairs -/

theorem eaMalformed_eq_false {w : Width} {low high : Addr} :
    eaMalformed w ⟨low, high⟩ = false ↔ AddressesOk w low high := by
  cases w <;> simp [eaMalformed, AddressesOk, addressSpace, and_assoc]

theorem eaMalformed_of_not_ok {w : Width} {low high : Addr} (h : ¬AddressesOk w low high) :
    eaMalformed w ⟨low, high⟩ = true := by
  rw [← eaMalformed_eq_false] at h
  simpa using h

/-- A static pair that is well formed (WellFormed.lean) is not malformed when it is executed at that width. -/
theorem eaMalformed_of_wellFormed {w : Width} {low high : Addr} (h : pairWellFormed w low high = true) :
    eaMalformed w ⟨low, high⟩ = false := by
  rw [eaMalformed_eq_false]
  cases w <;> simpa [pairWellFormed, inAddressSpace, AddressesOk, and_assoc] using h

/-! ## ReadOperand -/

/-- What `ReadOperand` returns. -/
def operandIn (m : Memory) (w : Width) (ea : EA) : Word :=
  match w with
  | .w8 => (memRead m ea.low.toNat).setWidth 16
  | .w16 => wordAt m ea.low ea.high

theorem State.operand_eq (s : State) (w : Width) (low high : Addr) :
    s.operand w low high = operandIn s.env.mem w ⟨low, high⟩ := by
  cases w <;> rfl

@[simp] theorem readOperand_fst (w : Width) (ea : EA) (e : Env) : (readOperand w ea e).1 = operandIn e.mem w ea := by
  cases w <;> rfl

@[simp] theorem readOperand_snd (w : Width) (ea : EA) (e : Env) :
    (readOperand w ea e).2 = e.log (readEvent w ea.low ea.high (operandIn e.mem w ea)) := by
  cases w
  · simp only [readOperand, busReadByte, readEvent, operandIn]
    congr 2
    apply BitVec.eq_of_getLsbD_eq
    intro i hi
    simp [hi]
    omega
  · rfl

/-- An 8-bit operand has a zero high byte (44_load_store.md R188). -/
theorem operandIn_w8_lt (m : Memory) (ea : EA) : (operandIn m .w8 ea).toNat < 256 := by
  have := (memRead m ea.low.toNat).isLt
  simp only [operandIn, BitVec.toNat_setWidth]
  omega

/-! ## WriteOperand -/

@[simp] theorem writeOperand_regs (w : Width) (ea : EA) (v : Word) (e : Env) : (writeOperand w ea v e).regs = e.regs := by
  cases w <;> rfl

@[simp] theorem writeOperand_trace (w : Width) (ea : EA) (v : Word) (e : Env) :
    (writeOperand w ea v e).trace = e.trace ++ [writeEvent w ea.low ea.high v] := by
  cases w <;> rfl

/-- The memory after `WriteOperand`. -/
theorem memRead_writeOperand {w : Width} {low high : Addr} {e : Env} (h : memWf e.mem) (ok : AddressesOk w low high)
    (v : Word) (k : Nat) :
    memRead (writeOperand w ⟨low, high⟩ v e).mem k =
      if k = low.toNat then v.extractLsb' 0 8
      else if w = .w16 ∧ k = high.toNat then v.extractLsb' 8 8 else memRead e.mem k := by
  cases w
  · simp [writeOperand, busWriteByte, memRead_memWrite _ _ _ _ h.1]
  · simp only [writeOperand, busWriteWord, Env.log_mem, true_and]
    exact memRead_storeWord h ok.1 ok.2.1 ok.2.2 .lowFirst v k

theorem memWf_writeOperand {w : Width} {low high : Addr} {e : Env} (h : memWf e.mem) (ok : AddressesOk w low high)
    (v : Word) : memWf (writeOperand w ⟨low, high⟩ v e).mem := by
  cases w
  · exact memWf_memWrite h ok _
  · exact memWf_storeWord h ok.1 ok.2.1 .lowFirst v

/-! ## The frame of an executor command -/

/-- A command whose pair is not malformed completes. -/
theorem runCommand_ok {g : Gate} {low high : Addr} {s : State} (op : EA → Env → Env)
    (ok : AddressesOk (s.width g) low high) :
    runCommand g ⟨low, high⟩ op s = .next { s with env := op ⟨low, high⟩ s.env, reply := none } := by
  rw [State.width_eq] at ok
  simp [runCommand, eaMalformed_eq_false.mpr ok]

/-- A command whose pair is malformed is refused. -/
theorem runCommand_malformed {g : Gate} {low high : Addr} {s : State} (op : EA → Env → Env)
    (bad : ¬AddressesOk (s.width g) low high) : runCommand g ⟨low, high⟩ op s = .refused .malformedAddress := by
  rw [State.width_eq] at bad
  simp [runCommand, eaMalformed_of_not_ok bad]

/-- Everything a command can do when it answers a next state. -/
theorem runCommand_next {g : Gate} {low high : Addr} {op : EA → Env → Env} {s t : State}
    (h : runCommand g ⟨low, high⟩ op s = .next t) :
    AddressesOk (s.width g) low high ∧ t = { s with env := op ⟨low, high⟩ s.env, reply := none } := by
  by_cases ok : AddressesOk (s.width g) low high
  · rw [runCommand_ok op ok] at h
    exact ⟨ok, by cases h; rfl⟩
  · rw [runCommand_malformed op ok] at h
    cases h

end Sys2Proof.Machine
end

