-- ==== Sys2Proof/Laws/Executor.lean ====
section
/-! SUPPORT. What each executor operation does to the environment, and what every one of them leaves alone
(10_state.md R33; 20_memory.md R69). -/

namespace Sys2Proof.Machine

/-- The arm of exec for an executor command. -/
theorem exec_toInstr (op : ExecOp) (low high : Addr) (s : State) :
    exec (op.toInstr low high) s = runCommand (gateOf op) ⟨low, high⟩ (opEffect op) s := by
  cases op <;> rfl

/-- An executor command on a well-formed pair completes. -/
theorem exec_toInstr_ok {op : ExecOp} {low high : Addr} {s : State} (ok : AddressesOk (s.width (gateOf op)) low high) :
    exec (op.toInstr low high) s = .next { s with env := opEffect op ⟨low, high⟩ s.env, reply := none } := by
  rw [exec_toInstr, runCommand_ok _ ok]

/-! ## Operations that read their operand: memory and trace -/

theorem logicOp_mem (f : Word → Word → Word) (ea : EA) (e : Env) : (logicOp f ea e).mem = e.mem := by simp [logicOp]

theorem logicOp_trace (f : Word → Word → Word) (ea : EA) (e : Env) :
    (logicOp f ea e).trace =
      e.trace ++ [readEvent (width .m e.regs) ea.low ea.high (operandIn e.mem (width .m e.regs) ea)] := by
  simp [logicOp]

/-- The Register File after a logic operation (41_logic.md R140). -/
theorem logicOp_regs (f : Word → Word → Word) (ea : EA) (e : Env) :
    (logicOp f ea e).regs =
      setZN (atWidth (width .m e.regs) e.regs.a (f e.regs.a (operandIn e.mem (width .m e.regs) ea))) (width .m e.regs)
        (writeA (width .m e.regs) (f e.regs.a (operandIn e.mem (width .m e.regs) ea)) e.regs) := by
  simp [logicOp]

theorem arithOp_mem (pre : Width → Word → Word) (acc : Width → Bool → Nat → Nat → Nat → Accumulated) (ea : EA) (e : Env) :
    (arithOp pre acc ea e).mem = e.mem := by
  simp [arithOp]

theorem arithOp_trace (pre : Width → Word → Word) (acc : Width → Bool → Nat → Nat → Nat → Accumulated) (ea : EA)
    (e : Env) :
    (arithOp pre acc ea e).trace =
      e.trace ++ [readEvent (width .m e.regs) ea.low ea.high (operandIn e.mem (width .m e.regs) ea)] := by
  simp [arithOp]

/-- The Register File after ADC or SBC (42_arithmetic.md R150, R153). -/
theorem arithOp_regs (pre : Width → Word → Word) (acc : Width → Bool → Nat → Nat → Nat → Accumulated) (ea : EA)
    (e : Env) :
    (arithOp pre acc ea e).regs =
      finishArith (width .m e.regs) (e.regs.a &&& (width .m e.regs).mask).toNat
        (pre (width .m e.regs) (operandIn e.mem (width .m e.regs) ea)).toNat
        (acc (width .m e.regs) (getDecimalFlag e.regs) (e.regs.a &&& (width .m e.regs).mask).toNat
          (pre (width .m e.regs) (operandIn e.mem (width .m e.regs) ea)).toNat (getCarryFlag e.regs).toNat)
        e.regs := by
  simp [arithOp]

theorem compareOp_mem (g : Gate) (reg : RegFile → Word) (ea : EA) (e : Env) : (compareOp g reg ea e).mem = e.mem := by
  simp [compareOp]

theorem compareOp_trace (g : Gate) (reg : RegFile → Word) (ea : EA) (e : Env) :
    (compareOp g reg ea e).trace =
      e.trace ++ [readEvent (width g e.regs) ea.low ea.high (operandIn e.mem (width g e.regs) ea)] := by
  simp [compareOp]

/-- The Register File after a compare (43_compare_bit.md R170). -/
theorem compareOp_regs (g : Gate) (reg : RegFile → Word) (ea : EA) (e : Env) :
    (compareOp g reg ea e).regs =
      setZN (BitVec.ofNat 16 ((reg e.regs &&& (width g e.regs).mask).toNat +
          (~~~operandIn e.mem (width g e.regs) ea &&& (width g e.regs).mask).toNat + 1)) (width g e.regs)
        (setCarryFlag (decide ((reg e.regs &&& (width g e.regs).mask).toNat +
          (~~~operandIn e.mem (width g e.regs) ea &&& (width g e.regs).mask).toNat + 1 > (width g e.regs).mask.toNat))
          e.regs) := by
  simp only [compareOp, readOperand_fst, readOperand_snd, Env.mapRegs_regs, Env.log_regs]

theorem bitOp_mem (ea : EA) (e : Env) : (bitOp ea e).mem = e.mem := by simp [bitOp]

theorem bitOp_trace (ea : EA) (e : Env) :
    (bitOp ea e).trace =
      e.trace ++ [readEvent (width .m e.regs) ea.low ea.high (operandIn e.mem (width .m e.regs) ea)] := by
  simp [bitOp]

/-! ## What the parts of an operation leave alone -/

/-- A Register File change that keeps what no executor operation writes (10_state.md R33): D, SP, PC, PB, DBR, E and the
flags M, X, D, I. -/
def KeepsMachineRegs (r t : RegFile) : Prop :=
  t.d = r.d ∧ t.sp = r.sp ∧ t.pc = r.pc ∧ t.pb = r.pb ∧ t.dbr = r.dbr ∧ t.e = r.e ∧
    t.flag .m = r.flag .m ∧ t.flag .x = r.flag .x ∧ t.flag .d = r.flag .d ∧ t.flag .i = r.flag .i

theorem KeepsMachineRegs.refl (r : RegFile) : KeepsMachineRegs r r := by simp [KeepsMachineRegs]

theorem KeepsMachineRegs.trans {r t u : RegFile} (h : KeepsMachineRegs r t) (k : KeepsMachineRegs t u) :
    KeepsMachineRegs r u := by
  unfold KeepsMachineRegs at *
  simp_all

theorem keeps_setFlag {f : Flag} (b : Bool) (r : RegFile) (h : f = .n ∨ f = .v ∨ f = .z ∨ f = .c) :
    KeepsMachineRegs r (r.setFlag f b) := by
  rcases h with rfl | rfl | rfl | rfl <;> simp [KeepsMachineRegs, flag_setFlag]

theorem keeps_setZN (v : Word) (w : Width) (r : RegFile) : KeepsMachineRegs r (setZN v w r) := by
  simp [KeepsMachineRegs, flag_setZN]

theorem keeps_writeA (w : Width) (v : Word) (r : RegFile) : KeepsMachineRegs r (writeA w v r) := by
  simp [KeepsMachineRegs]

theorem keeps_finishArith (w : Width) (a v : Nat) (acc : Accumulated) (r : RegFile) :
    KeepsMachineRegs r (finishArith w a v acc r) :=
  (((keeps_setFlag _ r (by simp)).trans (keeps_setFlag _ _ (by simp))).trans (keeps_writeA _ _ _)).trans
    (keeps_setZN _ _ _)

theorem keeps_shiftFlags (w : Width) (out : Bool) (res : Word) (r : RegFile) :
    KeepsMachineRegs r (shiftFlags w out res r).2 :=
  (keeps_setFlag _ r (by simp)).trans (keeps_setZN _ _ _)

/-! ## The read-modify-write operations -/

/-- The data function of a read-modify-write operation. -/
def rmwFn : ExecOp → Option (Width → Word → RegFile → Word × RegFile)
  | .asl => some aslFn
  | .rol => some rolFn
  | .lsr => some lsrFn
  | .ror => some rorFn
  | .inc => some incFn
  | .dec => some decFn
  | .tsb => some tsbFn
  | .trb => some trbFn
  | .and | .eor | .ora | .adc | .sbc | .cmp | .cpx | .cpy | .bit => none
  | .lda | .ldx | .ldy | .sta | .stx | .sty | .stz => none

@[simp] theorem rmwOp_regs (f : Width → Word → RegFile → Word × RegFile) (ea : EA) (e : Env) :
    (rmwOp f ea e).regs = (f (width .m e.regs) (operandIn e.mem (width .m e.regs) ea) e.regs).2 := by
  simp [rmwOp, busIdle]

/-- The bus sequence: read, `Idle`, write (45_rmw.md R200). -/
theorem rmwOp_trace (f : Width → Word → RegFile → Word × RegFile) (ea : EA) (e : Env) :
    (rmwOp f ea e).trace =
      e.trace ++ [readEvent (width .m e.regs) ea.low ea.high (operandIn e.mem (width .m e.regs) ea), .idle false,
        writeEvent (width .m e.regs) ea.low ea.high
          (f (width .m e.regs) (operandIn e.mem (width .m e.regs) ea) e.regs).1] := by
  simp [rmwOp, busIdle, Config.idleArg]

/-- The memory after a read-modify-write operation: the result written to the pair. -/
theorem rmwOp_mem (f : Width → Word → RegFile → Word × RegFile) (ea : EA) (e : Env) :
    (rmwOp f ea e).mem =
      (writeOperand (width .m e.regs) ea (f (width .m e.regs) (operandIn e.mem (width .m e.regs) ea) e.regs).1 e).mem := by
  simp only [rmwOp, busIdle, readOperand_fst, readOperand_snd, Env.log_regs]
  cases width .m e.regs <;> rfl

theorem keeps_rmwFn {op : ExecOp} {f : Width → Word → RegFile → Word × RegFile} (h : rmwFn op = some f) (w : Width)
    (m : Word) (r : RegFile) : KeepsMachineRegs r (f w m r).2 := by
  cases op <;> simp only [rmwFn, Option.some.injEq, reduceCtorEq] at h <;> subst h
  · exact keeps_shiftFlags _ _ _ _
  · exact keeps_shiftFlags _ _ _ _
  · exact keeps_shiftFlags _ _ _ _
  · exact keeps_shiftFlags _ _ _ _
  · exact keeps_setZN _ _ _
  · exact keeps_setZN _ _ _
  · exact keeps_setFlag _ _ (by simp)
  · exact keeps_setFlag _ _ (by simp)

theorem opEffect_of_rmwFn {op : ExecOp} {f : Width → Word → RegFile → Word × RegFile} (h : rmwFn op = some f) :
    opEffect op = rmwOp f := by
  cases op <;> simp only [rmwFn, Option.some.injEq, reduceCtorEq] at h <;> subst h <;> rfl

/-! ## Every operation -/

/-- No executor operation writes D, SP, PC, PB, DBR, E or the flags M, X, D, I (10_state.md R33). -/
theorem opEffect_keeps (op : ExecOp) (ea : EA) (e : Env) : KeepsMachineRegs e.regs (opEffect op ea e).regs := by
  by_cases h : (rmwFn op).isSome
  · obtain ⟨f, hf⟩ := Option.isSome_iff_exists.mp h
    rw [opEffect_of_rmwFn hf, rmwOp_regs]
    exact keeps_rmwFn hf _ _ _
  · have load (v : Word) (w : Width) (r t : RegFile) (h : KeepsMachineRegs r t) : KeepsMachineRegs r (setZN v w t) :=
      h.trans (keeps_setZN _ _ _)
    cases op <;> simp only [rmwFn, Option.isSome_some, Option.isSome_none, not_true_eq_false] at h
    case and => exact load _ _ _ _ (by simpa using keeps_writeA _ _ _)
    case eor => exact load _ _ _ _ (by simpa using keeps_writeA _ _ _)
    case ora => exact load _ _ _ _ (by simpa using keeps_writeA _ _ _)
    case adc => simp only [opEffect, adcOp, arithOp_regs]; exact keeps_finishArith _ _ _ _ _
    case sbc => simp only [opEffect, sbcOp, arithOp_regs]; exact keeps_finishArith _ _ _ _ _
    case cmp => simp only [opEffect, cmpOp, compareOp_regs]; exact load _ _ _ _ (keeps_setFlag _ _ (by simp))
    case cpx => simp only [opEffect, cpxOp, compareOp_regs]; exact load _ _ _ _ (keeps_setFlag _ _ (by simp))
    case cpy => simp only [opEffect, cpyOp, compareOp_regs]; exact load _ _ _ _ (keeps_setFlag _ _ (by simp))
    case bit =>
      simp only [opEffect, bitOp, Env.mapRegs_regs, readOperand_snd, Env.log_regs]
      exact ((keeps_setFlag _ _ (by simp)).trans (keeps_setFlag _ _ (by simp))).trans (keeps_setFlag _ _ (by simp))
    case lda => exact load _ _ _ _ (by simpa using keeps_writeA _ _ _)
    case ldx => exact load _ _ _ _ (by simp [KeepsMachineRegs, RegFile.flag])
    case ldy => exact load _ _ _ _ (by simp [KeepsMachineRegs, RegFile.flag])
    case sta => simp [opEffect, staOp, storeOp, KeepsMachineRegs]
    case stx => simp [opEffect, stxOp, storeOp, KeepsMachineRegs]
    case sty => simp [opEffect, styOp, storeOp, KeepsMachineRegs]
    case stz => simp [opEffect, stzOp, storeOp, KeepsMachineRegs]

/-- What an operation stores, if it stores anything. -/
def storedValue (op : ExecOp) (m : Word) (r : RegFile) : Option Word :=
  match rmwFn op with
  | some f => some (f (width (gateOf op) r) m r).1
  | none =>
    match op with
    | .sta => some r.a
    | .stx => some r.x
    | .sty => some r.y
    | .stz => some 0
    | _ => none

/-- The memory after an operation: what it stores, at its pair, and nothing else. -/
theorem opEffect_mem (op : ExecOp) (ea : EA) (e : Env) :
    (opEffect op ea e).mem =
      match storedValue op (operandIn e.mem (width (gateOf op) e.regs) ea) e.regs with
      | some v => (writeOperand (width (gateOf op) e.regs) ea v e).mem
      | none => e.mem := by
  by_cases h : (rmwFn op).isSome
  · obtain ⟨f, hf⟩ := Option.isSome_iff_exists.mp h
    have hg : gateOf op = .m := by cases op <;> first | rfl | simp [rmwFn] at hf
    simp only [storedValue, hf, hg, opEffect_of_rmwFn hf, rmwOp_mem]
  · cases op <;> simp only [rmwFn, Option.isSome_some, Option.isSome_none, not_true_eq_false] at h <;>
      simp only [storedValue, rmwFn, opEffect]
    case and => exact logicOp_mem _ _ _
    case eor => exact logicOp_mem _ _ _
    case ora => exact logicOp_mem _ _ _
    case adc => exact arithOp_mem _ _ _ _
    case sbc => exact arithOp_mem _ _ _ _
    case cmp => exact compareOp_mem _ _ _ _
    case cpx => exact compareOp_mem _ _ _ _
    case cpy => exact compareOp_mem _ _ _ _
    case bit => exact bitOp_mem _ _
    case lda => simp [ldaOp]
    case ldx => simp [ldxOp]
    case ldy => simp [ldyOp]
    case sta => rfl
    case stx => rfl
    case sty => rfl
    case stz => rfl

/-- Every operation on a well-formed pair keeps memory in canonical form. -/
theorem memWf_opEffect (op : ExecOp) {low high : Addr} {e : Env} (h : memWf e.mem)
    (ok : AddressesOk (width (gateOf op) e.regs) low high) : memWf (opEffect op ⟨low, high⟩ e).mem := by
  rw [opEffect_mem]
  split
  · exact memWf_writeOperand h ok _
  · exact h

/-! ## The Stepper's actions -/

theorem ofGoodPair_ok (w : Width) (p : GoodPair) : AddressesOk w (ofGoodPair p).low (ofGoodPair p).high := by
  have hl : (ofGoodPair p).low.toNat = p.low.toNat := by
    simp only [ofGoodPair, BitVec.toNat_setWidth]; have := p.low.isLt; omega
  have hh : (ofGoodPair p).high.toNat = p.high.toNat := by
    simp only [ofGoodPair, BitVec.toNat_setWidth]; have := p.high.isLt; omega
  have hl' := p.low.isLt
  have hh' := p.high.isLt
  cases w
  · simp only [AddressesOk]; omega
  · refine ⟨by omega, by omega, fun hc => p.distinct (BitVec.eq_of_toNat_eq ?_)⟩
    rw [← hl, ← hh, hc]

theorem memWf_runAction {e : Env} (h : memWf e.mem) (act : StepperAction) : memWf (runAction e act).mem := by
  have bound (a : BitVec 24) : (a.setWidth 32).toNat < addressSpace := by
    have := a.isLt; simp only [BitVec.toNat_setWidth, addressSpace]; omega
  cases act with
  | command op ea => exact memWf_opEffect op (low := (ofGoodPair ea).low) (high := (ofGoodPair ea).high) h (ofGoodPair_ok _ ea)
  | setReg w => exact h
  | readByte a => exact h
  | readWord ea => exact h
  | writeByte a v => exact memWf_memWrite h (bound a) v
  | writeWord ea v => exact memWf_storeWord h (bound ea.low) (bound ea.high) .lowFirst v
  | idle arg => exact h

/-- A Stepper call keeps memory in canonical form. -/
theorem memWf_runActions {e : Env} (h : memWf e.mem) (acts : List StepperAction) : memWf (runActions acts e).mem := by
  induction acts generalizing e with
  | nil => exact h
  | cons act rest ih => exact ih (memWf_runAction h act)

end Sys2Proof.Machine
end

