-- ==== Sys2Proof/Laws/Frames.lean ====
section
/-! SUPPORT. The frame of an executor command, said once: its bus calls, what it stores, and what it leaves alone
(10_state.md R33; 20_memory.md R69; 45_rmw.md R200). -/

namespace Sys2Proof.Machine

/-- The state an executor command ends in, on a well-formed pair. -/
def State.after (op : ExecOp) (low high : Addr) (s : State) : State :=
  { s with env := opEffect op ⟨low, high⟩ s.env, reply := none }

@[simp] theorem State.after_env (op : ExecOp) (low high : Addr) (s : State) :
    (s.after op low high).env = opEffect op ⟨low, high⟩ s.env := rfl

@[simp] theorem State.after_reply (op : ExecOp) (low high : Addr) (s : State) : (s.after op low high).reply = none := rfl

theorem exec_after {op : ExecOp} {low high : Addr} {s : State} (ok : AddressesOk (s.width (gateOf op)) low high) :
    exec (op.toInstr low high) s = .next (s.after op low high) :=
  exec_toInstr_ok ok

theorem keepsController_after (op : ExecOp) (low high : Addr) (s : State) :
    KeepsController s (s.after op low high) := by
  simp [KeepsController, State.after]

/-- The bus calls of every operation (20_memory.md R69): what it stores decides their shape. -/
theorem opEffect_trace (op : ExecOp) (ea : EA) (e : Env) :
    (opEffect op ea e).trace = e.trace ++
      (let w := width (gateOf op) e.regs
       let rd := readEvent w ea.low ea.high (operandIn e.mem w ea)
       match storedValue op (operandIn e.mem w ea) e.regs with
       | none => [rd]
       | some v =>
         if (rmwFn op).isSome then [rd, .idle false, writeEvent w ea.low ea.high v]
         else [writeEvent w ea.low ea.high v]) := by
  by_cases h : (rmwFn op).isSome
  · obtain ⟨f, hf⟩ := Option.isSome_iff_exists.mp h
    have hg : gateOf op = .m := by cases op <;> first | rfl | simp [rmwFn] at hf
    simp only [storedValue, hf, hg, opEffect_of_rmwFn hf, rmwOp_trace, Option.isSome_some, if_true]
  · cases op <;> simp only [rmwFn, Option.isSome_some, Option.isSome_none, not_true_eq_false] at h <;>
      simp only [storedValue, rmwFn, opEffect, Option.isSome_none, Bool.false_eq_true, if_false]
    case and => exact logicOp_trace _ _ _
    case eor => exact logicOp_trace _ _ _
    case ora => exact logicOp_trace _ _ _
    case adc => exact arithOp_trace _ _ _ _
    case sbc => exact arithOp_trace _ _ _ _
    case cmp => exact compareOp_trace _ _ _ _
    case cpx => exact compareOp_trace _ _ _ _
    case cpy => exact compareOp_trace _ _ _ _
    case bit => exact bitOp_trace _ _
    case lda => simp [ldaOp, gateOf]
    case ldx => simp [ldxOp, gateOf]
    case ldy => simp [ldyOp, gateOf]
    case sta => exact writeOperand_trace _ _ _ _
    case stx => exact writeOperand_trace _ _ _ _
    case sty => exact writeOperand_trace _ _ _ _
    case stz => exact writeOperand_trace _ _ _ _

/-- A command that stores nothing leaves every byte of memory alone. -/
theorem keepsMemory_after {op : ExecOp} {low high : Addr} {s : State} (h : ∀ m r, storedValue op m r = none) :
    KeepsMemory s (s.after op low high) := by
  intro a
  simp [State.byte, opEffect_mem, h]

/-- A command that stores `v` stores it at its pair, and nothing else. -/
theorem storesOnly_after {op : ExecOp} {low high : Addr} {s : State} {v : Word} (hm : memWf s.env.mem)
    (ok : AddressesOk (s.width (gateOf op)) low high)
    (h : storedValue op (s.operand (s.width (gateOf op)) low high) s.env.regs = some v) :
    StoresOnly (s.width (gateOf op)) low high v s (s.after op low high) := by
  rw [State.operand_eq, State.width_eq] at h
  have key (k : Nat) : (s.after op low high).byte k =
      if k = low.toNat then v.extractLsb' 0 8
      else if s.width (gateOf op) = .w16 ∧ k = high.toNat then v.extractLsb' 8 8 else s.byte k := by
    rw [State.width_eq] at ok ⊢
    simp only [State.byte, State.after_env, opEffect_mem, h]
    exact memRead_writeOperand hm ok v k
  cases hw : s.width (gateOf op) with
  | w8 =>
    rw [hw] at key
    exact ⟨by simp [key], fun a ha => by simp [key, ha]⟩
  | w16 =>
    rw [hw] at key ok
    have hne : high.toNat ≠ low.toNat := fun hc => ok.2.2 (BitVec.eq_of_toNat_eq hc.symm)
    exact ⟨by simp [key], by simp [key, hne], fun a ha hb => by simp [key, ha, hb]⟩

/-- The frame of a command that stores nothing, but for the registers and flags. -/
theorem readFrame_after {op : ExecOp} {low high : Addr} {s : State} {regs : List RegName} {flags : List Flag}
    (h : ∀ m r, storedValue op m r = none) (hr : KeepsRegsBut regs s (s.after op low high))
    (hf : KeepsFlagsBut flags s (s.after op low high)) :
    ReadFrame (gateOf op) low high regs flags s (s.after op low high) := by
  refine ⟨hr, hf, keepsMemory_after h, ?_, keepsController_after _ _ _ _, rfl⟩
  simp [BusCalls, opEffect_trace, h, State.width_eq, State.operand_eq]

/-- The frame of a store. -/
theorem storeFrame_after {op : ExecOp} {low high : Addr} {s : State} {v : Word} (hm : memWf s.env.mem)
    (ok : AddressesOk (s.width (gateOf op)) low high) (hn : rmwFn op = none)
    (h : storedValue op (s.operand (s.width (gateOf op)) low high) s.env.regs = some v)
    (hr : (s.after op low high).env.regs = s.env.regs) :
    StoreFrame (gateOf op) low high v s (s.after op low high) := by
  refine ⟨fun n _ _ => by rw [hr], fun f _ => by simp only [State.flag, hr], storesOnly_after hm ok h, ?_,
    keepsController_after _ _ _ _, rfl⟩
  rw [State.operand_eq, State.width_eq] at h
  simp [BusCalls, opEffect_trace, h, hn, State.width_eq]

/-- The frame of a read-modify-write command, but for the registers and flags. -/
theorem rmwFrame_after {op : ExecOp} {f : Width → Word → RegFile → Word × RegFile} {low high : Addr} {s : State}
    {flags : List Flag} (hf : rmwFn op = some f) (hm : memWf s.env.mem) (ok : AddressesOk (s.width .m) low high)
    (hr : KeepsRegsBut [] s (s.after op low high)) (hfl : KeepsFlagsBut flags s (s.after op low high)) :
    RmwFrame low high (f (s.width .m) (s.operand (s.width .m) low high) s.env.regs).1 flags s (s.after op low high) := by
  have hg : gateOf op = .m := by cases op <;> first | rfl | simp [rmwFn] at hf
  have hs : storedValue op (s.operand (s.width (gateOf op)) low high) s.env.regs =
      some (f (s.width .m) (s.operand (s.width .m) low high) s.env.regs).1 := by
    simp [storedValue, hf, hg, State.width_eq]
  have hst := storesOnly_after hm (by rw [hg]; exact ok) hs
  rw [hg] at hst
  refine ⟨hr, hfl, hst, ?_, keepsController_after _ _ _ _, rfl⟩
  rw [hg, State.operand_eq, State.width_eq] at hs
  simp [BusCalls, opEffect_trace, hs, hf, hg, State.width_eq, State.operand_eq]

/-- The Register File after a read-modify-write command. -/
theorem after_regs_rmw {op : ExecOp} {f : Width → Word → RegFile → Word × RegFile} (hf : rmwFn op = some f)
    (low high : Addr) (s : State) :
    (s.after op low high).env.regs = (f (s.width .m) (s.operand (s.width .m) low high) s.env.regs).2 := by
  simp [opEffect_of_rmwFn hf, State.width_eq, State.operand_eq]

/-! ## The Register File after a command that stores nothing -/

theorem after_regs_logic {op : ExecOp} {f : Word → Word → Word} (h : opEffect op = logicOp f) (low high : Addr) (s : State) :
    (s.after op low high).env.regs =
      let r := writeA (s.width .m) (f s.env.regs.a (s.operand (s.width .m) low high)) s.env.regs
      setZN r.a (s.width .m) r := by
  simp only [State.after_env, h, logicOp_regs, State.width_eq, State.operand_eq]; rfl

theorem after_regs_arith {op : ExecOp} {pre : Width → Word → Word} {acc : Width → Bool → Nat → Nat → Nat → Accumulated}
    (h : opEffect op = arithOp pre acc) (low high : Addr) (s : State) :
    (s.after op low high).env.regs =
      let w := s.width .m
      let a := (s.env.regs.a &&& w.mask).toNat
      let v := (pre w (s.operand w low high)).toNat
      finishArith w a v (acc w (s.flag .d) a v (s.flag .c).toNat) s.env.regs := by
  simp only [State.after_env, h, arithOp_regs, State.width_eq, State.operand_eq]; rfl

theorem after_regs_compare {op : ExecOp} {g : Gate} {reg : RegFile → Word} (h : opEffect op = compareOp g reg)
    (low high : Addr) (s : State) :
    (s.after op low high).env.regs =
      let w := s.width g
      let r := (reg s.env.regs &&& w.mask).toNat + (~~~s.operand w low high &&& w.mask).toNat + 1
      setZN (BitVec.ofNat 16 r) w (setCarryFlag (decide (r > w.mask.toNat)) s.env.regs) := by
  simp only [State.after_env, h, compareOp_regs, State.width_eq, State.operand_eq]

theorem after_regs_bit (low high : Addr) (s : State) :
    (s.after .bit low high).env.regs =
      let w := s.width .m
      let m := s.operand w low high
      setOverflowFlag (m.getLsbD (w.bits - 2)) (setNegativeFlag (m.getLsbD (w.bits - 1))
        (setZeroFlag ((s.env.regs.a &&& m) &&& w.mask == 0) s.env.regs)) := by
  simp [opEffect, bitOp, State.width_eq, State.operand_eq]

theorem after_regs_lda (low high : Addr) (s : State) :
    (s.after .lda low high).env.regs =
      let r := writeA (s.width .m) (s.operand (s.width .m) low high) s.env.regs
      setZN r.a (s.width .m) r := by
  simp [opEffect, ldaOp, State.width_eq, State.operand_eq]

theorem after_regs_ldx (low high : Addr) (s : State) :
    (s.after .ldx low high).env.regs =
      setZN (s.operand (s.width .x) low high) (s.width .x)
        { s.env.regs with x := s.operand (s.width .x) low high } := by
  simp [opEffect, ldxOp, State.width_eq, State.operand_eq]

theorem after_regs_ldy (low high : Addr) (s : State) :
    (s.after .ldy low high).env.regs =
      setZN (s.operand (s.width .x) low high) (s.width .x)
        { s.env.regs with y := s.operand (s.width .x) low high } := by
  simp [opEffect, ldyOp, State.width_eq, State.operand_eq]

end Sys2Proof.Machine
end

