-- ==== Sys2Proof/Laws/Values.lean ====
section
/-! SUPPORT. Values at a width as numbers: masks, the accumulator's write, Z and N, sign bits (00_scope.md R6;
10_state.md R21; 40_regfile_flags.md R123). -/

namespace Sys2Proof.Machine

/-! ## Masks -/

/-- A masked value as a number. -/
theorem toNat_and_mask (w : Width) (v : Word) : (v &&& w.mask).toNat = lowBits w v := by
  cases w
  · simp only [lowBits, Width.mask, Width.bits, BitVec.toNat_and]
    exact Nat.and_two_pow_sub_one_eq_mod v.toNat 8
  · simp only [lowBits, Width.mask, Width.bits, BitVec.toNat_and]
    exact Nat.and_two_pow_sub_one_eq_mod v.toNat 16

theorem lowBits_lt (w : Width) (v : Word) : lowBits w v < 2 ^ w.bits := Nat.mod_lt _ (by cases w <;> decide)

/-- Z of `SetZN` (R123). -/
theorem and_mask_eq_zero (w : Width) (v : Word) : (v &&& w.mask == 0) = true ↔ lowBits w v = 0 := by
  rw [beq_iff_eq, ← toNat_and_mask, ← BitVec.toNat_inj]
  simp

/-- The complement at a width (R6). -/
theorem toNat_not_and_mask (w : Width) (v : Word) (h : v.toNat < 2 ^ w.bits) :
    (~~~v &&& w.mask).toNat = 2 ^ w.bits - 1 - v.toNat := by
  rw [toNat_and_mask, lowBits, BitVec.toNat_not]
  have := v.isLt
  cases w <;> simp only [Width.bits] at * <;> omega

/-- The memory operand fits the width (44_load_store.md R188). -/
theorem operandIn_lt (m : Memory) (w : Width) (ea : EA) : (operandIn m w ea).toNat < 2 ^ w.bits := by
  cases w
  · exact operandIn_w8_lt m ea
  · exact (operandIn m .w16 ea).isLt

theorem State.operand_lt (s : State) (w : Width) (low high : Addr) : (s.operand w low high).toNat < 2 ^ w.bits := by
  rw [State.operand_eq]; exact operandIn_lt _ _ _

theorem lowBits_of_lt {w : Width} {v : Word} (h : v.toNat < 2 ^ w.bits) : lowBits w v = v.toNat := Nat.mod_eq_of_lt h

/-! ## The accumulator's write -/

theorem toNat_atWidth_w8 (old v : Word) : (atWidth .w8 old v).toNat = old.toNat / 256 * 256 + v.toNat % 256 := by
  have h : atWidth .w8 old v = old.extractLsb' 8 8 ++ v.extractLsb' 0 8 := by
    apply BitVec.eq_of_getLsbD_eq
    intro i hi
    have ho : (0xFF00 : Word).getLsbD i = decide (8 ≤ i) := by revert i; decide
    have hv : (0x00FF : Word).getLsbD i = decide (i < 8) := by revert i; decide
    simp only [atWidth, BitVec.getLsbD_or, BitVec.getLsbD_and, BitVec.getLsbD_append, BitVec.getLsbD_extractLsb', ho, hv]
    by_cases h8 : i < 8
    · simp [h8, show ¬(8 ≤ i) by omega]
    · simp [h8, show 8 ≤ i by omega, show i - 8 < 8 by omega, show 8 + (i - 8) = i by omega]
  rw [h, BitVec.toNat_append, ← Nat.shiftLeft_add_eq_or_of_lt (by exact (v.extractLsb' 0 8).isLt), Nat.shiftLeft_eq,
    BitVec.extractLsb'_toNat, BitVec.extractLsb'_toNat]
  have := old.isLt
  simp only [Nat.shiftRight_eq_div_pow]
  omega

@[simp] theorem lowBits_atWidth (w : Width) (old v : Word) : lowBits w (atWidth w old v) = lowBits w v := by
  cases w
  · simp only [lowBits, Width.bits, toNat_atWidth_w8]; omega
  · rfl

theorem high_atWidth_w8 (old v : Word) : (atWidth .w8 old v).extractLsb' 8 8 = old.extractLsb' 8 8 := by
  apply BitVec.eq_of_toNat_eq
  rw [BitVec.extractLsb'_toNat, BitVec.extractLsb'_toNat, toNat_atWidth_w8]
  simp only [Nat.shiftRight_eq_div_pow]
  omega

/-- A bit inside the width is that of the value written. -/
theorem getLsbD_of_lowBits_eq {w : Width} {u v : Word} (h : lowBits w u = lowBits w v) {i : Nat} (hi : i < w.bits) :
    u.getLsbD i = v.getLsbD i := by
  have := congrArg (fun n => n.testBit i) h
  simpa [lowBits, Nat.testBit_mod_two_pow, hi, BitVec.testBit_toNat] using this

/-! ## Z and N -/

theorem width_signBit_eq (w : Width) : w.signBit = w.bits - 1 := by cases w <;> rfl

theorem width_signBit_lt (w : Width) : w.signBit < w.bits := by cases w <;> decide

/-- The Register File after `SetZN v w` shows Z and N of `v` (R123). -/
theorem znFrom_of_regs {t : State} {w : Width} {v : Word} {r : RegFile} (h : t.env.regs = setZN v w r) : t.ZNFrom w v := by
  constructor
  · rw [State.flag, h, flag_z_setZN]; exact and_mask_eq_zero w v
  · rw [State.flag, h, flag_n_setZN, width_signBit_eq]

/-- Z and N depend on the selected width only. -/
theorem znFrom_congr {t : State} {w : Width} {u v : Word} (h : lowBits w u = lowBits w v) (k : t.ZNFrom w u) :
    t.ZNFrom w v := by
  refine ⟨?_, ?_⟩
  · rw [k.1]; exact iff_of_eq (congrArg (· = 0) h)
  · rw [k.2, getLsbD_of_lowBits_eq h (by rw [← width_signBit_eq]; exact width_signBit_lt w)]

/-- The top bit of a value below `2^n` as a comparison. -/
theorem getLsbD_top {w : Width} {v : Word} (h : v.toNat < 2 ^ w.bits) :
    v.getLsbD (w.bits - 1) = decide (2 ^ (w.bits - 1) ≤ v.toNat) := by
  rw [← BitVec.testBit_toNat, Nat.testBit_eq_decide_div_mod_eq]
  cases w <;> simp only [Width.bits] at * <;> congr 1 <;> simp only [eq_iff_iff] <;> omega

theorem getLsbD_top_ofNat (w : Width) (n : Nat) :
    (BitVec.ofNat 16 n).getLsbD (w.bits - 1) = decide (2 ^ (w.bits - 1) ≤ n % 2 ^ w.bits) := by
  rw [← BitVec.testBit_toNat, BitVec.toNat_ofNat, Nat.testBit_eq_decide_div_mod_eq]
  cases w <;> simp only [Width.bits] at * <;> congr 1 <;> simp only [eq_iff_iff] <;> omega

theorem lowBits_ofNat (w : Width) (n : Nat) : lowBits w (BitVec.ofNat 16 n) = n % 2 ^ w.bits := by
  rw [lowBits, BitVec.toNat_ofNat]
  cases w <;> simp only [Width.bits] <;> omega

theorem lowBits_ofInt (w : Width) (r : Int) : (lowBits w (BitVec.ofInt 16 r) : Int) = r % 2 ^ w.bits := by
  rw [lowBits, BitVec.toNat_ofInt]
  cases w <;> simp only [Width.bits] <;> omega

/-- A write of `A` at a width, with Z and N set from it (10_state.md R21; 40_regfile_flags.md R123). -/
theorem accGets {w : Width} {v : Word} {s t : State} {r : RegFile}
    (h : t.env.regs = setZN r.a w r) (ha : r.a = atWidth w s.env.regs.a v) : AccumulatorGets w v s t := by
  have e : t.env.regs.a = r.a := by rw [h]; rfl
  refine ⟨by rw [e, ha]; simp, ?_, by rw [e]; exact znFrom_of_regs h⟩
  intro hw; rw [e, ha, hw]; exact high_atWidth_w8 _ _

end Sys2Proof.Machine
end

