-- ==== Sys2Proof/Laws/Arith.lean ====
section
/-! SUPPORT. ADC and SBC as integers: the overflow rule, the nibble-group stages, and what they come to on valid BCD
(42_arithmetic.md R150 to R162). -/

namespace Sys2Proof.Machine

/-- The sign bit of an integer, in two spellings. -/
theorem intBit_eq (w : Width) (r : Int) : intBit r w.signBit = signBit w r := by
  have h0 : (0:Int) ≤ r % 4294967296 := by omega
  rw [intBit, Nat.testBit_eq_decide_div_mod_eq, signBit]
  congr 1
  rw [eq_iff_iff]
  cases w <;> simp only [Width.signBit, Width.bits] <;> omega

/-- The sign bit of a number, in two spellings. -/
theorem testBit_eq {w : Width} {n : Nat} : n.testBit w.signBit = signBit w n := by
  rw [Nat.testBit_eq_decide_div_mod_eq, signBit]
  congr 1
  rw [eq_iff_iff]
  cases w <;> simp only [Width.signBit, Width.bits] <;> omega

/-- The overflow rule, in two spellings (R152). -/
theorem overflow_iff (w : Width) (a v : Nat) (r : Int) : overflow w a v r = true ↔ Overflows w a v r := by
  simp only [overflow, testBit_eq, intBit_eq, Overflows, Bool.and_eq_true, beq_iff_eq, bne_iff_ne, ne_eq]
  exact and_congr_right fun _ => not_congr eq_comm

/-- What ADC or SBC does, said once for both (R150, R152, R153): the outcome as integers, and the frame. -/
theorem exec_arith {op : ExecOp} {pre : Width → Word → Word} {acc : Width → Bool → Nat → Nat → Nat → Accumulated}
    (h : opEffect op = arithOp pre acc) (hg : gateOf op = .m) (hs : ∀ m r, storedValue op m r = none)
    (s : State) (low high : Addr) (ok : AddressesOk (s.width .m) low high) :
    ∃ t, exec (op.toInstr low high) s = .next t ∧
      let w := s.width .m
      let a := lowBits w s.env.regs.a
      let v := (pre w (s.operand w low high)).toNat
      let acc := acc w (s.flag .d) a v (s.flag .c).toNat
      Accumulates a v acc.before acc.after low high s t := by
  have e := after_regs_arith h low high s
  dsimp only at e
  rw [toNat_and_mask] at e
  refine ⟨_, exec_after (by rw [hg]; exact ok), ?_⟩
  dsimp only
  generalize acc (s.width .m) (s.flag .d) (lowBits (s.width .m) s.env.regs.a) (pre (s.width .m) (s.operand (s.width .m) low high)).toNat (s.flag .c).toNat = q at *
  generalize (pre (s.width .m) (s.operand (s.width .m) low high)).toNat = v at *
  obtain ⟨g1, g2, g3⟩ := accGets (s := s) (v := BitVec.ofInt 16 q.after) e rfl
  refine ⟨?_, g2, ?_, ?_, g3, ?_⟩
  · rw [g1, lowBits_ofInt]
  · rw [State.flag, e, finishArith, flag_setZN_other _ _ _ (by decide) (by decide), writeA_flag, setCarryFlag, flag_setFlag_same, decide_eq_true_iff]
    have h8 : (0x00FF : Word).toNat = 255 := rfl
    have h16 : (0xFFFF : Word).toNat = 65535 := rfl
    cases s.width .m <;> simp only [Width.mask, Width.bits, h8, h16] <;> omega
  · rw [State.flag, e, finishArith, flag_setZN_other _ _ _ (by decide) (by decide), writeA_flag, setCarryFlag, flag_setFlag_other _ _ (by decide), setOverflowFlag, flag_setFlag_same, overflow_iff]
  · rw [← hg]
    refine readFrame_after hs ?_ ?_
    · intro n hp hn
      cases n <;> simp_all [RegFile.read, finishArith, setCarryFlag, setOverflowFlag]
    · intro f hn
      simp only [List.mem_cons, not_or] at hn
      simp only [State.flag, e, finishArith, flag_setZN_other _ _ _ hn.1 hn.2.2.1, writeA_flag, setCarryFlag, setOverflowFlag, flag_setFlag_other _ _ hn.2.1, flag_setFlag_other _ _ hn.2.2.2.1]

/-- A nibble mask selects a nibble group. -/
theorem mask_group (k : Nat) (v : Nat) : v &&& (0xF * 16^k) = nibbleGroup k v := by
  apply Nat.eq_of_testBit_eq
  intro i
  have h : v / 16 ^ k % 16 * 16 ^ k = (v >>> (4*k) % 2^4) <<< (4*k) := by
    rw [Nat.shiftLeft_eq, Nat.shiftRight_eq_div_pow, Nat.pow_mul]; norm_num
  have h2 : 0xF * 16^k = (2^4-1) <<< (4*k) := by rw [Nat.shiftLeft_eq, Nat.pow_mul]; norm_num
  rw [nibbleGroup, h, h2, Nat.testBit_and, Nat.testBit_shiftLeft, Nat.testBit_shiftLeft, Nat.testBit_mod_two_pow, Nat.testBit_shiftRight, Nat.testBit_two_pow_sub_one]
  by_cases hi : 4*k ≤ i
  · simp [hi, Bool.and_comm]
  · simp [hi]

/-- The correction of ADC on natural numbers. -/
theorem adcFix_nat (k : Nat) (r : Nat) : adcFix k (r : Int) = ((if r > 10 * 16 ^k - 1 then (r + 6*16^k) ||| 16^(k+1) else r : Nat) : Int) := by
  have : 0 < 16^k := by positivity
  simp only [adcFix, Int.toNat_natCast]
  by_cases hr : 10 * 16^k ≤ r
  · rw [if_pos (by exact_mod_cast hr), if_pos (by omega)]
  · rw [if_neg (by exact_mod_cast hr), if_neg (by omega)]

/-- `AdcDec8` is the two-group stage (R155). -/
theorem adc_w8 (a v c : Nat) : stages adcFix a v c 1 = (adcDec8 a v c : Int) := by
  have h0 := mask_group 0 a; have h1 := mask_group 1 a; have h0' := mask_group 0 v; have h1' := mask_group 1 v
  norm_num at h0 h1 h0' h1'
  simp only [stages, adcDec8, h0, h1, h0', h1', adcFix_nat, ← Nat.cast_add]
  norm_num

/-- `AdcDec16` is the four-group stage (R156). -/
theorem adc_w16 (a v c : Nat) : stages adcFix a v c 3 = (adcDec16 a v c : Int) := by
  have h0 := mask_group 0 a; have h1 := mask_group 1 a; have h0' := mask_group 0 v; have h1' := mask_group 1 v
  have h2 := mask_group 2 a; have h3 := mask_group 3 a; have h2' := mask_group 2 v; have h3' := mask_group 3 v
  norm_num at h0 h1 h0' h1' h2 h3 h2' h3'
  simp only [stages, adcDec16, h0, h1, h0', h1', h2, h3, h2', h3', adcFix_nat, ← Nat.cast_add]
  norm_num

/-- `SbcDec8` is the two-group stage (R159). -/
theorem sbc_w8 (a v c : Nat) : stages sbcFix a v c 1 = sbcDec8 a v c := by
  have h0 := mask_group 0 a; have h1 := mask_group 1 a; have h0' := mask_group 0 v; have h1' := mask_group 1 v
  norm_num at h0 h1 h0' h1'
  simp only [stages, sbcFix, sbcDec8, h0, h1, h0', h1']
  norm_num

/-- `SbcDec16` is the four-group stage (R160). -/
theorem sbc_w16 (a v c : Nat) : stages sbcFix a v c 3 = sbcDec16 a v c := by
  have h0 := mask_group 0 a; have h1 := mask_group 1 a; have h0' := mask_group 0 v; have h1' := mask_group 1 v
  have h2 := mask_group 2 a; have h3 := mask_group 3 a; have h2' := mask_group 2 v; have h3' := mask_group 3 v
  norm_num at h0 h1 h0' h1' h2 h3 h2' h3'
  simp only [stages, sbcFix, sbcDec16, h0, h1, h0', h1', h2, h3, h2', h3']
  norm_num

/-- The accumulation of ADC, by nibble groups (R154 to R157). -/
theorem adcAccumulate_eq (w : Width) (d : Bool) (a v c : Nat) :
    (adcAccumulate w d a v c).before = (if d then stages adcFix a v c (digits w - 1) else (a + v + c : Nat)) ∧
    (adcAccumulate w d a v c).after =
      (if d = true ∧ 10 * 16 ^ (digits w - 1) ≤ (adcAccumulate w d a v c).before
        then (adcAccumulate w d a v c).before + 6 * 16 ^ (digits w - 1) else (adcAccumulate w d a v c).before) := by
  cases d
  · cases w <;> exact ⟨rfl, rfl⟩
  · cases w
    · refine ⟨(adc_w8 a v c).symm, ?_⟩
      simp only [adcAccumulate, digits, true_and]
      generalize adcDec8 a v c = r
      norm_num
      split <;> split <;> first | rfl | omega
    · refine ⟨(adc_w16 a v c).symm, ?_⟩
      simp only [adcAccumulate, digits, true_and]
      generalize adcDec16 a v c = r
      norm_num
      split <;> split <;> first | rfl | omega

/-- The accumulation of SBC, by nibble groups (R158 to R160). -/
theorem sbcAccumulate_eq (w : Width) (d : Bool) (a v c : Nat) :
    (sbcAccumulate w d a v c).before = (if d then stages sbcFix a v c (digits w - 1) else (a + v + c : Nat)) ∧
    (sbcAccumulate w d a v c).after =
      (if d then sbcFix (digits w - 1) (sbcAccumulate w d a v c).before else (sbcAccumulate w d a v c).before) := by
  cases d
  · cases w <;> exact ⟨rfl, rfl⟩
  · cases w
    · refine ⟨(sbc_w8 a v c).symm, ?_⟩
      simp only [sbcAccumulate, digits, sbcFix]
      norm_num
    · refine ⟨(sbc_w16 a v c).symm, ?_⟩
      simp only [sbcAccumulate, digits, sbcFix]
      norm_num

/-- The overflow rule as comparisons. -/
theorem overflows_def (w : Width) (a v : Nat) (r : Int) : Overflows w a v r ↔
    ((2 ^ (w.bits - 1) ≤ (a : Int) % 2 ^ w.bits) ↔ (2 ^ (w.bits - 1) ≤ (v : Int) % 2 ^ w.bits)) ∧
    ¬((2 ^ (w.bits - 1) ≤ r % 2 ^ w.bits) ↔ (2 ^ (w.bits - 1) ≤ (v : Int) % 2 ^ w.bits)) := by
  have (x y : Int) : signBit w x = signBit w y ↔ ((2 ^ (w.bits - 1) ≤ x % 2 ^ w.bits) ↔ (2 ^ (w.bits - 1) ≤ y % 2 ^ w.bits)) := by
    rw [signBit, signBit]; exact decide_eq_decide
  rw [Overflows, ne_eq, this, this]

/-- Signed overflow of a sum (R161). -/
theorem overflows_add {w : Width} {a m c : Nat} (ha : a < 2 ^ w.bits) (hm : m < 2 ^ w.bits) (hc : c ≤ 1) :
    Overflows w a m (a + m + c : Nat) ↔ ¬SignedFits w (signed w a + signed w m + c) := by
  rw [overflows_def]
  simp only [SignedFits, signed]
  have split : (if a < 2 ^ (w.bits - 1) then (a : Int) else (a : Int) - 2 ^ w.bits) = a ∧ a < 2 ^ (w.bits - 1) ∨ (if a < 2 ^ (w.bits - 1) then (a : Int) else (a : Int) - 2 ^ w.bits) = a - 2 ^ w.bits ∧ ¬ a < 2 ^ (w.bits - 1) := by
    by_cases h : a < 2 ^ (w.bits - 1) <;> simp [h]
  have split' : (if m < 2 ^ (w.bits - 1) then (m : Int) else (m : Int) - 2 ^ w.bits) = m ∧ m < 2 ^ (w.bits - 1) ∨ (if m < 2 ^ (w.bits - 1) then (m : Int) else (m : Int) - 2 ^ w.bits) = m - 2 ^ w.bits ∧ ¬ m < 2 ^ (w.bits - 1) := by
    by_cases h : m < 2 ^ (w.bits - 1) <;> simp [h]
  rcases split with ⟨e, h⟩ | ⟨e, h⟩ <;> rcases split' with ⟨e', h'⟩ | ⟨e', h'⟩ <;> rw [e, e'] <;> clear e e' <;>
    cases w <;> simp only [Width.bits] at * <;> omega

/-- Signed overflow of a difference (R161). -/
theorem overflows_sub {w : Width} {a m c : Nat} (ha : a < 2 ^ w.bits) (hm : m < 2 ^ w.bits) (hc : c ≤ 1) :
    Overflows w a (2 ^ w.bits - 1 - m) (a + (2 ^ w.bits - 1 - m) + c : Nat) ↔ ¬SignedFits w (signed w a - signed w m - (1 - c)) := by
  rw [overflows_def]
  simp only [SignedFits, signed]
  have split : (if a < 2 ^ (w.bits - 1) then (a : Int) else (a : Int) - 2 ^ w.bits) = a ∧ a < 2 ^ (w.bits - 1) ∨ (if a < 2 ^ (w.bits - 1) then (a : Int) else (a : Int) - 2 ^ w.bits) = a - 2 ^ w.bits ∧ ¬ a < 2 ^ (w.bits - 1) := by
    by_cases h : a < 2 ^ (w.bits - 1) <;> simp [h]
  have split' : (if m < 2 ^ (w.bits - 1) then (m : Int) else (m : Int) - 2 ^ w.bits) = m ∧ m < 2 ^ (w.bits - 1) ∨ (if m < 2 ^ (w.bits - 1) then (m : Int) else (m : Int) - 2 ^ w.bits) = m - 2 ^ w.bits ∧ ¬ m < 2 ^ (w.bits - 1) := by
    by_cases h : m < 2 ^ (w.bits - 1) <;> simp [h]
  rcases split with ⟨e, h⟩ | ⟨e, h⟩ <;> rcases split' with ⟨e', h'⟩ | ⟨e', h'⟩ <;> rw [e, e'] <;> clear e e' <;>
    cases w <;> simp only [Width.bits] at * <;> omega

/-- Adding the top bit is setting it. -/
theorem or_top {p y : Nat} (n : Nat) (h : y < 2 ^ n) (hp : p = 2 ^ n + y) : p ||| 2 ^ n = p := by
  subst hp
  have : 2 ^ n + y = 2 ^ n ||| y := by
    have := Nat.shiftLeft_add_eq_or_of_lt (a := 1) h
    simpa [Nat.shiftLeft_eq] using this
  rw [this, Nat.or_right_comm, Nat.or_self]

/-- One correction of ADC on a digit. -/
theorem adcFix_step (k x B : Nat) (hB : B < 16 ^ k) (hx : x ≤ 19) :
    adcFix k ((x * 16 ^ k + B : Nat) : Int) = ((if 10 ≤ x then (x - 10) * 16 ^ k + 16 ^ (k + 1) + B else x * 16 ^ k + B : Nat) : Int) := by
  rw [adcFix_nat]
  congr 1
  have hp : 16 ^ (k + 1) = 2 ^ (4 * (k + 1)) := by rw [Nat.pow_mul]
  by_cases h : 10 ≤ x
  · obtain ⟨y, rfl⟩ := Nat.exists_eq_add_of_le h
    have h2 : (10 + y) * 16 ^ k = 10 * 16 ^ k + y * 16 ^ k := by ring
    have h4 : 16 ^ (k + 1) = 16 * 16 ^ k := by ring
    have h5 : y * 16 ^ k ≤ 9 * 16 ^ k := Nat.mul_le_mul_right _ (by omega)
    rw [if_pos h, if_pos (by omega), Nat.add_sub_cancel_left]
    have := or_top (p := (10 + y) * 16 ^ k + B + 6 * 16 ^ k) (y := y * 16 ^ k + B) (4 * (k + 1)) (by rw [← hp]; omega) (by rw [← hp]; omega)
    rw [← hp] at this
    rw [this]; omega
  · have h5 : x * 16 ^ k ≤ 9 * 16 ^ k := Nat.mul_le_mul_right _ (by omega)
    rw [if_neg h, if_neg (by omega)]

/-- One correction of SBC on a digit. -/
theorem sbcFix_step (k x B : Nat) (hB : B < 16 ^ k) (hx : 6 ≤ x) :
    sbcFix k ((x * 16 ^ k + B : Nat) : Int) = ((if x < 16 then (x - 6) * 16 ^ k + B else x * 16 ^ k + B : Nat) : Int) := by
  obtain ⟨y, rfl⟩ := Nat.exists_eq_add_of_le hx
  have h4 : 16 ^ (k + 1) = 16 * 16 ^ k := by ring
  have h2 : (6 + y) * 16 ^ k = 6 * 16 ^ k + y * 16 ^ k := by ring
  have h6 : ((16 : Int) ^ (k + 1)) = ((16 * 16 ^ k : Nat) : Int) := by push_cast; ring
  rw [sbcFix, h6, Nat.add_sub_cancel_left]
  by_cases h : 6 + y < 16
  · have h5 : y * 16 ^ k ≤ 9 * 16 ^ k := Nat.mul_le_mul_right _ (by omega)
    rw [if_pos h, if_pos (by norm_cast; omega), h2]; push_cast; ring
  · have h5 : 10 * 16 ^ k ≤ y * 16 ^ k := Nat.mul_le_mul_right _ (by omega)
    rw [if_neg h, if_neg (by norm_cast; omega)]

/-- One corrected digit of ADC and its carry. -/
theorem adc_carry (k x B : Nat) (hB : B < 16 ^ k) (hx : x ≤ 19) :
    ∃ d cy, d ≤ 9 ∧ cy ≤ 1 ∧ x = d + 10 * cy ∧ adcFix k ((x * 16 ^ k + B : Nat) : Int) = (((d + 16 * cy) * 16 ^ k + B : Nat) : Int) := by
  rw [adcFix_step k x B hB hx]
  by_cases h : 10 ≤ x
  · refine ⟨x - 10, 1, by omega, by omega, by omega, ?_⟩
    rw [if_pos h]; congr 1; ring
  · refine ⟨x, 0, by omega, by omega, by omega, ?_⟩
    rw [if_neg h]; congr 1

/-- One corrected digit of SBC and its carry. -/
theorem sbc_carry (k x B : Nat) (hB : B < 16 ^ k) (hx : 6 ≤ x) (hx' : x ≤ 25) :
    ∃ d cy, d ≤ 9 ∧ cy ≤ 1 ∧ x = d + 6 + 10 * cy ∧ sbcFix k ((x * 16 ^ k + B : Nat) : Int) = (((d + 16 * cy) * 16 ^ k + B : Nat) : Int) := by
  rw [sbcFix_step k x B hB hx]
  by_cases h : x < 16
  · refine ⟨x - 6, 0, by omega, by omega, by omega, ?_⟩
    rw [if_pos h]; congr 1
  · refine ⟨x - 16, 1, by omega, by omega, by omega, ?_⟩
    rw [if_neg h]; congr 1; have : x = (x - 16) + 16 := by omega
    rw [← this]

/-- The last corrected digit of ADC and its carry (R157). -/
theorem adc_final (k x B : Nat) (hB : B < 16 ^ k) (hx : x ≤ 19) (r : Int) (hr : r = ((x * 16 ^ k + B : Nat) : Int)) :
    ∃ d cy, d ≤ 9 ∧ cy ≤ 1 ∧ x = d + 10 * cy ∧ (if 10 * 16 ^ k ≤ r then r + 6 * 16 ^ k else r) = (((d + 16 * cy) * 16 ^ k + B : Nat) : Int) := by
  subst hr
  obtain ⟨d, cy, h1, h2, h3, h4⟩ := adc_carry k x B hB hx
  refine ⟨d, cy, h1, h2, h3, ?_⟩
  rw [h3]
  have hc : cy = 0 ∨ cy = 1 := by omega
  rcases hc with rfl | rfl
  · have h5 : d * 16 ^ k ≤ 9 * 16 ^ k := Nat.mul_le_mul_right _ (by omega)
    rw [if_neg (by norm_cast; simp only [Nat.mul_zero, Nat.add_zero]; omega)]
  · rw [if_pos]
    · push_cast; ring
    · norm_cast
      have h5 : 10 * 16 ^ k ≤ (d + 10 * 1) * 16 ^ k := Nat.mul_le_mul_right _ (by omega)
      omega

/-- Two packed digits. -/
theorem toBcd2 (d0 d1 : Nat) (h0 : d0 ≤ 9) (h1 : d1 ≤ 9) : toBcd 2 (d0 + 10 * d1) = d0 + 16 * d1 := by
  have e1 : (d0 + 10 * d1) % 10 = d0 := by omega
  have e1' : (d0 + 10 * d1) / 10 = d1 := by omega
  have e4 : d1 % 10 = d1 := by omega
  simp only [toBcd, e1, e1', e4]; omega

/-- Three packed digits are below 4096. -/
theorem bound3 {d0 d1 d2 : Nat} (h0 : d0 ≤ 9) (h1 : d1 ≤ 9) (h2 : d2 ≤ 9) : d0 + 16 * d1 + 256 * d2 < 16 ^ 3 := by omega

/-- Two packed digits are below 256. -/
theorem bound2 {d0 d1 : Nat} (h0 : d0 ≤ 9) (h1 : d1 ≤ 9) : d0 + 16 * d1 < 16 ^ 2 := by omega

/-- A complemented digit sum stays in range. -/
theorem borrow {a m c : Nat} (ha : a ≤ 9) (hm : m ≤ 9) (hc : c ≤ 1) : 6 ≤ a + (15 - m) + c ∧ a + (15 - m) + c ≤ 25 := by omega

/-- Decimal ADC on two digits (R162). -/
theorem adc_law8 (a m c : Nat) (hc : c ≤ 1) (va : ValidBcd 2 a) (vm : ValidBcd 2 m) :
    let r := stages adcFix a m c 1
    ∃ N : Nat, (if 10 * 16 ^ 1 ≤ r then r + 6 * 16 ^ 1 else r) = N ∧ N % 256 = toBcd 2 ((ofBcd 2 a + ofBcd 2 m + c) % 100) ∧
      (256 ≤ N ↔ 100 ≤ ofBcd 2 a + ofBcd 2 m + c) := by
  simp only [ValidBcd, and_true] at va vm
  obtain ⟨d0, c1, h1, h2, h3, h4⟩ := adc_carry 0 (a % 16 + m % 16 + c) 0 (by norm_num) (by omega)
  have e : stages adcFix a m c 1 = (((a / 16 % 16 + m / 16 % 16 + c1) * 16 ^ 1 + d0 : Nat) : Int) := by
    have e0 : stages adcFix a m c 0 = (((a % 16 + m % 16 + c) * 16 ^ 0 + 0 : Nat) : Int) := by simp [stages, nibbleGroup]
    rw [stages, e0, h4]
    simp only [nibbleGroup]; push_cast; ring
  obtain ⟨d1, c2, k1, k2, k3, k4⟩ := adc_final 1 (a / 16 % 16 + m / 16 % 16 + c1) d0 (by omega) (by omega) _ e
  have S : ofBcd 2 a + ofBcd 2 m + c = (d0 + 10 * d1) + 100 * c2 := by
    simp only [ofBcd]
    clear k4 e h4 va vm
    generalize a / 16 % 16 = a1 at *; generalize m / 16 % 16 = m1 at *; generalize a % 16 = a0 at *; generalize m % 16 = m0 at *
    omega
  refine ⟨_, k4, ?_, ?_⟩
  all_goals clear k4 e h4 k3 h3 va vm
  · rw [S, show (d0 + 10 * d1 + 100 * c2) % 100 = d0 + 10 * d1 by omega, toBcd2 _ _ h1 k1]; omega
  · rw [S]; omega

/-- Four packed digits. -/
theorem toBcd4 (d0 d1 d2 d3 : Nat) (h0 : d0 ≤ 9) (h1 : d1 ≤ 9) (h2 : d2 ≤ 9) (h3 : d3 ≤ 9) :
    toBcd 4 (d0 + 10 * d1 + 100 * d2 + 1000 * d3) = d0 + 16 * d1 + 256 * d2 + 4096 * d3 := by
  have e1 : (d0 + 10 * d1 + 100 * d2 + 1000 * d3) % 10 = d0 := by omega
  have e1' : (d0 + 10 * d1 + 100 * d2 + 1000 * d3) / 10 = d1 + 10 * d2 + 100 * d3 := by omega
  have e2 : (d1 + 10 * d2 + 100 * d3) % 10 = d1 := by omega
  have e2' : (d1 + 10 * d2 + 100 * d3) / 10 = d2 + 10 * d3 := by omega
  have e3 : (d2 + 10 * d3) % 10 = d2 := by omega
  have e3' : (d2 + 10 * d3) / 10 = d3 := by omega
  have e4 : d3 % 10 = d3 := by omega
  simp only [toBcd, e1, e1', e2, e2', e3, e3', e4]; omega

/-- The number four packed digits encode. -/
theorem ofBcd4 (v : Nat) : ofBcd 4 v = v % 16 + 10 * (v / 16 % 16) + 100 * (v / 256 % 16) + 1000 * (v / 4096 % 16) := by
  simp only [ofBcd, Nat.div_div_eq_div_mul]; norm_num
  generalize v / 16 % 16 = a1; generalize v % 16 = a0; generalize v / 256 % 16 = a2; generalize v / 4096 % 16 = a3
  omega

/-- Decimal ADC on four digits (R162). -/
theorem adc_law16 (a m c : Nat) (hc : c ≤ 1) (va : ValidBcd 4 a) (vm : ValidBcd 4 m) :
    let r := stages adcFix a m c 3
    ∃ N : Nat, (if 10 * 16 ^ 3 ≤ r then r + 6 * 16 ^ 3 else r) = N ∧ N % 65536 = toBcd 4 ((ofBcd 4 a + ofBcd 4 m + c) % 10000) ∧
      (65536 ≤ N ↔ 10000 ≤ ofBcd 4 a + ofBcd 4 m + c) := by
  simp only [ValidBcd, and_true, Nat.div_div_eq_div_mul] at va vm
  norm_num at va vm
  obtain ⟨d0, c1, h1, h2, h3, h4⟩ := adc_carry 0 (a % 16 + m % 16 + c) 0 (by norm_num) (by omega)
  have e1 : stages adcFix a m c 1 = (((a / 16 % 16 + m / 16 % 16 + c1) * 16 ^ 1 + d0 : Nat) : Int) := by
    have e0 : stages adcFix a m c 0 = (((a % 16 + m % 16 + c) * 16 ^ 0 + 0 : Nat) : Int) := by simp [stages, nibbleGroup]
    rw [stages, e0, h4]
    simp only [nibbleGroup]; push_cast; ring
  obtain ⟨d1, c2, i1, i2, i3, i4⟩ := adc_carry 1 (a / 16 % 16 + m / 16 % 16 + c1) d0 (by omega) (by omega)
  have e2 : stages adcFix a m c 2 = (((a / 256 % 16 + m / 256 % 16 + c2) * 16 ^ 2 + (d0 + 16 * d1) : Nat) : Int) := by
    rw [stages, e1, i4]
    simp only [nibbleGroup]; push_cast; ring
  obtain ⟨d2, c3, j1, j2, j3, j4⟩ := adc_carry 2 (a / 256 % 16 + m / 256 % 16 + c2) (d0 + 16 * d1) (by omega) (by omega)
  have e3 : stages adcFix a m c 3 = (((a / 4096 % 16 + m / 4096 % 16 + c3) * 16 ^ 3 + (d0 + 16 * d1 + 256 * d2) : Nat) : Int) := by
    rw [stages, e2, j4]
    simp only [nibbleGroup]; push_cast; ring
  obtain ⟨d3, c4, k1, k2, k3, k4⟩ := adc_final 3 (a / 4096 % 16 + m / 4096 % 16 + c3) (d0 + 16 * d1 + 256 * d2) (bound3 h1 i1 j1) (by omega) _ e3
  have S : ofBcd 4 a + ofBcd 4 m + c = (d0 + 10 * d1 + 100 * d2 + 1000 * d3) + 10000 * c4 := by
    rw [ofBcd4, ofBcd4]
    clear k4 e1 e2 e3 h4 i4 j4 va vm
    generalize a / 16 % 16 = a1 at *; generalize m / 16 % 16 = m1 at *; generalize a % 16 = a0 at *; generalize m % 16 = m0 at *
    generalize a / 256 % 16 = a2 at *; generalize m / 256 % 16 = m2 at *; generalize a / 4096 % 16 = a3 at *; generalize m / 4096 % 16 = m3 at *
    omega
  refine ⟨_, k4, ?_, ?_⟩
  all_goals clear k4 e1 e2 e3 h4 i4 j4 va vm h3 i3 j3 k3
  · rw [S, show ((d0 + 10 * d1 + 100 * d2 + 1000 * d3) + 10000 * c4) % 10000 = d0 + 10 * d1 + 100 * d2 + 1000 * d3 by omega, toBcd4 _ _ _ _ h1 i1 j1 k1]
    omega
  · rw [S]; omega

/-- Decimal SBC on two digits (R162). -/
theorem sbc_law8 (a m c : Nat) (hm : m < 256) (hc : c ≤ 1) (va : ValidBcd 2 a) (vm : ValidBcd 2 m) :
    ∃ N : Nat, sbcFix 1 (stages sbcFix a (255 - m) c 1) = N ∧ N % 256 = toBcd 2 (((ofBcd 2 a : Int) - ofBcd 2 m - (1 - c)) % 100).toNat ∧
      (256 ≤ N ↔ 0 ≤ (ofBcd 2 a : Int) - ofBcd 2 m - (1 - c)) := by
  simp only [ValidBcd, and_true] at va vm
  have n0 : (255 - m) % 16 = 15 - m % 16 := by omega
  have n1 : (255 - m) / 16 % 16 = 15 - m / 16 % 16 := by omega
  obtain ⟨d0, c1, h1, h2, h3, h4⟩ := sbc_carry 0 (a % 16 + (15 - m % 16) + c) 0 (by norm_num) (by omega) (by omega)
  have e : stages sbcFix a (255 - m) c 1 = (((a / 16 % 16 + (15 - m / 16 % 16) + c1) * 16 ^ 1 + d0 : Nat) : Int) := by
    have e0 : stages sbcFix a (255 - m) c 0 = (((a % 16 + (15 - m % 16) + c) * 16 ^ 0 + 0 : Nat) : Int) := by
      rw [stages, nibbleGroup, nibbleGroup, ← n0]; simp
    rw [stages, e0, h4]
    simp only [nibbleGroup, ← n1]; push_cast; ring
  obtain ⟨d1, c2, k1, k2, k3, k4⟩ := sbc_carry 1 (a / 16 % 16 + (15 - m / 16 % 16) + c1) d0 (by omega) (by omega) (by omega)
  have S : (ofBcd 2 a : Int) - ofBcd 2 m - (1 - c) = (d0 + 10 * d1 : Nat) + 100 * (c2 : Int) - 100 := by
    simp only [ofBcd]
    clear k4 e h4 n0 n1
    generalize a / 16 % 16 = a1 at *; generalize m / 16 % 16 = m1 at *; generalize a % 16 = a0 at *; generalize m % 16 = m0 at *
    omega
  refine ⟨_, by rw [e, k4], ?_, ?_⟩
  all_goals clear k4 e h4 k3 h3 va vm n0 n1
  · rw [S, show (((d0 + 10 * d1 : Nat) : Int) + 100 * (c2 : Int) - 100) % 100 = (d0 + 10 * d1 : Nat) by omega, Int.toNat_natCast, toBcd2 _ _ h1 k1]
    omega
  · rw [S]; omega

/-- Decimal SBC on four digits (R162). -/
theorem sbc_law16 (a m c : Nat) (hm : m < 65536) (hc : c ≤ 1) (va : ValidBcd 4 a) (vm : ValidBcd 4 m) :
    ∃ N : Nat, sbcFix 3 (stages sbcFix a (65535 - m) c 3) = N ∧ N % 65536 = toBcd 4 (((ofBcd 4 a : Int) - ofBcd 4 m - (1 - c)) % 10000).toNat ∧
      (65536 ≤ N ↔ 0 ≤ (ofBcd 4 a : Int) - ofBcd 4 m - (1 - c)) := by
  simp only [ValidBcd, and_true, Nat.div_div_eq_div_mul] at va vm
  norm_num at va vm
  have n0 : (65535 - m) % 16 = 15 - m % 16 := by omega
  have n1 : (65535 - m) / 16 % 16 = 15 - m / 16 % 16 := by omega
  have n2 : (65535 - m) / 256 % 16 = 15 - m / 256 % 16 := by omega
  have n3 : (65535 - m) / 4096 % 16 = 15 - m / 4096 % 16 := by omega
  obtain ⟨d0, c1, h1, h2, h3, h4⟩ := sbc_carry 0 (a % 16 + (15 - m % 16) + c) 0 (by norm_num) (by omega) (by omega)
  have e1 : stages sbcFix a (65535 - m) c 1 = (((a / 16 % 16 + (15 - m / 16 % 16) + c1) * 16 ^ 1 + d0 : Nat) : Int) := by
    have e0 : stages sbcFix a (65535 - m) c 0 = (((a % 16 + (15 - m % 16) + c) * 16 ^ 0 + 0 : Nat) : Int) := by
      rw [stages, nibbleGroup, nibbleGroup, ← n0]; simp
    rw [stages, e0, h4]
    simp only [nibbleGroup, ← n1]; push_cast; ring
  obtain ⟨d1, c2, i1, i2, i3, i4⟩ := sbc_carry 1 (a / 16 % 16 + (15 - m / 16 % 16) + c1) d0 (by omega) (by omega) (by omega)
  have e2 : stages sbcFix a (65535 - m) c 2 = (((a / 256 % 16 + (15 - m / 256 % 16) + c2) * 16 ^ 2 + (d0 + 16 * d1) : Nat) : Int) := by
    rw [stages, e1, i4]
    simp only [nibbleGroup, ← n2]; push_cast; ring
  obtain ⟨d2, c3, j1, j2, j3, j4⟩ := sbc_carry 2 (a / 256 % 16 + (15 - m / 256 % 16) + c2) (d0 + 16 * d1) (bound2 h1 i1) (borrow va.2.2.1 vm.2.2.1 i2).1 (borrow va.2.2.1 vm.2.2.1 i2).2
  have e3 : stages sbcFix a (65535 - m) c 3 = (((a / 4096 % 16 + (15 - m / 4096 % 16) + c3) * 16 ^ 3 + (d0 + 16 * d1 + 256 * d2) : Nat) : Int) := by
    rw [stages, e2, j4]
    simp only [nibbleGroup, ← n3]; push_cast; ring
  obtain ⟨d3, c4, k1, k2, k3, k4⟩ := sbc_carry 3 (a / 4096 % 16 + (15 - m / 4096 % 16) + c3) (d0 + 16 * d1 + 256 * d2) (bound3 h1 i1 j1) (borrow va.2.2.2 vm.2.2.2 j2).1 (borrow va.2.2.2 vm.2.2.2 j2).2
  have S : (ofBcd 4 a : Int) - ofBcd 4 m - (1 - c) = (d0 + 10 * d1 + 100 * d2 + 1000 * d3 : Nat) + 10000 * (c4 : Int) - 10000 := by
    rw [ofBcd4, ofBcd4]
    clear k4 e1 e2 e3 h4 i4 j4 n0 n1 n2 n3
    generalize a / 16 % 16 = a1 at *; generalize m / 16 % 16 = m1 at *; generalize a % 16 = a0 at *; generalize m % 16 = m0 at *
    generalize a / 256 % 16 = a2 at *; generalize m / 256 % 16 = m2 at *; generalize a / 4096 % 16 = a3 at *; generalize m / 4096 % 16 = m3 at *
    omega
  refine ⟨_, by rw [e3, k4], ?_, ?_⟩
  all_goals clear k4 e1 e2 e3 h4 i4 j4 va vm h3 i3 j3 k3 n0 n1 n2 n3
  · rw [S, show (((d0 + 10 * d1 + 100 * d2 + 1000 * d3 : Nat) : Int) + 10000 * (c4 : Int) - 10000) % 10000 = (d0 + 10 * d1 + 100 * d2 + 1000 * d3 : Nat) by omega, Int.toNat_natCast, toBcd4 _ _ _ _ h1 i1 j1 k1]
    omega
  · rw [S]; omega

end Sys2Proof.Machine
end

