-- ==== Sys2Proof/Laws/Classifier.lean ====
section
/-! SUPPORT. What the classifier's functions answer (46_classifier.md R230 to R237). -/

namespace Sys2Proof.Machine

theorem isCall_iff (op : Byte) : isCall op = true ↔ op = 0x20 ∨ op = 0x22 ∨ op = 0xFC := by
  simp [isCall, or_assoc]

theorem isReturn_iff (op : Byte) : isReturn op = true ↔ op = 0x60 ∨ op = 0x6B ∨ op = 0x40 := by
  simp [isReturn, or_assoc]

/-- No opcode is a call and a return (R237). -/
theorem isReturn_of_isCall {op : Byte} (h : isCall op = true) : isReturn op = false := by
  rcases (isCall_iff op).mp h with rfl | rfl | rfl <;> decide

/-- The size of a call opcode is 3, or 4 for JSL (R234). -/
theorem instructionSize_of_isCall {op : Byte} (h : isCall op = true) :
    instructionSize op = if op = 0x22 then 4 else 3 := by
  rcases (isCall_iff op).mp h with rfl | rfl | rfl <;> decide

theorem pcGetter_toNat (r : RegFile) : (pcGetter r).toNat = r.pb.toNat * 65536 + r.pc.toNat := by
  have hb := r.pb.isLt
  have hp := r.pc.isLt
  have : (pcGetter r) = (0#8 ++ r.pb ++ r.pc : BitVec (8 + 8 + 16)) := by
    apply BitVec.eq_of_getLsbD_eq
    intro i hi
    simp only [pcGetter, BitVec.getLsbD_or, BitVec.getLsbD_shiftLeft, BitVec.getLsbD_setWidth, BitVec.getLsbD_append]
    by_cases h1 : i < 16
    · simp [h1, hi]
    · have : r.pc.getLsbD i = false := BitVec.getLsbD_of_ge _ _ (by omega)
      by_cases h2 : i - 16 < 8
      · have : i - 16 < 32 := by omega
        simp_all
      · have : r.pb.getLsbD (i - 16) = false := BitVec.getLsbD_of_ge _ _ (by omega)
        simp_all
  rw [this, BitVec.toNat_append, BitVec.toNat_append, Nat.shiftLeft_eq, ← Nat.shiftLeft_eq]
  rw [← Nat.shiftLeft_add_eq_or_of_lt hp, Nat.shiftLeft_eq]
  simp

/-- `PcGetter` returns a combined address (47_step_controller.md R282). -/
theorem pcGetter_combined (r : RegFile) : Combined (pcGetter r) := by
  have hb := r.pb.isLt
  have hp := r.pc.isLt
  simp only [Combined, pcGetter_toNat, addressSpace]
  omega

theorem combined_and {a m : Addr} (h : Combined m) : Combined (a &&& m) := by
  simp only [Combined, BitVec.toNat_and] at *
  exact Nat.lt_of_le_of_lt Nat.and_le_right h

theorem combined_or {a b : Addr} (ha : Combined a) (hb : Combined b) : Combined (a ||| b) := by
  simp only [Combined, BitVec.toNat_or] at *
  exact Nat.or_lt_two_pow (n := 24) ha hb

theorem combined_byte (b : Byte) : Combined (b.setWidth 32) := by
  have := b.isLt
  simp only [Combined, BitVec.toNat_setWidth, addressSpace]
  omega

theorem combined_byte_shift8 (b : Byte) : Combined (b.setWidth 32 <<< 8) := by
  have := b.isLt
  simp only [Combined, BitVec.toNat_shiftLeft, BitVec.toNat_setWidth, addressSpace, Nat.shiftLeft_eq]
  omega

theorem combined_byte_shift16 (b : Byte) : Combined (b.setWidth 32 <<< 16) := by
  have := b.isLt
  simp only [Combined, BitVec.toNat_shiftLeft, BitVec.toNat_setWidth, addressSpace, Nat.shiftLeft_eq]
  omega

/-- A return address is combined (46_classifier.md R235). -/
theorem calculateReturnAddress_combined (pc : Addr) (op : Byte) : Combined (calculateReturnAddress pc op) := by
  unfold calculateReturnAddress
  split
  · exact combined_and (by decide)
  · exact combined_or (combined_and (by decide)) (combined_and (by decide))

/-- A call target is combined (46_classifier.md R236). -/
theorem calculateCallTarget_combined (rd : Addr → Byte) (pc : Addr) (op : Byte) :
    Combined (calculateCallTarget rd pc op) := by
  unfold calculateCallTarget
  split
  · exact combined_or (combined_or (combined_and (by decide)) (combined_byte_shift8 _)) (combined_byte _)
  · split
    · exact combined_or (combined_or (combined_byte_shift16 _) (combined_byte_shift8 _)) (combined_byte _)
    · decide

/-- Inside the space `Reader` returns what memory holds (20_memory.md R80). -/
theorem reader_of_combined {k : Nat} {m : Memory} {a : Addr} (h : Combined a) : reader k m a = memRead m a.toNat := by
  simp only [reader]; rw [if_pos h]

/-- The opcode byte at the current PC is a byte of memory. -/
theorem reader_pcGetter (s : State) : s.reader s.pcGetter = s.byte s.pcGetter.toNat :=
  reader_of_combined (pcGetter_combined _)

end Sys2Proof.Machine
end

