-- ==== Sys2Proof/Laws/Controller.lean ====
section
/-! SUPPORT. What the Step Controller's commands do, said once for StepInto and once for each loop
(47_step_controller.md R285 to R293). -/

namespace Sys2Proof.Machine

/-! ## Observing an opcode -/

theorem observe_call {pc : Addr} {op : Byte} (s : State) (h : isCall op = true) :
    observe pc op s =
      ⟨{ s with callStack := s.callStack ++ [callEntry s pc op], calls := s.calls ++ callTargetCalls s pc op },
        some (callEntry s pc op), none⟩ := by
  simp [observe, h]

theorem observe_return {pc : Addr} {op : Byte} (s : State) (h : isReturn op = true) (hd : 0 < s.depth) :
    observe pc op s = ⟨{ s with callStack := s.callStack.dropLast }, none, s.callStack.getLast?⟩ := by
  have hc : isCall op = false := by
    cases hc : isCall op with
    | false => rfl
    | true => rw [isReturn_of_isCall hc] at h; cases h
  simp [observe, h, hc, hd]

theorem observe_other {pc : Addr} {op : Byte} (s : State) (hc : isCall op = false)
    (hr : isReturn op = false ∨ s.depth = 0) : observe pc op s = ⟨s, none, none⟩ := by
  rcases hr with h | h <;> simp [observe, h, hc]

/-- Everything an observation can do: it touches the call stack and the record of contract calls only. -/
theorem observe_cases (pc : Addr) (op : Byte) (s : State) :
    (isCall op = true ∧ observe pc op s =
      ⟨{ s with callStack := s.callStack ++ [callEntry s pc op], calls := s.calls ++ callTargetCalls s pc op },
        some (callEntry s pc op), none⟩) ∨
    (isReturn op = true ∧ 0 < s.depth ∧
      observe pc op s = ⟨{ s with callStack := s.callStack.dropLast }, none, s.callStack.getLast?⟩) ∨
    (isCall op = false ∧ (isReturn op = false ∨ s.depth = 0) ∧ observe pc op s = ⟨s, none, none⟩) := by
  cases hc : isCall op with
  | true => exact .inl ⟨rfl, observe_call s hc⟩
  | false =>
    cases hr : isReturn op with
    | false => exact .inr (.inr ⟨rfl, .inl rfl, observe_other s hc (.inl hr)⟩)
    | true =>
      by_cases hd : 0 < s.depth
      · exact .inr (.inl ⟨rfl, hd, observe_return s hr hd⟩)
      · exact .inr (.inr ⟨rfl, .inr (by omega), observe_other s hc (.inr (by omega))⟩)

/-! ## StepInto -/

theorem stepInto_unconfigured (stp : Stepper) {s : State} (h : s.configured = false) : stepInto stp s = (configError, s) := by
  simp [stepInto, h]

theorem stepInto_configured (stp : Stepper) {s : State} (h : s.configured = true) : stepInto stp s = stepOnce stp s := by
  simp [stepInto, h]

/-- The fields that no step command changes. -/
def SameSettings (s t : State) : Prop :=
  t.cfgReader = s.cfgReader ∧ t.cfgStepper = s.cfgStepper ∧ t.cfgPc = s.cfgPc ∧ t.inbox = s.inbox ∧
    t.queryPc = s.queryPc ∧ t.reply = s.reply

theorem SameSettings.refl (s : State) : SameSettings s s := by simp [SameSettings]

theorem SameSettings.trans {s t u : State} (h : SameSettings s t) (k : SameSettings t u) : SameSettings s u := by
  unfold SameSettings at *; simp_all

theorem SameSettings.configured {s t : State} (h : SameSettings s t) : t.configured = s.configured := by
  unfold SameSettings at h; simp [State.configured, h]

theorem sameSettings_observe (pc : Addr) (op : Byte) (s : State) : SameSettings s (observe pc op s).state := by
  rcases observe_cases pc op s with ⟨-, h⟩ | ⟨-, -, h⟩ | ⟨-, -, h⟩ <;> rw [h] <;> simp [SameSettings]

theorem sameSettings_stepOnce (stp : Stepper) (s : State) : SameSettings s (stepOnce stp s).2 := by
  have := sameSettings_observe s.pcGetter (s.reader s.pcGetter)
    (s.logCalls [.pcGetter s.pcGetter, .reader s.pcGetter (s.reader s.pcGetter)])
  simpa [stepOnce, SameSettings] using this

theorem sameSettings_stepInto (stp : Stepper) (s : State) : SameSettings s (stepInto stp s).2 := by
  unfold stepInto
  split
  · exact sameSettings_stepOnce stp s
  · exact .refl s

theorem configured_stepInto (stp : Stepper) (s : State) : (stepInto stp s).2.configured = s.configured :=
  (sameSettings_stepInto stp s).configured

@[simp] theorem observe_env (pc : Addr) (op : Byte) (s : State) : (observe pc op s).state.env = s.env := by
  rcases observe_cases pc op s with ⟨-, h⟩ | ⟨-, -, h⟩ | ⟨-, -, h⟩ <;> rw [h]

@[simp] theorem observe_freeCount (pc : Addr) (op : Byte) (s : State) : (observe pc op s).state.freeCount = s.freeCount := by
  rcases observe_cases pc op s with ⟨-, h⟩ | ⟨-, -, h⟩ | ⟨-, -, h⟩ <;> rw [h]

theorem callEntry_wf {s : State} {pc : Addr} (h : Combined pc) (op : Byte) : (callEntry s pc op).Wf :=
  ⟨h, calculateCallTarget_combined _ _ _, calculateReturnAddress_combined _ _, rfl⟩

/-- A step keeps the invariant. -/
theorem inv_stepOnce (stp : Stepper) {s : State} (h : s.Inv) : (stepOnce stp s).2.Inv := by
  refine ⟨?_, ?_⟩
  · simpa [stepOnce] using memWf_runActions h.1 _
  · intro c hc
    simp only [stepOnce, State.logCalls_callStack, callStepper_callStack] at hc
    rcases observe_cases s.pcGetter (s.reader s.pcGetter)
      (s.logCalls [.pcGetter s.pcGetter, .reader s.pcGetter (s.reader s.pcGetter)]) with
      ⟨-, ho⟩ | ⟨-, -, ho⟩ | ⟨-, -, ho⟩ <;> rw [ho] at hc
    · simp only [State.logCalls_callStack, List.mem_append, List.mem_singleton] at hc
      rcases hc with hc | rfl
      · exact h.2 c hc
      · exact callEntry_wf (pcGetter_combined _) _
    · exact h.2 c (List.dropLast_subset _ hc)
    · exact h.2 c hc

theorem inv_stepInto (stp : Stepper) {s : State} (h : s.Inv) : (stepInto stp s).2.Inv := by
  unfold stepInto
  split
  · exact inv_stepOnce stp h
  · exact h

/-! ## The loops: an invariant of StepInto is one of every command -/

/-- Induction over a command: what StepInto keeps, and recording contract calls keeps, the loop of StepOver keeps. -/
theorem stepOverLoop_keeps {P : State → Prop} (stp : Stepper) (d0 : Nat) (call : Option CallStackEntry)
    (hstep : ∀ s, P s → P (stepInto stp s).2) (hlog : ∀ cs s, P s → P (s.logCalls cs)) (left n : Nat)
    (ret : Option CallStackEntry) (s : State) (h : P s) : P (stepOverLoop stp d0 call left n ret s).2 := by
  induction left generalizing n ret s with
  | zero =>
    unfold stepOverLoop finishWith
    split <;> exact hlog _ _ h
  | succ left ih =>
    unfold stepOverLoop finishWith
    split
    · exact hlog _ _ h
    · exact ih _ _ _ (hstep s h)

theorem stepOver_keeps {P : State → Prop} (stp : Stepper) (max : BitVec 32)
    (hstep : ∀ s, P s → P (stepInto stp s).2) (hlog : ∀ cs s, P s → P (s.logCalls cs)) {s : State} (h : P s) :
    P (stepOver stp max s).2 := by
  unfold stepOver
  split
  · dsimp only
    split
    · exact stepOverLoop_keeps stp _ _ hstep hlog _ _ _ _ (hstep _ (hlog _ _ h))
    · exact hstep _ (hlog _ _ h)
  · exact h

theorem stepOutLoop_keeps {P : State → Prop} (stp : Stepper) (target : Nat)
    (hstep : ∀ s, P s → P (stepInto stp s).2) (hlog : ∀ cs s, P s → P (s.logCalls cs)) (left n : Nat) (s : State)
    (h : P s) : P (stepOutLoop stp target left n s).2 := by
  induction left generalizing n s with
  | zero => exact hlog _ _ h
  | succ left ih =>
    unfold stepOutLoop finishWith
    dsimp only
    split
    · exact hlog _ _ (hstep s h)
    · exact ih _ _ (hstep s h)

theorem stepOut_keeps {P : State → Prop} (stp : Stepper) (max : BitVec 32)
    (hstep : ∀ s, P s → P (stepInto stp s).2) (hlog : ∀ cs s, P s → P (s.logCalls cs)) {s : State} (h : P s) :
    P (stepOut stp max s).2 := by
  unfold stepOut
  split
  · split
    · exact hlog _ _ h
    · exact stepOutLoop_keeps stp _ hstep hlog _ _ _ h
  · exact h

end Sys2Proof.Machine
end

