-- ==== Sys2Proof/Laws/Loops.lean ====
section
/-! SUPPORT. StepInto in full, and what the loops of StepOver and StepOut come to after a number of StepIntos
(47_step_controller.md R285 to R293). -/

namespace Sys2Proof.Machine

/-! ## The record of contract calls is not read -/

@[simp] theorem State.forgetCalls_logCalls (cs : List ContractCall) (s : State) :
    (s.logCalls cs).forgetCalls = s.forgetCalls := rfl
@[simp] theorem State.forgetCalls_depth (s : State) : s.forgetCalls.depth = s.depth := rfl
@[simp] theorem State.forgetCalls_pcGetter (s : State) : s.forgetCalls.pcGetter = s.pcGetter := rfl
@[simp] theorem State.forgetCalls_opcode (s : State) : s.forgetCalls.opcode = s.opcode := rfl
@[simp] theorem State.forgetCalls_configured (s : State) : s.forgetCalls.configured = s.configured := rfl

theorem configured_iff (s : State) : s.configured = true ↔ Configured s := by
  simp [State.configured, Configured, and_assoc]

theorem configured_eq_false (s : State) : s.configured = false ↔ ¬Configured s := by
  rw [← configured_iff]; simp

/-- The opcode that StepInto looks at. -/
theorem reader_eq_opcode (s : State) : s.reader s.pcGetter = s.opcode := reader_pcGetter s

/-! ## StepInto -/

/-- What one step does to the call stack, and the event it reports (R285). -/
def stackAfter (s : State) : List CallStackEntry × Option CallStackEntry × Option CallStackEntry :=
  if isCall s.opcode then
    (s.callStack ++ [callEntry s s.pcGetter s.opcode], some (callEntry s s.pcGetter s.opcode), none)
  else if isReturn s.opcode && s.depth > 0 then (s.callStack.dropLast, none, s.callStack.getLast?)
  else (s.callStack, none, none)

theorem observe_eq (cs : List ContractCall) (s : State) :
    let o := observe s.pcGetter s.opcode (s.logCalls cs)
    o.call = (stackAfter s).2.1 ∧ o.ret = (stackAfter s).2.2 ∧
      o.state = { s with
        callStack := (stackAfter s).1
        calls := s.calls ++ cs ++ (if isCall s.opcode then callTargetCalls s s.pcGetter s.opcode else []) } := by
  rcases observe_cases s.pcGetter s.opcode (s.logCalls cs) with ⟨hc, ho⟩ | ⟨hr, hd, ho⟩ | ⟨hc, hr, ho⟩
  · have hs : stackAfter s = (s.callStack ++ [callEntry s s.pcGetter s.opcode],
        some (callEntry s s.pcGetter s.opcode), none) := by simp [stackAfter, hc]
    rw [ho, hs, hc]
    exact ⟨rfl, rfl, rfl⟩
  · have hc : isCall s.opcode = false := by
      cases hc : isCall s.opcode with
      | false => rfl
      | true => rw [isReturn_of_isCall hc] at hr; cases hr
    have hs : stackAfter s = (s.callStack.dropLast, none, s.callStack.getLast?) := by
      simp only [State.logCalls_depth] at hd; simp [stackAfter, hc, hr, hd]
    rw [ho, hs, hc]
    exact ⟨rfl, rfl, by simp⟩
  · have hs : stackAfter s = (s.callStack, none, none) := by
      rcases hr with hr | hr
      · simp [stackAfter, hc, hr]
      · simp only [State.logCalls_depth] at hr; simp [stackAfter, hc, hr]
    rw [ho, hs, hc]
    exact ⟨rfl, rfl, by simp [State.logCalls]⟩

/-- StepInto of a configured controller, field by field (R285). -/
theorem stepInto_eq (stp : Stepper) {s : State} (h : s.configured = true) :
    stepInto stp s =
      (let env := runActions (stp s.freeCount s.env.regs s.env.mem) s.env
       (succeed (pcGetter env.regs) 1 (stackAfter s).2.1 (stackAfter s).2.2,
        { s with
          env := env
          callStack := (stackAfter s).1
          calls := s.calls ++ [.pcGetter s.pcGetter, .reader s.pcGetter s.opcode] ++
            (if isCall s.opcode then callTargetCalls s s.pcGetter s.opcode else []) ++
            [.stepper, .pcGetter (pcGetter env.regs)]
          freeCount := s.freeCount + 1 })) := by
  rw [stepInto_configured stp h]
  obtain ⟨h1, h2, h3⟩ := observe_eq [.pcGetter s.pcGetter, .reader s.pcGetter s.opcode] s
  simp only [stepOnce, reader_eq_opcode, h1, h2, h3]
  simp [callStepper, State.logCalls, State.pcGetter]

theorem depth_stackAfter (s : State) :
    (stackAfter s).1.length =
      if isCall s.opcode then s.depth + 1 else if isReturn s.opcode then s.depth - 1 else s.depth := by
  unfold stackAfter
  split
  · simp [State.depth]
  · by_cases hr : isReturn s.opcode = true
    · by_cases hd : s.depth > 0
      · simp [hr, hd]; rfl
      · simp [hr, hd]; simp only [State.depth] at *; omega
    · simp [hr]; rfl

/-- The depth after a step (R291). -/
theorem depth_stepInto (stp : Stepper) {s : State} (h : s.configured = true) :
    (stepInto stp s).2.depth =
      if isCall s.opcode then s.depth + 1 else if isReturn s.opcode then s.depth - 1 else s.depth := by
  rw [stepInto_eq stp h]; exact depth_stackAfter s

/-- A step that lowers the depth by one reports the entry popped (R285). -/
theorem ret_of_depth_lt (stp : Stepper) {s : State} (h : s.configured = true) (hd : (stepInto stp s).2.depth < s.depth) :
    (stepInto stp s).2.depth = s.depth - 1 ∧ ∃ e, (stepInto stp s).1.ret = some e ∧ s.callStack = s.callStack.dropLast ++ [e] := by
  have hdep := depth_stepInto stp h
  rw [hdep] at hd ⊢
  split at hd
  · omega
  · rename_i hc
    split at hd
    · rename_i hr
      have hpos : 0 < s.depth := by omega
      have hne : s.callStack ≠ [] := by intro hc; simp [State.depth, hc] at hpos
      refine ⟨by simp [hc, hr], s.callStack.getLast hne, ?_, (List.dropLast_append_getLast hne).symm⟩
      rw [stepInto_eq stp h]
      simp [succeed, stackAfter, hc, hr, hpos, List.getLast?_eq_some_getLast hne]
    · omega

/-- A step does not read the record of contract calls. -/
theorem stepInto_forgetCalls (stp : Stepper) {s t : State} (h : s.forgetCalls = t.forgetCalls) :
    (stepInto stp s).1 = (stepInto stp t).1 ∧
      (stepInto stp s).2.forgetCalls = (stepInto stp t).2.forgetCalls := by
  have ht : t = { s with calls := t.calls } := by
    cases s; cases t; simp only [State.forgetCalls, State.mk.injEq] at h ⊢
    obtain ⟨h1, h2, h3, h4, h5, -, h7, h8, h9, h10⟩ := h
    simp_all
  cases hc : s.configured with
  | false =>
    have hc' : t.configured = false := by rw [ht]; exact hc
    rw [stepInto_unconfigured stp hc, stepInto_unconfigured stp hc']
    exact ⟨rfl, h⟩
  | true =>
    have hc' : t.configured = true := by rw [ht]; exact hc
    rw [stepInto_eq stp hc, stepInto_eq stp hc', ht]
    exact ⟨rfl, rfl⟩

/-! ## Several steps -/

@[simp] theorem stepIntos_zero (stp : Stepper) (s : State) : stepIntos stp 0 s = s := rfl

theorem stepIntos_succ (stp : Stepper) (k : Nat) (s : State) :
    stepIntos stp (k + 1) s = stepIntos stp k (stepInto stp s).2 := rfl

theorem stepIntos_succ' (stp : Stepper) (k : Nat) (s : State) :
    stepIntos stp (k + 1) s = (stepInto stp (stepIntos stp k s)).2 := by
  induction k generalizing s with
  | zero => rfl
  | succ k ih => rw [stepIntos_succ, ih, ← stepIntos_succ]

theorem sameSettings_stepIntos (stp : Stepper) (k : Nat) (s : State) : SameSettings s (stepIntos stp k s) := by
  induction k with
  | zero => exact .refl s
  | succ k ih => rw [stepIntos_succ']; exact ih.trans (sameSettings_stepInto stp _)

theorem stepIntos_forgetCalls (stp : Stepper) {s t : State} (h : s.forgetCalls = t.forgetCalls) (k : Nat) :
    (stepIntos stp k s).forgetCalls = (stepIntos stp k t).forgetCalls := by
  induction k with
  | zero => exact h
  | succ k ih => rw [stepIntos_succ', stepIntos_succ']; exact (stepInto_forgetCalls stp ih).2

theorem depth_of_forgetCalls {s t : State} (h : s.forgetCalls = t.forgetCalls) : s.depth = t.depth := by
  rw [← State.forgetCalls_depth, h, State.forgetCalls_depth]

theorem pcGetter_of_forgetCalls {s t : State} (h : s.forgetCalls = t.forgetCalls) : s.pcGetter = t.pcGetter := by
  rw [← State.forgetCalls_pcGetter, h, State.forgetCalls_pcGetter]

/-! ## The loop of StepOver (R287) -/

/-- The event that the last of `j` steps reports; `ret` when there is none. -/
def lastRet (stp : Stepper) (j : Nat) (ret : Option CallStackEntry) (s : State) : Option CallStackEntry :=
  match j with
  | 0 => ret
  | k + 1 => (stepInto stp (stepIntos stp k s)).1.ret

theorem lastRet_succ (stp : Stepper) (j : Nat) (ret : Option CallStackEntry) (s : State) :
    lastRet stp (j + 1) ret s = lastRet stp j (stepInto stp s).1.ret (stepInto stp s).2 := by
  cases j <;> rfl

/-- The loop ends with success at the first state whose depth is back, if the budget reaches it. -/
theorem stepOverLoop_success (stp : Stepper) (d0 : Nat) (call : Option CallStackEntry) {j left : Nat} (n : Nat)
    (ret : Option CallStackEntry) (s : State) (hj : j ≤ left) (above : ∀ k, k < j → d0 < (stepIntos stp k s).depth)
    (back : (stepIntos stp j s).depth ≤ d0) :
    stepOverLoop stp d0 call left n ret s =
      finishWith (fun pc => succeed pc (n + j) call (lastRet stp j ret s)) (stepIntos stp j s) := by
  induction j generalizing n ret s left with
  | zero =>
    simp only [stepIntos_zero] at back
    cases left <;> simp [stepOverLoop, back, lastRet]
  | succ j ih =>
    obtain ⟨left, rfl⟩ : ∃ l, left = l + 1 := ⟨left - 1, by omega⟩
    have h0 := above 0 (by omega)
    simp only [stepIntos_zero] at h0
    rw [stepOverLoop, if_neg (by omega)]
    dsimp only
    rw [ih (n + 1) _ _ (by omega) (fun k hk => above (k + 1) (by omega)) back, lastRet_succ]
    simp only [Nat.add_right_comm n 1 j, Nat.add_assoc, stepIntos_succ]

/-- The loop ends with a timeout when the budget is used up and the depth was never back. -/
theorem stepOverLoop_timeout (stp : Stepper) (d0 : Nat) (call : Option CallStackEntry) {left : Nat} (n : Nat)
    (ret : Option CallStackEntry) (s : State) (above : ∀ k, k ≤ left → d0 < (stepIntos stp k s).depth) :
    stepOverLoop stp d0 call left n ret s =
      finishWith (fun pc => fail .errTimeout pc (n + left) call) (stepIntos stp left s) := by
  induction left generalizing n ret s with
  | zero =>
    have h0 := above 0 (by omega)
    simp only [stepIntos_zero] at h0
    rw [stepOverLoop, if_neg (by omega)]; rfl
  | succ left ih =>
    have h0 := above 0 (by omega)
    simp only [stepIntos_zero] at h0
    rw [stepOverLoop, if_neg (by omega)]
    dsimp only
    rw [ih (n + 1) _ _ fun k hk => above (k + 1) (by omega)]
    simp only [Nat.add_right_comm n 1 left, Nat.add_assoc, stepIntos_succ]

/-- One of the two happens. -/
theorem first_back (stp : Stepper) (d0 left : Nat) (s : State) :
    (∃ j, j ≤ left ∧ (∀ k, k < j → d0 < (stepIntos stp k s).depth) ∧ (stepIntos stp j s).depth ≤ d0) ∨
      ∀ k, k ≤ left → d0 < (stepIntos stp k s).depth := by
  by_cases h : ∃ j, j ≤ left ∧ (stepIntos stp j s).depth ≤ d0
  · obtain ⟨j, hj, hd⟩ := h
    have hex : ∃ j, (stepIntos stp j s).depth ≤ d0 := ⟨j, hd⟩
    refine .inl ⟨Nat.find hex, (Nat.find_min' hex hd).trans hj, fun k hk => ?_, Nat.find_spec hex⟩
    have := Nat.find_min hex hk
    omega
  · refine .inr fun k hk => ?_
    by_contra hc
    exact h ⟨k, hk, by omega⟩

/-! ## The loop of StepOut (R289) -/

theorem stepOutLoop_success (stp : Stepper) (target : Nat) {j left : Nat} (n : Nat) (s : State) (h1 : 1 ≤ j) (hj : j ≤ left)
    (above : ∀ k, 1 ≤ k → k < j → target < (stepIntos stp k s).depth) (back : (stepIntos stp j s).depth ≤ target) :
    stepOutLoop stp target left n s =
      finishWith (fun pc => succeed pc (n + j) none (lastRet stp j none s)) (stepIntos stp j s) := by
  induction j generalizing n s left with
  | zero => omega
  | succ j ih =>
    obtain ⟨left, rfl⟩ : ∃ l, left = l + 1 := ⟨left - 1, by omega⟩
    rw [stepOutLoop]
    cases j with
    | zero => rw [if_pos (by exact back)]; rfl
    | succ j =>
      have h0 := above 1 (by omega) (by omega)
      simp only [stepIntos_succ, stepIntos_zero] at h0
      rw [if_neg (by omega), ih (n + 1) _ (by omega) (by omega) (fun k hk hk' => above (k + 1) (by omega) (by omega)) back]
      have e : lastRet stp (j + 1) none (stepInto stp s).2 = lastRet stp (j + 1 + 1) none s := rfl
      simp only [Nat.add_right_comm n 1 (j + 1), Nat.add_assoc, e]
      rfl

theorem stepOutLoop_timeout (stp : Stepper) (target : Nat) {left : Nat} (n : Nat) (s : State)
    (above : ∀ k, 1 ≤ k → k ≤ left → target < (stepIntos stp k s).depth) :
    stepOutLoop stp target left n s =
      finishWith (fun pc => fail .errTimeout pc (n + left) none) (stepIntos stp left s) := by
  induction left generalizing n s with
  | zero => rfl
  | succ left ih =>
    have h0 := above 1 (by omega) (by omega)
    simp only [stepIntos_succ, stepIntos_zero] at h0
    rw [stepOutLoop]
    rw [if_neg (by omega), ih (n + 1) _ fun k hk hk' => above (k + 1) (by omega) (by omega)]
    simp only [Nat.add_right_comm n 1 left, Nat.add_assoc, stepIntos_succ]

/-! ## StepOver and its loop -/

/-- On an opcode that is no call StepOver is one StepInto (R287). -/
theorem stepOver_noCall (stp : Stepper) (max : BitVec 32) {s : State} (h : s.configured = true)
    (hn : isCall s.opcode = false) :
    stepOver stp max s = stepInto stp (s.logCalls [.pcGetter s.pcGetter, .reader s.pcGetter s.opcode]) := by
  simp [stepOver, h, reader_eq_opcode, hn]

/-- On a call StepOver is one StepInto and then the loop (R287). -/
theorem stepOver_call (stp : Stepper) (max : BitVec 32) {s : State} (h : s.configured = true)
    (hn : isCall s.opcode = true) :
    stepOver stp max s =
     (let s0 := s.logCalls [.pcGetter s.pcGetter, .reader s.pcGetter s.opcode]
      stepOverLoop stp s.depth (some (callEntry s s.pcGetter s.opcode)) (max.toNat - 1) 1 none
        (stepInto stp s0).2) := by
  simp only [stepOver, h, if_true, reader_eq_opcode, hn]
  congr 1
  have := stepInto_forgetCalls stp
    (s := s.logCalls [.pcGetter s.pcGetter, .reader s.pcGetter s.opcode]) (t := s) rfl
  rw [this.1, stepInto_eq stp h]
  simp [succeed, stackAfter, hn]

/-! ## Counting Stepper calls (R292) -/

theorem stepperCalls_append (a b : List ContractCall) : stepperCalls (a ++ b) = stepperCalls a + stepperCalls b :=
  List.countP_append

theorem stepperCalls_targets (s : State) (pc : Addr) (op : Byte) : stepperCalls (callTargetCalls s pc op) = 0 := by
  simp [stepperCalls, callTargetCalls, List.countP_eq_zero]

theorem stepperCalls_stepInto (stp : Stepper) {s : State} (h : s.configured = true) :
    stepperCalls (stepInto stp s).2.calls = stepperCalls s.calls + 1 := by
  rw [stepInto_eq stp h]
  simp only [stepperCalls_append]
  have : stepperCalls (if isCall s.opcode = true then callTargetCalls s s.pcGetter s.opcode else []) = 0 := by
    split
    · exact stepperCalls_targets _ _ _
    · rfl
  rw [this]; rfl

theorem stepperCalls_stepIntos (stp : Stepper) {s : State} (h : s.configured = true) (k : Nat) :
    stepperCalls (stepIntos stp k s).calls = stepperCalls s.calls + k := by
  induction k with
  | zero => rfl
  | succ k ih =>
    rw [stepIntos_succ', stepperCalls_stepInto stp ((sameSettings_stepIntos stp k s).configured.trans h), ih]; rfl

/-! ## What a command can end with -/

/-- Everything that StepOver on a call can end with (R287, R295). -/
theorem stepOver_call_cases (stp : Stepper) (max : BitVec 32) {s : State} (h : s.configured = true)
    (hn : isCall s.opcode = true) :
    let s0 := s.logCalls [.pcGetter s.pcGetter, .reader s.pcGetter s.opcode]
    let call := some (callEntry s s.pcGetter s.opcode)
    (∃ n e, 2 ≤ n ∧ n ≤ max.toNat ∧ (stepIntos stp n s0).depth = s.depth ∧
      stepOver stp max s = finishWith (fun pc => succeed pc n call (some e)) (stepIntos stp n s0)) ∨
    (∃ n, n = Max.max max.toNat 1 ∧ s.depth < (stepIntos stp n s0).depth ∧
      stepOver stp max s = finishWith (fun pc => fail .errTimeout pc n call) (stepIntos stp n s0)) := by
  dsimp only
  rw [stepOver_call stp max h hn]
  dsimp only
  generalize hs0 : s.logCalls [.pcGetter s.pcGetter, .reader s.pcGetter s.opcode] = s0
  have hc0 : s0.configured = true := by rw [← hs0]; exact h
  have hdep : (stepInto stp s0).2.depth = s.depth + 1 := by
    rw [depth_stepInto stp hc0, ← hs0]
    simp only [State.logCalls_depth]
    have : (s.logCalls [.pcGetter s.pcGetter, .reader s.pcGetter s.opcode]).opcode = s.opcode := rfl
    rw [this, hn]; rfl
  rcases first_back stp s.depth (max.toNat - 1) (stepInto stp s0).2 with ⟨j, hj, above, back⟩ | above
  · left
    cases j with
    | zero => simp only [stepIntos_zero] at back; omega
    | succ j =>
      have hcj : (stepIntos stp j (stepInto stp s0).2).configured = true :=
        (sameSettings_stepIntos stp j _).configured.trans ((configured_stepInto stp s0).trans hc0)
      have habove := above j (by omega)
      rw [stepIntos_succ'] at back
      obtain ⟨hd, e, he, -⟩ := ret_of_depth_lt stp hcj (by omega)
      refine ⟨j + 2, e, by omega, by omega, ?_, ?_⟩
      · rw [show j + 2 = (j + 1) + 1 from rfl, stepIntos_succ, stepIntos_succ']; omega
      · rw [stepOverLoop_success stp s.depth _ 1 none _ hj above (by rw [stepIntos_succ']; exact back)]
        simp only [lastRet, he, Nat.add_comm 1]; rfl
  · right
    refine ⟨_, rfl, ?_, ?_⟩
    · have := above (max.toNat - 1) (by omega)
      rw [show Max.max max.toNat 1 = (max.toNat - 1) + 1 by omega, stepIntos_succ]; exact this
    · rw [stepOverLoop_timeout stp s.depth _ 1 none _ above,
        show Max.max max.toNat 1 = (max.toNat - 1) + 1 by omega, stepIntos_succ]
      simp only [Nat.add_comm 1]

/-- Everything that StepOut on a non-empty call stack can end with (R289, R295). -/
theorem stepOut_cases (stp : Stepper) (max : BitVec 32) {s : State} (h : s.configured = true) (hn : s.callStack ≠ []) :
    (∃ n e, 1 ≤ n ∧ n ≤ max.toNat ∧ (stepIntos stp n s).depth = s.depth - 1 ∧
      stepOut stp max s = finishWith (fun pc => succeed pc n none (some e)) (stepIntos stp n s)) ∨
    (s.depth ≤ (stepIntos stp max.toNat s).depth ∧
      stepOut stp max s = finishWith (fun pc => fail .errTimeout pc max.toNat none) (stepIntos stp max.toNat s)) := by
  have hd : s.depth ≠ 0 := by simpa [State.depth] using hn
  simp only [stepOut, h, if_true, hd, if_false]
  rcases first_back stp (s.depth - 1) max.toNat s with ⟨j, hj, above, back⟩ | above
  · left
    cases j with
    | zero => simp only [stepIntos_zero] at back; omega
    | succ j =>
      have hcj : (stepIntos stp j s).configured = true := (sameSettings_stepIntos stp j _).configured.trans h
      have habove := above j (by omega)
      have back' := back
      rw [stepIntos_succ'] at back
      obtain ⟨hd', e, he, -⟩ := ret_of_depth_lt stp hcj (by omega)
      refine ⟨j + 1, e, by omega, by omega, ?_, ?_⟩
      · rw [stepIntos_succ']; omega
      · rw [stepOutLoop_success stp _ 0 s (by omega) hj (fun k _ hk => above k hk) back']
        simp only [lastRet, he, Nat.zero_add]
  · right
    refine ⟨by have := above max.toNat (le_refl _); omega, ?_⟩
    rw [stepOutLoop_timeout stp _ 0 s (fun k _ hk => above k hk)]
    simp only [Nat.zero_add]

/-- Whatever a StepOver does, it leaves what some number of StepIntos leave (R293, R297). -/
theorem stepOver_stepIntos (stp : Stepper) (max : BitVec 32) (s : State) :
    ∃ k, (stepOver stp max s).2.forgetCalls = (stepIntos stp k s).forgetCalls := by
  cases h : s.configured with
  | false => exact ⟨0, by simp [stepOver, h]⟩
  | true =>
    have e : (s.logCalls [.pcGetter s.pcGetter, .reader s.pcGetter s.opcode]).forgetCalls = s.forgetCalls := rfl
    cases hn : isCall s.opcode with
    | false => exact ⟨1, by rw [stepOver_noCall stp max h hn]; exact (stepInto_forgetCalls stp e).2⟩
    | true =>
      have done (n : Nat) (f : Addr → StepResult)
          (h4 : stepOver stp max s =
            finishWith f (stepIntos stp n (s.logCalls [.pcGetter s.pcGetter, .reader s.pcGetter s.opcode]))) :
          ∃ k, (stepOver stp max s).2.forgetCalls = (stepIntos stp k s).forgetCalls := by
        refine ⟨n, ?_⟩
        rw [h4, finishWith, State.forgetCalls_logCalls]
        exact stepIntos_forgetCalls stp e n
      rcases stepOver_call_cases stp max h hn with ⟨n, _, -, -, -, h4⟩ | ⟨n, -, -, h4⟩
      · exact done n _ h4
      · exact done n _ h4

/-- Whatever a StepOut does, it leaves what some number of StepIntos leave (R293, R297). -/
theorem stepOut_stepIntos (stp : Stepper) (max : BitVec 32) (s : State) :
    ∃ k, (stepOut stp max s).2.forgetCalls = (stepIntos stp k s).forgetCalls := by
  cases h : s.configured with
  | false => exact ⟨0, by simp [stepOut, h]⟩
  | true =>
    by_cases hn : s.callStack = []
    · have hd : s.depth = 0 := by simp [State.depth, hn]
      exact ⟨0, by simp [stepOut, h, hd, finishWith]⟩
    · rcases stepOut_cases stp max h hn with ⟨n, e, -, -, -, h4⟩ | ⟨-, h4⟩
      · exact ⟨n, by rw [h4, finishWith, State.forgetCalls_logCalls]⟩
      · exact ⟨max.toNat, by rw [h4, finishWith, State.forgetCalls_logCalls]⟩

end Sys2Proof.Machine
end

