-- ==== Sys2Proof/Laws/Rmw.lean ====
section
/-! SUPPORT. The results of the read-modify-write operations as numbers, and what their flag updates leave alone
(45_rmw.md R200 to R211). -/

namespace Sys2Proof.Machine

/-- The registers and flags after a shift or a rotate. -/
theorem regs_shift {s t : State} {w : Width} {out : Bool} {res : Word} (h : t.env.regs = setZN res w (setCarryFlag out s.env.regs)) :
   KeepsRegsBut [] s t ∧ KeepsFlagsBut [.n,.z,.c] s t ∧ t.flag .c = out ∧ t.ZNFrom w res := by
  refine ⟨?_, ?_, ?_, znFrom_of_regs h⟩
  · intro n hp hn; cases n <;> simp_all [RegFile.read, setCarryFlag]
  · intro f hn
    simp only [List.mem_cons, not_or] at hn
    simp only [State.flag, h, flag_setZN_other _ _ _ hn.1 hn.2.1, setCarryFlag, flag_setFlag_other _ _ hn.2.2.1]
  · rw [State.flag, h, flag_setZN_other _ _ _ (by decide) (by decide), setCarryFlag, flag_setFlag_same]

/-- The registers and flags after an increment or a decrement. -/
theorem regs_inc {s t : State} {w : Width} {res : Word} (h : t.env.regs = setZN res w s.env.regs) :
   KeepsRegsBut [] s t ∧ KeepsFlagsBut [.n,.z] s t ∧ t.ZNFrom w res := by
  refine ⟨?_, ?_, znFrom_of_regs h⟩
  · intro n hp hn; cases n <;> simp_all [RegFile.read]
  · intro f hn
    simp only [List.mem_cons, not_or] at hn
    simp only [State.flag, h, flag_setZN_other _ _ _ hn.1 hn.2.1]

/-- The registers and flags after a bit set or a bit reset. -/
theorem regs_z {s t : State} {b : Bool} (h : t.env.regs = setZeroFlag b s.env.regs) :
   KeepsRegsBut [] s t ∧ KeepsFlagsBut [.z] s t ∧ t.flag .z = b := by
  refine ⟨?_, ?_, by rw [State.flag, h, setZeroFlag, flag_setFlag_same]⟩
  · intro n hp hn; cases n <;> simp_all [RegFile.read, setZeroFlag]
  · intro f hn
    simp only [List.mem_cons, not_or] at hn
    simp only [State.flag, h, setZeroFlag, flag_setFlag_other _ _ hn.1]

/-- A flag as a word, as a number. -/
theorem bitWord_toNat (b : Bool) : (bitWord b).toNat = b.toNat := by cases b <;> rfl

/-- ASL as a number (R202). -/
theorem asl_val (w : Width) (m : Word) : (m <<< 1) &&& w.mask = BitVec.ofNat 16 (2 * m.toNat % 2 ^ w.bits) := by
  apply BitVec.eq_of_toNat_eq
  rw [toNat_and_mask, lowBits, BitVec.toNat_shiftLeft, BitVec.toNat_ofNat, Nat.shiftLeft_eq]
  cases w <;> simp only [Width.bits] <;> omega

/-- LSR as a number (R204). -/
theorem lsr_val (m : Word) : m >>> 1 = BitVec.ofNat 16 (m.toNat / 2) := by
  apply BitVec.eq_of_toNat_eq
  have := m.isLt
  rw [BitVec.toNat_ushiftRight, BitVec.toNat_ofNat, Nat.shiftRight_eq_div_pow]
  omega

/-- ROL as a number (R203). -/
theorem rol_val (w : Width) (m : Word) (b : Bool) : ((m <<< 1) ||| bitWord b) &&& w.mask = BitVec.ofNat 16 ((2 * m.toNat + b.toNat) % 2 ^ w.bits) := by
  apply BitVec.eq_of_toNat_eq
  have h : ((m <<< 1) ||| bitWord b).toNat = 2 * m.toNat % 65536 + b.toNat := by
    rw [BitVec.toNat_or, BitVec.toNat_shiftLeft, Nat.shiftLeft_eq, bitWord_toNat]
    have e : m.toNat * 2 ^ 1 % 2 ^ 16 = (m.toNat % 32768) <<< 1 := by rw [Nat.shiftLeft_eq]; omega
    rw [e, ← Nat.shiftLeft_add_eq_or_of_lt (by cases b <;> decide), Nat.shiftLeft_eq]; omega
  rw [toNat_and_mask, lowBits, h, BitVec.toNat_ofNat]
  cases w <;> simp only [Width.bits] <;> omega

/-- ROR as a number (R205). -/
theorem ror_val (w : Width) (m : Word) (b : Bool) (hm : m.toNat < 2 ^ w.bits) : (m >>> 1) ||| (bitWord b <<< w.signBit) = BitVec.ofNat 16 (m.toNat / 2 + b.toNat * 2 ^ (w.bits - 1)) := by
  apply BitVec.eq_of_toNat_eq
  have hb : b.toNat ≤ 1 := by cases b <;> decide
  rw [BitVec.toNat_or, BitVec.toNat_ushiftRight, BitVec.toNat_shiftLeft, bitWord_toNat, BitVec.toNat_ofNat, Nat.shiftRight_eq_div_pow, Nat.lor_comm]
  have e : b.toNat <<< w.signBit % 2 ^ 16 = b.toNat <<< w.signBit := by
    rw [Nat.shiftLeft_eq]; cases w <;> simp only [Width.signBit] <;> omega
  rw [e, ← Nat.shiftLeft_add_eq_or_of_lt (by cases w <;> simp only [Width.signBit, Width.bits] at * <;> omega), Nat.shiftLeft_eq]
  cases w <;> simp only [Width.signBit, Width.bits] at * <;> omega

/-- The sign bit of an LSR result. -/
theorem lsr_top {w : Width} {m : Nat} (h : m < 2 ^ w.bits) : decide (2 ^ (w.bits - 1) ≤ m / 2 % 2 ^ w.bits) = false := by
  rw [decide_eq_false_iff_not]
  cases w <;> simp only [Width.bits] at * <;> omega

/-- The sign bit of a ROR result is the old carry. -/
theorem ror_top {w : Width} {m : Nat} (h : m < 2 ^ w.bits) (b : Bool) :
    decide (2 ^ (w.bits - 1) ≤ (m / 2 + b.toNat * 2 ^ (w.bits - 1)) % 2 ^ w.bits) = b := by
  cases b
  · rw [decide_eq_false_iff_not]
    cases w <;> simp only [Width.bits, Bool.toNat_false] at * <;> omega
  · rw [decide_eq_true_iff]
    cases w <;> simp only [Width.bits, Bool.toNat_true] at * <;> omega

/-- INC as a number (R206). -/
theorem inc_val (w : Width) (m : Word) : (m + 1) &&& w.mask = BitVec.ofNat 16 ((m.toNat + 1) % 2 ^ w.bits) := by
  apply BitVec.eq_of_toNat_eq
  have h1 : (1 : Word).toNat = 1 := rfl
  rw [toNat_and_mask, lowBits, BitVec.toNat_add, BitVec.toNat_ofNat, h1]
  cases w <;> simp only [Width.bits]
  omega

/-- DEC as a number (R207). -/
theorem dec_val (w : Width) (m : Word) : (m - 1) &&& w.mask = BitVec.ofInt 16 (((m.toNat : Int) - 1) % 2 ^ w.bits) := by
  apply BitVec.eq_of_toNat_eq
  have := m.isLt
  rw [toNat_and_mask, lowBits, BitVec.toNat_sub, BitVec.toNat_ofInt]
  cases w <;> simp [Width.bits] <;> omega

/-- A masked value, laid out from its number. -/
theorem and_mask_eq (w : Width) (v : Word) : v &&& w.mask = BitVec.ofNat 16 (lowBits w v) := by
  apply BitVec.eq_of_toNat_eq
  have := v.isLt
  rw [toNat_and_mask, BitVec.toNat_ofNat, lowBits]
  cases w <;> simp only [Width.bits] <;> omega

/-- A value that fits the width is its own masked value. -/
theorem and_mask_self {w : Width} {v : Word} (h : v.toNat < 2 ^ w.bits) : v &&& w.mask = v := by
  apply BitVec.eq_of_toNat_eq
  rw [toNat_and_mask, lowBits_of_lt h]

/-- The operand read back from the pair after a store (40_regfile_flags.md R131, R132). -/
theorem State.operand_of_storesOnly {s t : State} {w : Width} {low high : Addr} {v : Word} (h : StoresOnly w low high v s t) :
    (t.operand w low high).toNat = lowBits w v := by
  cases w
  · have := h.1
    simp only [State.operand, this, lowBits, Width.bits, BitVec.toNat_setWidth, BitVec.extractLsb'_toNat, Nat.shiftRight_zero]
    omega
  · have h1 := h.1; have h2 := h.2.1
    simp only [State.operand, h1, h2, bytes16_append, lowBits, Width.bits]
    have := v.isLt; omega

/-- A command that keeps `P.M` keeps the width. -/
theorem width_of_keepsFlags {s t : State} {fs : List Flag} (h : KeepsFlagsBut fs s t) (hm : Flag.m ∉ fs) : t.width .m = s.width .m := by
  simp only [State.width, h _ hm]

end Sys2Proof.Machine
end

