-- ==== Sys2Proof/Laws/Step.lean ====
section
/-! SUPPORT. What one step can do, said once (00_scope.md R9, R10). -/

namespace Sys2Proof.Machine

/-! ## exec -/

/-- Every instruction is an executor command, a step command or a classifier query, and this is all exec can do with it
when it answers a next state. -/
theorem exec_next {i : Instr} {s t : State} (h : exec i s = .next t) :
    (∃ op low high, i = op.toInstr low high ∧ AddressesOk (s.width (gateOf op)) low high ∧
      t = { s with env := opEffect op ⟨low, high⟩ s.env, reply := none }) ∨
    (∃ op, t = answerQuery op s ∧ ∀ u, exec i u = .next (answerQuery op u)) ∨
    (∃ q : StepResult × State, t = q.2.answer (.stepped q.1) ∧
      ((∃ max, i = .stepInto max ∧ q = stepInto Config.stepper s) ∨
        (∃ max, i = .stepOver max ∧ q = stepOver Config.stepper max s) ∨
        (∃ max, i = .stepOut max ∧ q = stepOut Config.stepper max s))) := by
  have cmd (op : ExecOp) (low high : Addr) (h : exec (op.toInstr low high) s = .next t) :
      ∃ op' low' high', op.toInstr low high = ExecOp.toInstr op' low' high' ∧
        AddressesOk (s.width (gateOf op')) low' high' ∧
        t = { s with env := opEffect op' ⟨low', high'⟩ s.env, reply := none } := by
    rw [exec_toInstr] at h
    exact ⟨op, low, high, rfl, runCommand_next h⟩
  cases i
  case and low high => exact .inl (cmd .and low high h)
  case eor low high => exact .inl (cmd .eor low high h)
  case ora low high => exact .inl (cmd .ora low high h)
  case adc low high => exact .inl (cmd .adc low high h)
  case sbc low high => exact .inl (cmd .sbc low high h)
  case cmp low high => exact .inl (cmd .cmp low high h)
  case cpx low high => exact .inl (cmd .cpx low high h)
  case cpy low high => exact .inl (cmd .cpy low high h)
  case bit low high => exact .inl (cmd .bit low high h)
  case lda low high => exact .inl (cmd .lda low high h)
  case ldx low high => exact .inl (cmd .ldx low high h)
  case ldy low high => exact .inl (cmd .ldy low high h)
  case sta low high => exact .inl (cmd .sta low high h)
  case stx low high => exact .inl (cmd .stx low high h)
  case sty low high => exact .inl (cmd .sty low high h)
  case stz low high => exact .inl (cmd .stz low high h)
  case asl low high => exact .inl (cmd .asl low high h)
  case rol low high => exact .inl (cmd .rol low high h)
  case lsr low high => exact .inl (cmd .lsr low high h)
  case ror low high => exact .inl (cmd .ror low high h)
  case inc low high => exact .inl (cmd .inc low high h)
  case dec low high => exact .inl (cmd .dec low high h)
  case tsb low high => exact .inl (cmd .tsb low high h)
  case trb low high => exact .inl (cmd .trb low high h)
  case stepInto max => cases h; exact .inr (.inr ⟨_, rfl, .inl ⟨max, rfl, rfl⟩⟩)
  case stepOver max => cases h; exact .inr (.inr ⟨_, rfl, .inr (.inl ⟨max, rfl, rfl⟩)⟩)
  case stepOut max => cases h; exact .inr (.inr ⟨_, rfl, .inr (.inr ⟨max, rfl, rfl⟩)⟩)
  all_goals cases h; exact .inr (.inl ⟨_, rfl, fun _ => rfl⟩)

/-! ## Taking a request -/

/-- What fetching an instruction leaves alone. -/
theorem take_run {r : Request} {s u : State} {i : Instr} (h : take r s = .run i u) :
    u.env = s.env ∧ u.callStack = s.callStack := by
  cases r with
  | xcmd w => simp only [take, fetchCommand] at h; split at h <;> cases h; exact ⟨rfl, rfl⟩
  | scmd w => simp only [take, fetchCommand] at h; split at h <;> cases h; exact ⟨rfl, rfl⟩
  | query pc op => simp only [take, fetchQuery] at h; split at h <;> cases h; exact ⟨rfl, rfl⟩
  | _ => simp [take] at h

/-- A transaction of the host that is no instruction keeps the call stack, and keeps memory in canonical form. -/
theorem take_done {r : Request} {s t : State} (h : take r s = .done t) :
    t.callStack = s.callStack ∧ (memWf s.env.mem → memWf t.env.mem) := by
  have regs (f : RegFile → RegFile) : (s.updateRegs f).callStack = s.callStack ∧
      (memWf s.env.mem → memWf (s.updateRegs f).env.mem) := ⟨rfl, id⟩
  cases r with
  | xcmd w => simp only [take, fetchCommand] at h; split at h <;> cases h
  | scmd w => simp only [take, fetchCommand] at h; split at h <;> cases h
  | query pc op => simp only [take, fetchQuery] at h; split at h <;> cases h; exact ⟨rfl, id⟩
  | configure which present => cases h; cases which <;> exact ⟨rfl, id⟩
  | flagOp op => cases h; cases op <;> exact ⟨rfl, id⟩
  | readReg n => cases h; exact ⟨rfl, id⟩
  | writeReg w => cases h; exact regs _
  | readMem a => cases h; exact ⟨rfl, id⟩
  | writeMem a v =>
    cases h
    refine ⟨rfl, fun hm => memWf_memWrite hm ?_ v⟩
    have := a.isLt
    simpa [addressSpace] using this

/-! ## One step -/

/-- Everything a step can do when it answers a next state: nothing, a transaction of the host, or an instruction. -/
theorem step_next {s t : State} (h : step s = .next t) :
    (s.inbox = [] ∧ t = s) ∨
    ∃ r rest, s.inbox = r :: rest ∧
      (take r { s with inbox := rest } = .done t ∨
        ∃ i u, take r { s with inbox := rest } = .run i u ∧ exec i u = .next t) := by
  unfold step fetch at h
  cases hi : s.inbox with
  | nil => rw [hi] at h; cases h; exact .inl ⟨rfl, rfl⟩
  | cons r rest =>
    rw [hi] at h
    refine .inr ⟨r, rest, rfl, ?_⟩
    dsimp only at h
    cases ht : take r { s with inbox := rest } with
    | run i u => rw [ht] at h; exact .inr ⟨i, u, rfl, h⟩
    | done u => rw [ht] at h; cases h; exact .inl rfl
    | stop e => rw [ht] at h; cases h

/-- The step of a pending request. -/
theorem step_cons {s : State} {r : Request} {rest : List Request} (h : s.inbox = r :: rest) :
    step s =
      match take r { s with inbox := rest } with
      | .run i t => exec i t
      | .done t => .next t
      | .stop e => .refused e := by
  have hf : fetch s = take r { s with inbox := rest } := by simp only [fetch, h]
  show (match fetch s with
    | .run i t => exec i t
    | .done t => .next t
    | .stop e => .refused e) = _
  rw [hf]

/-- The instruction of an opcode byte is the classifier query about it. -/
theorem exec_of_decodeOpcode {op : Byte} {operands : List Byte} {i : Instr} (h : decodeOpcode op operands = .ok i)
    (s : State) : exec i s = .next (answerQuery op s) := by
  have of16 {mk : BitVec 16 → Instr} (hmk : ∀ v, exec (mk v) s = .next (answerQuery op s))
      (h : operand16 mk operands = .ok i) : exec i s = .next (answerQuery op s) := by
    unfold operand16 at h; split at h <;> cases h; exact hmk _
  have of24 {mk : BitVec 24 → Instr} (hmk : ∀ v, exec (mk v) s = .next (answerQuery op s))
      (h : operand24 mk operands = .ok i) : exec i s = .next (answerQuery op s) := by
    unfold operand24 at h; split at h <;> cases h; exact hmk _
  have of8 {mk : BitVec 8 → Instr} (hmk : ∀ v, exec (mk v) s = .next (answerQuery op s))
      (h : operand8 mk operands = .ok i) : exec i s = .next (answerQuery op s) := by
    unfold operand8 at h; split at h <;> cases h; exact hmk _
  have byte {k : Nat} (hk : op.toNat = k) : op = BitVec.ofNat 8 k := by rw [← hk]; simp
  unfold decodeOpcode at h
  split at h
  case h_22 => cases h
  all_goals
    have e := byte ‹op.toNat = _›
    subst e
    first
    | exact of16 (fun _ => rfl) h
    | exact of24 (fun _ => rfl) h
    | exact of8 (fun _ => rfl) h
    | (cases h; rfl)

/-- A classifier query is answered, whatever the opcode byte (46_classifier.md R230, R261). -/
theorem step_query {s : State} {pc : Addr} {op : Byte} {rest : List Request} (h : s.inbox = .query pc op :: rest) :
    step s = .next (answerQuery op { s with inbox := rest, queryPc := pc }) := by
  rw [step_cons h]
  simp only [take, fetchQuery]
  cases hd : decode (.opc8 (queryBytes pc op { s with inbox := rest })) with
  | error e => rfl
  | ok i => exact exec_of_decodeOpcode hd _

end Sys2Proof.Machine
end

