-- ==== Sys2Proof/Laws/Interference.lean ====
section
/-! SUPPORT. What an instruction does not read: the registers of the machine around the executor, the high byte of `A` at
8 bits, the trace and the record of contract calls (10_state.md R20 to R29, R39). -/

namespace Sys2Proof.Machine

/-! ## Registers that no operation reads -/

/-- A change of the Register File that touches only what no executor operation reads (10_state.md R20, R23 to R29). -/
structure Transparent (f : RegFile → RegFile) : Prop where
  a : ∀ r, (f r).a = r.a
  x : ∀ r, (f r).x = r.x
  y : ∀ r, (f r).y = r.y
  flag : ∀ r g, g ≠ .i → (f r).flag g = r.flag g
  setA : ∀ r v, f { r with a := v } = { f r with a := v }
  setX : ∀ r v, f { r with x := v } = { f r with x := v }
  setY : ∀ r v, f { r with y := v } = { f r with y := v }
  setFlag : ∀ r g b, g ≠ .i → f (r.setFlag g b) = (f r).setFlag g b

namespace Transparent

variable {f : RegFile → RegFile} (t : Transparent f)

include t

/-- It keeps the widths. -/
theorem width (g : Gate) (r : RegFile) : Machine.width g (f r) = Machine.width g r :=
  width_congr g (t.flag r _ (by decide)) (t.flag r _ (by decide))

/-- It commutes with `SetZN`. -/
theorem setZN (v : Word) (w : Width) (r : RegFile) : f (Machine.setZN v w r) = Machine.setZN v w (f r) := by
  simp only [Machine.setZN]; rw [t.setFlag _ _ _ (by decide), t.setFlag _ _ _ (by decide)]

/-- It commutes with a write of `A`. -/
theorem writeA (w : Width) (v : Word) (r : RegFile) : f (Machine.writeA w v r) = Machine.writeA w v (f r) := by
  simp only [Machine.writeA]; rw [t.setA, t.a]

omit t in
/-- It commutes with an operand write. -/
theorem write (w : Width) (ea : EA) (v : Word) (e : Env) : writeOperand w ea v (e.mapRegs f) = (writeOperand w ea v e).mapRegs f := by
  cases w <;> rfl

/-- It commutes with the data functions of 45_rmw.md. -/
theorem rmw {op : ExecOp} {fn : Width → Word → RegFile → Word × RegFile} (h : rmwFn op = some fn) (w : Width) (m : Word) (r : RegFile) :
    fn w m (f r) = ((fn w m r).1, f (fn w m r).2) := by
  have sh (out : Bool) (res : Word) : shiftFlags w out res (f r) = ((shiftFlags w out res r).1, f (shiftFlags w out res r).2) := by
    simp only [shiftFlags, setCarryFlag]; rw [t.setZN, t.setFlag _ .c _ (by decide)]
  have inc (res : Word) : (res, Machine.setZN res w (f r)) = (res, f (Machine.setZN res w r)) := by rw [t.setZN]
  have bit (res : Word) (b : Bool) : (res, setZeroFlag b (f r)) = (res, f (setZeroFlag b r)) := by
    simp only [setZeroFlag]; rw [t.setFlag _ .z _ (by decide)]
  have c : getCarryFlag (f r) = getCarryFlag r := t.flag _ _ (by decide)
  cases op <;> simp only [rmwFn, Option.some.injEq, reduceCtorEq] at h <;> subst h
  · exact sh _ _
  · simp only [rolFn, c]; exact sh _ _
  · exact sh _ _
  · simp only [rorFn, c]; exact sh _ _
  · exact inc _
  · exact inc _
  · simp only [tsbFn, t.a]; exact bit _ _
  · simp only [trbFn, t.a]; exact bit _ _

/-- It commutes with the write-back of ADC and SBC. -/
theorem finishArith (w : Width) (a v : Nat) (acc : Accumulated) (r : RegFile) : f (Machine.finishArith w a v acc r) = Machine.finishArith w a v acc (f r) := by
  simp only [Machine.finishArith, setOverflowFlag, setCarryFlag, t.setZN, t.writeA, t.setFlag _ .c _ (by decide), t.setFlag _ .v _ (by decide), writeA_a, RegFile.setFlag_a, t.a]

/-- It commutes with every executor operation. -/
theorem effect (op : ExecOp) (ea : EA) (e : Env) : opEffect op ea (e.mapRegs f) = (opEffect op ea e).mapRegs f := by
  by_cases h : (rmwFn op).isSome
  · obtain ⟨fn, hf⟩ := Option.isSome_iff_exists.mp h
    rw [opEffect_of_rmwFn hf]
    simp only [rmwOp, busIdle, readOperand_fst, readOperand_snd, Env.log_regs, Env.mapRegs_regs, Env.mapRegs_mem, t.width, t.rmw hf]
    rw [← write]; rfl
  · have cmp (g : Gate) (reg : RegFile → Word) (hr : ∀ r, reg (f r) = reg r) : compareOp g reg ea (e.mapRegs f) = (compareOp g reg ea e).mapRegs f := by
      simp only [compareOp, readOperand_fst, readOperand_snd, Env.mapRegs_regs, Env.mapRegs_mem, t.width, hr]
      simp only [Env.mapRegs, setCarryFlag, t.setZN, t.setFlag _ _ _ (show Flag.c ≠ .i by decide)]; rfl
    have logic (g : Word → Word → Word) : logicOp g ea (e.mapRegs f) = (logicOp g ea e).mapRegs f := by
      simp only [logicOp, readOperand_fst, readOperand_snd, Env.mapRegs_regs, Env.mapRegs_mem, t.width]
      simp only [Env.mapRegs, t.setZN, t.writeA, writeA_a, t.a, Env.log]
    have arith (pre acc) : arithOp pre acc ea (e.mapRegs f) = (arithOp pre acc ea e).mapRegs f := by
      simp only [arithOp, readOperand_fst, readOperand_snd, Env.mapRegs_regs, Env.mapRegs_mem, t.width]
      simp only [Env.mapRegs, Env.log, t.finishArith, t.a, getDecimalFlag, getCarryFlag, t.flag _ .c (by decide), t.flag _ .d (by decide)]
    have store (g : Gate) (reg : RegFile → Word) (hr : ∀ r, reg (f r) = reg r) : writeOperand (Machine.width g (e.mapRegs f).regs) ea (reg (e.mapRegs f).regs) (e.mapRegs f) = (writeOperand (Machine.width g e.regs) ea (reg e.regs) e).mapRegs f := by
      rw [← write, Env.mapRegs_regs, t.width, hr]
    cases op <;> simp only [rmwFn, Option.isSome_some, Option.isSome_none, not_true_eq_false] at h
    case and => exact logic _
    case eor => exact logic _
    case ora => exact logic _
    case adc => exact arith (fun _ m => m) adcAccumulate
    case sbc => exact arith (fun w m => ~~~m &&& w.mask) sbcAccumulate
    case cmp => exact cmp .m (fun r => r.a) t.a
    case cpx => exact cmp .x (fun r => r.x) t.x
    case cpy => exact cmp .x (fun r => r.y) t.y
    case bit =>
      simp only [opEffect, bitOp, readOperand_fst, readOperand_snd, Env.mapRegs_regs, Env.mapRegs_mem, t.width]
      simp only [Env.mapRegs, Env.log, setOverflowFlag, setNegativeFlag, setZeroFlag, t.a, t.setFlag _ _ _ (show Flag.z ≠ .i by decide), t.setFlag _ _ _ (show Flag.v ≠ .i by decide), t.setFlag _ _ _ (show Flag.n ≠ .i by decide)]
    case lda =>
      simp only [opEffect, ldaOp, readOperand_fst, readOperand_snd, Env.mapRegs_regs, Env.mapRegs_mem, t.width]
      simp only [Env.mapRegs, Env.log, t.setZN, t.writeA, writeA_a, t.a]
    case ldx =>
      simp only [opEffect, ldxOp, readOperand_fst, readOperand_snd, Env.mapRegs_regs, Env.mapRegs_mem, t.width]
      simp only [Env.mapRegs, Env.log]; rw [t.setZN]
      exact congrArg (fun r => (⟨Machine.setZN _ _ r, _, _⟩ : Env)) (t.setX e.regs _).symm
    case ldy =>
      simp only [opEffect, ldyOp, readOperand_fst, readOperand_snd, Env.mapRegs_regs, Env.mapRegs_mem, t.width]
      simp only [Env.mapRegs, Env.log]; rw [t.setZN]
      exact congrArg (fun r => (⟨Machine.setZN _ _ r, _, _⟩ : Env)) (t.setY e.regs _).symm
    case sta => exact store .m (fun r => r.a) t.a
    case stx => exact store .x (fun r => r.x) t.x
    case sty => exact store .x (fun r => r.y) t.y
    case stz => exact store .m (fun _ => 0) (fun _ => rfl)

end Transparent

/-- Writes of two different flags commute. -/
theorem setFlag_comm {f g : Flag} (h : f ≠ g) (a b : Bool) (r : RegFile) : (r.setFlag f a).setFlag g b = (r.setFlag g b).setFlag f a := by
  have : ((r.setFlag f a).setFlag g b).p = ((r.setFlag g b).setFlag f a).p := by
    apply p_eq_of_flags; intro k
    simp only [flag_setFlag]
    by_cases h1 : k = f <;> by_cases h2 : k = g <;> simp_all
  simp only [RegFile.setFlag] at this ⊢
  rw [this]

/-- A write of `P.I` is such a change. -/
theorem transparent_setI (b : Bool) : Transparent (RegFile.setFlag .i b) where
  a _ := rfl
  x _ := rfl
  y _ := rfl
  flag r _ h := flag_setFlag_other b r h
  setA _ _ := rfl
  setX _ _ := rfl
  setY _ _ := rfl
  setFlag r _ b' h := setFlag_comm h b' b r

/-- An instruction that is no step command commutes with it. -/
theorem exec_of_transparent {f : RegFile → RegFile} (tr : Transparent f) {i : Instr} {s t : State} (hi : ¬IsStep i) (h : exec i s = .next t) :
    exec i { s with env := s.env.mapRegs f } = .next { t with env := t.env.mapRegs f } := by
  rcases exec_next h with ⟨op, low, high, rfl, ok, rfl⟩ | ⟨op, rfl, hall⟩ | ⟨q, rfl, hq⟩
  · have ok' : AddressesOk (State.width { s with env := s.env.mapRegs f } (gateOf op)) low high := by
      rw [State.width_eq] at ok ⊢
      simp only [Env.mapRegs_regs, tr.width]; exact ok
    rw [exec_after ok']
    simp only [State.after, tr.effect]
  · have hq : exec i { s with env := s.env.mapRegs f } = .next (answerQuery op { s with env := s.env.mapRegs f }) := hall _
    rw [hq]; rfl
  · exact absurd (by
      rcases hq with ⟨m, rfl, -⟩ | ⟨m, rfl, -⟩ | ⟨m, rfl, -⟩
      · exact ⟨m, .inl rfl⟩
      · exact ⟨m, .inr (.inl rfl)⟩
      · exact ⟨m, .inr (.inr rfl)⟩) hi

/-! ## The high byte of `A` -/

/-- The high byte of `A` replaced. -/
def aHigh (h : Byte) (r : RegFile) : RegFile := { r with a := h ++ r.a.extractLsb' 0 8 }

/-- The low byte of a word laid out from two bytes. -/
theorem low_append (h : Byte) (v : Word) : (h ++ v.extractLsb' 0 8 : Word).extractLsb' 0 8 = v.extractLsb' 0 8 := extract_append_low h _

/-- Equal low bytes have equal bits. -/
theorem ext_low_bits {u v : Word} (h : u.extractLsb' 0 8 = v.extractLsb' 0 8) {i : Nat} (hi : i < 8) : u.getLsbD i = v.getLsbD i := by
  have := congrArg (fun b : Byte => b.getLsbD i) h
  simpa [BitVec.getLsbD_extractLsb', hi] using this

/-- The 8-bit mask looks at the low byte only. -/
theorem and_mask8_congr {u v : Word} (h : u.extractLsb' 0 8 = v.extractLsb' 0 8) : u &&& Width.mask .w8 = v &&& Width.mask .w8 := by
  apply BitVec.eq_of_getLsbD_eq
  intro i hi
  have hm : (Width.mask .w8).getLsbD i = decide (i < 8) := by revert i; decide
  rw [BitVec.getLsbD_and, BitVec.getLsbD_and, hm]
  by_cases h8 : i < 8
  · rw [ext_low_bits h h8]
  · simp [h8]

/-- An 8-bit write looks at the low byte only. -/
theorem atWidth8_congr {u v : Word} (old : Word) (h : u.extractLsb' 0 8 = v.extractLsb' 0 8) : atWidth .w8 old u = atWidth .w8 old v := by
  have := and_mask8_congr h
  simp only [Width.mask] at this
  simp only [atWidth, this]

/-- An 8-bit write as two bytes. -/
theorem atWidth8_eq (old v : Word) : atWidth .w8 old v = old.extractLsb' 8 8 ++ v.extractLsb' 0 8 := by
  apply BitVec.eq_of_toNat_eq
  rw [toNat_atWidth_w8, BitVec.toNat_append, ← Nat.shiftLeft_add_eq_or_of_lt (by exact (v.extractLsb' 0 8).isLt), Nat.shiftLeft_eq,
    BitVec.extractLsb'_toNat, BitVec.extractLsb'_toNat]
  have := old.isLt
  simp only [Nat.shiftRight_eq_div_pow]
  omega

/-- An 8-bit write of `A` commutes with a change of its high byte (10_state.md R21). -/
theorem writeA8_aHigh (h : Byte) (v : Word) (r : RegFile) : writeA .w8 v (aHigh h r) = aHigh h (writeA .w8 v r) := by
  have : atWidth .w8 (h ++ r.a.extractLsb' 0 8) v = h ++ (atWidth .w8 r.a v).extractLsb' 0 8 := by
    rw [atWidth8_eq, atWidth8_eq, extract_append_high h, extract_append_low (r.a.extractLsb' 8 8) (v.extractLsb' 0 8)]
  simp only [writeA, aHigh, this]

/-- A bitwise function works byte by byte. -/
theorem low_logic (h : Byte) (a m : Word) (g : Bool → Bool → Bool) (f : Word → Word → Word) (hf : ∀ a b i, i < 16 → (f a b).getLsbD i = g (a.getLsbD i) (b.getLsbD i)) :
    (f (h ++ a.extractLsb' 0 8) m).extractLsb' 0 8 = (f a m).extractLsb' 0 8 := by
  apply BitVec.eq_of_getLsbD_eq
  intro i hi
  rw [BitVec.getLsbD_extractLsb', BitVec.getLsbD_extractLsb', Nat.zero_add, hf _ _ _ (by omega), hf _ _ _ (by omega)]
  rw [ext_low_bits (low_append h a) hi]

/-- `SetZN` at 8 bits looks at the low byte only. -/
theorem setZN8_congr {u v : Word} (h : u.extractLsb' 0 8 = v.extractLsb' 0 8) (r : RegFile) : setZN u .w8 r = setZN v .w8 r := by
  simp only [setZN, and_mask8_congr h, Width.signBit]; rw [ext_low_bits h (by decide)]

/-- With `P.M = 1` every operation commutes with a change of the high byte of `A` (10_state.md R21). -/
theorem opEffect_aHigh (op : ExecOp) (ea : EA) (e : Env) (h : Byte) (hm : e.regs.flag .m = true) :
    opEffect op ea (e.mapRegs (aHigh h)) = (opEffect op ea e).mapRegs (aHigh h) := by
  have hw : width .m e.regs = .w8 := by simp [width_m, hm]
  have hw' : width .m (aHigh h e.regs) = .w8 := hw
  have hx : width .x (aHigh h e.regs) = width .x e.regs := rfl
  have la := low_append h e.regs.a
  have write (w : Width) (v : Word) : writeOperand w ea v (e.mapRegs (aHigh h)) = (writeOperand w ea v e).mapRegs (aHigh h) := by
    cases w <;> rfl
  have logic (g : Word → Word → Word) (b : Bool → Bool → Bool) (hf : ∀ a c i, i < 16 → (g a c).getLsbD i = b (a.getLsbD i) (c.getLsbD i)) :
      logicOp g ea (e.mapRegs (aHigh h)) = (logicOp g ea e).mapRegs (aHigh h) := by
    have hl := low_logic h e.regs.a (operandIn e.mem .w8 ea) b g hf
    simp only [logicOp, readOperand_fst, readOperand_snd, Env.mapRegs_regs, Env.mapRegs_mem, hw, hw']
    simp only [Env.mapRegs, Env.log]
    have e1 : writeA .w8 (g (aHigh h e.regs).a (operandIn e.mem .w8 ea)) (aHigh h e.regs) = aHigh h (writeA .w8 (g e.regs.a (operandIn e.mem .w8 ea)) e.regs) := by
      rw [← writeA8_aHigh]; simp only [writeA]; rw [atWidth8_congr _ (show (g (aHigh h e.regs).a (operandIn e.mem .w8 ea)).extractLsb' 0 8 = _ from hl)]
    rw [e1]
    congr 1
    exact setZN8_congr (low_append h _) _
  have fin (a v : Nat) (q : Accumulated) (r : RegFile) : finishArith .w8 a v q (aHigh h r) = aHigh h (finishArith .w8 a v q r) := by
    simp only [finishArith]
    rw [show ∀ b c, setCarryFlag b (setOverflowFlag c (aHigh h r)) = aHigh h (setCarryFlag b (setOverflowFlag c r)) from fun _ _ => rfl, writeA8_aHigh]
    exact setZN8_congr (low_append h _) _
  have arith (pre acc) : arithOp pre acc ea (e.mapRegs (aHigh h)) = (arithOp pre acc ea e).mapRegs (aHigh h) := by
    have ma : (aHigh h e.regs).a &&& Width.mask .w8 = e.regs.a &&& Width.mask .w8 := and_mask8_congr la
    simp only [arithOp, readOperand_fst, readOperand_snd, Env.mapRegs_regs, Env.mapRegs_mem, hw, hw', ma]
    simp only [Env.mapRegs, Env.log]
    congr 1
    exact fin _ _ _ _
  have rmw {fn : Width → Word → RegFile → Word × RegFile} (hf : opEffect op = rmwOp fn) (k : fn .w8 (operandIn e.mem .w8 ea) (aHigh h e.regs) = ((fn .w8 (operandIn e.mem .w8 ea) e.regs).1, aHigh h (fn .w8 (operandIn e.mem .w8 ea) e.regs).2)) :
      opEffect op ea (e.mapRegs (aHigh h)) = (opEffect op ea e).mapRegs (aHigh h) := by
    rw [hf]
    simp only [rmwOp, busIdle, readOperand_fst, readOperand_snd, Env.log_regs, Env.mapRegs_regs, Env.mapRegs_mem, hw, hw', k]
    rfl
  have ma : (aHigh h e.regs).a &&& Width.mask .w8 = e.regs.a &&& Width.mask .w8 := and_mask8_congr la
  cases op
  case and => exact logic _ (· && ·) (fun _ _ _ _ => BitVec.getLsbD_and)
  case eor => exact logic _ (fun a b => a ^^ b) (fun _ _ _ _ => BitVec.getLsbD_xor)
  case ora => exact logic _ (· || ·) (fun _ _ _ _ => BitVec.getLsbD_or)
  case adc => exact arith (fun _ m => m) adcAccumulate
  case sbc => exact arith (fun w m => ~~~m &&& w.mask) sbcAccumulate
  case cmp =>
    simp only [opEffect, cmpOp, compareOp, readOperand_fst, readOperand_snd, Env.mapRegs_regs, Env.mapRegs_mem, hw, hw', ma]; rfl
  case cpx =>
    simp only [opEffect, cpxOp, compareOp, readOperand_fst, readOperand_snd, Env.mapRegs_regs, Env.mapRegs_mem, hx]; rfl
  case cpy =>
    simp only [opEffect, cpyOp, compareOp, readOperand_fst, readOperand_snd, Env.mapRegs_regs, Env.mapRegs_mem, hx]; rfl
  case bit =>
    have hl := and_mask8_congr (low_logic h e.regs.a (operandIn e.mem .w8 ea) (· && ·) (fun a b => a &&& b) (fun _ _ _ _ => BitVec.getLsbD_and))
    have hl' : ((aHigh h e.regs).a &&& operandIn e.mem .w8 ea) &&& Width.mask .w8 = (e.regs.a &&& operandIn e.mem .w8 ea) &&& Width.mask .w8 := hl
    simp only [opEffect, bitOp, readOperand_fst, readOperand_snd, Env.mapRegs_regs, Env.mapRegs_mem, hw, hw']
    simp only [Env.mapRegs, Env.log, hl']; rfl
  case lda =>
    simp only [opEffect, ldaOp, readOperand_fst, readOperand_snd, Env.mapRegs_regs, Env.mapRegs_mem, hw, hw']
    simp only [Env.mapRegs, Env.log, writeA8_aHigh]
    congr 1
    exact setZN8_congr (low_append h _) _
  case ldx =>
    simp only [opEffect, ldxOp, readOperand_fst, readOperand_snd, Env.mapRegs_regs, Env.mapRegs_mem, hx]; rfl
  case ldy =>
    simp only [opEffect, ldyOp, readOperand_fst, readOperand_snd, Env.mapRegs_regs, Env.mapRegs_mem, hx]; rfl
  case sta =>
    simp only [opEffect, staOp, storeOp, Env.mapRegs_regs, hw, hw', write]
    simp only [writeOperand, aHigh, low_append]
  case stx => exact write _ _
  case sty => exact write _ _
  case stz => exact write _ _
  case asl => exact rmw rfl rfl
  case rol => exact rmw rfl rfl
  case lsr => exact rmw rfl rfl
  case ror => exact rmw rfl rfl
  case inc => exact rmw rfl rfl
  case dec => exact rmw rfl rfl
  case tsb => exact rmw rfl (by simp only [tsbFn, ma]; rfl)
  case trb => exact rmw rfl (by simp only [trbFn, ma]; rfl)

/-! ## The observations -/

/-- An environment with its trace replaced. -/
def Env.setTrace (tr : List BusEvent) (e : Env) : Env := { e with trace := tr }

/-- It keeps memory and registers. -/
theorem operandIn_setTrace (tr : List BusEvent) (e : Env) : (Env.setTrace tr e).mem = e.mem ∧ (Env.setTrace tr e).regs = e.regs := ⟨rfl, rfl⟩

/-- No operation reads the trace (10_state.md R39). -/
theorem opEffect_setTrace (op : ExecOp) (ea : EA) (e : Env) (tr : List BusEvent) :
    ∃ new, (opEffect op ea e).trace = e.trace ++ new ∧ opEffect op ea (Env.setTrace tr e) = Env.setTrace (tr ++ new) (opEffect op ea e) := by
  refine ⟨_, opEffect_trace op ea e, ?_⟩
  have ht := opEffect_trace op ea (Env.setTrace tr e)
  have hm := opEffect_mem op ea (Env.setTrace tr e)
  have hm' := opEffect_mem op ea e
  have hr : (opEffect op ea (Env.setTrace tr e)).regs = (opEffect op ea e).regs := by
    by_cases h : (rmwFn op).isSome
    · obtain ⟨fn, hf⟩ := Option.isSome_iff_exists.mp h
      rw [opEffect_of_rmwFn hf, rmwOp_regs, rmwOp_regs]; rfl
    · cases op <;> simp only [rmwFn, Option.isSome_some, Option.isSome_none, not_true_eq_false] at h <;>
       simp only [opEffect, andOp, eorOp, oraOp, logicOp_regs, adcOp, sbcOp, arithOp_regs, cmpOp, cpxOp, cpyOp, compareOp_regs, bitOp, ldaOp, ldxOp, ldyOp, staOp, stxOp, styOp, stzOp, storeOp, writeOperand_regs, readOperand_fst, readOperand_snd, Env.mapRegs_regs, Env.log_regs] <;> rfl
  have hmem : (opEffect op ea (Env.setTrace tr e)).mem = (opEffect op ea e).mem := by
    rw [hm, hm', (operandIn_setTrace tr e).1, (operandIn_setTrace tr e).2]
    cases storedValue op (operandIn e.mem (width (gateOf op) e.regs) ea) e.regs with
    | none => rfl
    | some v => cases width (gateOf op) e.regs <;> rfl
  have : ∀ a b : Env, a.regs = b.regs → a.mem = b.mem → a = Env.setTrace a.trace b := by
    rintro ⟨⟩ ⟨⟩ h1 h2; cases h1; cases h2; rfl
  rw [this _ _ hr hmem, ht]; rfl

/-- No Stepper call reads the trace. -/
theorem runActions_setTrace (acts : List StepperAction) (e : Env) (tr : List BusEvent) :
    ∃ new, (runActions acts e).trace = e.trace ++ new ∧ runActions acts (Env.setTrace tr e) = Env.setTrace (tr ++ new) (runActions acts e) := by
  induction acts generalizing e tr with
  | nil => exact ⟨[], by simp [runActions], by simp [runActions]⟩
  | cons act rest ih =>
    have one : ∃ new, (runAction e act).trace = e.trace ++ new ∧ runAction (Env.setTrace tr e) act = Env.setTrace (tr ++ new) (runAction e act) := by
      cases act with
      | command op ea => exact opEffect_setTrace op _ e tr
      | setReg w => exact ⟨[], by simp [runAction], by simp [runAction]; rfl⟩
      | readByte a => exact ⟨_, rfl, rfl⟩
      | readWord ea => exact ⟨_, rfl, rfl⟩
      | writeByte a v => exact ⟨_, rfl, rfl⟩
      | writeWord ea v => exact ⟨_, rfl, rfl⟩
      | idle arg => exact ⟨_, rfl, rfl⟩
    obtain ⟨n1, h1, h2⟩ := one
    obtain ⟨n2, h3, h4⟩ := ih (runAction e act) (tr ++ n1)
    refine ⟨n1 ++ n2, ?_, ?_⟩
    · show (runActions rest (runAction e act)).trace = _
      rw [h3, h1, List.append_assoc]
    · show runActions rest (runAction (Env.setTrace tr e) act) = _
      rw [h2, h4, List.append_assoc]; rfl

/-- A command that reads neither the trace nor the record of contract calls. -/
def Blind (f : State → StepResult × State) : Prop :=
  ∀ s tr cs, ∃ nt nc, (f s).2.env.trace = s.env.trace ++ nt ∧ (f s).2.calls = s.calls ++ nc ∧
    f (s.setObserved tr cs) = ((f s).1, (f s).2.setObserved (tr ++ nt) (cs ++ nc))

/-- Ending a command reads neither. -/
theorem blind_finish (r : Addr → StepResult) : Blind (finishWith r) := fun s tr cs =>
  ⟨[], _, (List.append_nil _).symm, rfl, by simp only [List.append_nil]; rfl⟩

/-- StepInto reads neither. -/
theorem blind_stepInto (stp : Stepper) : Blind (stepInto stp) := by
  intro s tr cs
  cases hc : s.configured with
  | false =>
    have hc' : (s.setObserved tr cs).configured = false := hc
    rw [stepInto_unconfigured stp hc, stepInto_unconfigured stp hc']
    exact ⟨[], [], by simp, by simp, by simp⟩
  | true =>
    have hc' : (s.setObserved tr cs).configured = true := hc
    obtain ⟨nt, h1, h2⟩ := runActions_setTrace (stp s.freeCount s.env.regs s.env.mem) s.env tr
    have h2' : runActions (stp s.freeCount s.env.regs s.env.mem) (s.setObserved tr cs).env = Env.setTrace (tr ++ nt) (runActions (stp s.freeCount s.env.regs s.env.mem) s.env) := h2
    rw [stepInto_eq stp hc, stepInto_eq stp hc']
    refine ⟨nt, _, h1, by simp only [List.append_assoc]; rfl, ?_⟩
    have e1 : (s.setObserved tr cs).opcode = s.opcode := rfl
    have e2 : (s.setObserved tr cs).pcGetter = s.pcGetter := rfl
    have e3 : stackAfter (s.setObserved tr cs) = stackAfter s := rfl
    have e4 : ∀ pc op, callTargetCalls (s.setObserved tr cs) pc op = callTargetCalls s pc op := fun _ _ => rfl
    have e5 : (s.setObserved tr cs).freeCount = s.freeCount := rfl
    have e6 : (s.setObserved tr cs).env.regs = s.env.regs := rfl
    have e7 : (s.setObserved tr cs).env.mem = s.env.mem := rfl
    simp only [e1, e2, e3, e4, e5, e6, e7, h2']
    simp only [State.setObserved, Env.setTrace, State.pcGetter, List.append_assoc]

/-- A StepInto followed by a command that reads neither. -/
theorem blind_comp (stp : Stepper) (k : StepResult → State → StepResult × State) (hk : ∀ r, Blind (k r)) :
    Blind fun s => k (stepInto stp s).1 (stepInto stp s).2 := by
  intro s tr cs
  obtain ⟨nt, nc, h1, h2, h3⟩ := blind_stepInto stp s tr cs
  obtain ⟨nt', nc', g1, g2, g3⟩ := hk (stepInto stp s).1 (stepInto stp s).2 (tr ++ nt) (cs ++ nc)
  refine ⟨nt ++ nt', nc ++ nc', by rw [g1, h1, List.append_assoc], by rw [g2, h2, List.append_assoc], ?_⟩
  simp only [h3, g3, List.append_assoc]

/-- A choice that reads neither. -/
theorem blind_if (p : State → Prop) [DecidablePred p] (hp : ∀ s tr cs, p (s.setObserved tr cs) ↔ p s) {f g : State → StepResult × State} (hf : Blind f) (hg : Blind g) :
    Blind fun s => if p s then f s else g s := by
  intro s tr cs
  by_cases h : p s
  · simp only [h, hp, if_true]; exact hf s tr cs
  · simp only [h, hp, if_false]; exact hg s tr cs

/-- The loop of StepOver reads neither. -/
theorem blind_overLoop (stp : Stepper) (d0 : Nat) (call : Option CallStackEntry) (left n : Nat) (ret : Option CallStackEntry) : Blind (stepOverLoop stp d0 call left n ret) := by
  induction left generalizing n ret with
  | zero => exact blind_if (fun s => s.depth ≤ d0) (fun _ _ _ => Iff.rfl) (blind_finish _) (blind_finish _)
  | succ left ih =>
    have := blind_comp stp (fun r => stepOverLoop stp d0 call left (n + 1) r.ret) (fun r => ih _ _)
    exact blind_if (fun s => s.depth ≤ d0) (fun _ _ _ => Iff.rfl) (blind_finish _) this

/-- The loop of StepOut reads neither. -/
theorem blind_outLoop (stp : Stepper) (d : Nat) (left n : Nat) : Blind (stepOutLoop stp d left n) := by
  induction left generalizing n with
  | zero => exact blind_finish _
  | succ left ih =>
    exact blind_comp stp (fun r s => if s.depth ≤ d then finishWith (fun pc => succeed pc (n + 1) none r.ret) s else stepOutLoop stp d left (n + 1) s)
      (fun r => blind_if (fun s => s.depth ≤ d) (fun _ _ _ => Iff.rfl) (blind_finish _) (ih _))

/-- The unconfigured outcome reads neither. -/
theorem blind_skip : Blind fun s => (configError, s) := fun s tr cs => ⟨[], [], by simp, by simp, by simp⟩

/-- StepOver reads neither. -/
theorem blind_stepOver (stp : Stepper) (max : BitVec 32) : Blind (stepOver stp max) := by
  refine blind_if (fun s => s.configured = true) (fun _ _ _ => Iff.rfl) ?_ blind_skip
  have log {f : State → StepResult × State} (hf : Blind f) : Blind fun s => f (s.logCalls [.pcGetter s.pcGetter, .reader s.pcGetter (s.reader s.pcGetter)]) := by
    intro s tr cs
    obtain ⟨nt, nc, h1, h2, h3⟩ := hf (s.logCalls [.pcGetter s.pcGetter, .reader s.pcGetter (s.reader s.pcGetter)]) tr (cs ++ [.pcGetter s.pcGetter, .reader s.pcGetter (s.reader s.pcGetter)])
    refine ⟨nt, [.pcGetter s.pcGetter, .reader s.pcGetter (s.reader s.pcGetter)] ++ nc, h1, by simpa [List.append_assoc] using h2, ?_⟩
    have : (s.setObserved tr cs).logCalls [.pcGetter (s.setObserved tr cs).pcGetter, .reader (s.setObserved tr cs).pcGetter ((s.setObserved tr cs).reader (s.setObserved tr cs).pcGetter)] = (s.logCalls [.pcGetter s.pcGetter, .reader s.pcGetter (s.reader s.pcGetter)]).setObserved tr (cs ++ [.pcGetter s.pcGetter, .reader s.pcGetter (s.reader s.pcGetter)]) := rfl
    dsimp only; rw [this, h3, List.append_assoc]
  refine blind_if (fun s => isCall (s.reader s.pcGetter) = true) (fun _ _ _ => Iff.rfl) ?_ (log (blind_stepInto stp))
  intro s tr cs
  have := blind_comp stp (fun r => stepOverLoop stp s.depth r.call (max.toNat - 1) 1 none) (fun r => blind_overLoop _ _ _ _ _ _)
  exact log this s tr cs

/-- StepOut reads neither. -/
theorem blind_stepOut (stp : Stepper) (max : BitVec 32) : Blind (stepOut stp max) := by
  refine blind_if (fun s => s.configured = true) (fun _ _ _ => Iff.rfl) ?_ blind_skip
  refine blind_if (fun s => s.depth = 0) (fun _ _ _ => Iff.rfl) (blind_finish _) ?_
  intro s tr cs
  exact blind_outLoop stp (s.depth - 1) max.toNat 0 s tr cs

end Sys2Proof.Machine
end

