-- ==== Sys2Proof/Laws/PerInstr.lean ====
section
/-! SUPPORT. The family `TableRow`: every instruction's encoded word lies in its row of spec/opcode_table.json, and the
decoder reads the instruction back from that word, numbered as the table numbers it (30_encoding.md R91, R94, R95). -/

namespace Sys2Proof.Laws.TableRow

/-- Bytes as a number, the first byte lowest. -/
def numberOfBytes : List Byte → Nat
  | [] => 0
  | b :: rest => b.toNat + 256 * numberOfBytes rest

/-- An encoded word as a number, numbered as the table numbers it. -/
def number : CommandWord → Nat
  | .xcmd w => w.toNat
  | .scmd w => w.toNat
  | .opc8 bytes => numberOfBytes bytes

/-- A row of the table: how many bits it has in whole bytes, its mask and its match. -/
structure Row where
  bits : Nat
  mask : Nat
  pattern : Nat

/-- The row of each instruction, as spec/opcode_table.json has it. -/
def row : Instr → Row
  | .and _ _ => ⟨72, 0x1F0000000000000000, 0x000000000000000000⟩
  | .eor _ _ => ⟨72, 0x1F0000000000000000, 0x010000000000000000⟩
  | .ora _ _ => ⟨72, 0x1F0000000000000000, 0x020000000000000000⟩
  | .adc _ _ => ⟨72, 0x1F0000000000000000, 0x030000000000000000⟩
  | .sbc _ _ => ⟨72, 0x1F0000000000000000, 0x040000000000000000⟩
  | .cmp _ _ => ⟨72, 0x1F0000000000000000, 0x050000000000000000⟩
  | .cpx _ _ => ⟨72, 0x1F0000000000000000, 0x060000000000000000⟩
  | .cpy _ _ => ⟨72, 0x1F0000000000000000, 0x070000000000000000⟩
  | .bit _ _ => ⟨72, 0x1F0000000000000000, 0x080000000000000000⟩
  | .lda _ _ => ⟨72, 0x1F0000000000000000, 0x090000000000000000⟩
  | .ldx _ _ => ⟨72, 0x1F0000000000000000, 0x0A0000000000000000⟩
  | .ldy _ _ => ⟨72, 0x1F0000000000000000, 0x0B0000000000000000⟩
  | .sta _ _ => ⟨72, 0x1F0000000000000000, 0x0C0000000000000000⟩
  | .stx _ _ => ⟨72, 0x1F0000000000000000, 0x0D0000000000000000⟩
  | .sty _ _ => ⟨72, 0x1F0000000000000000, 0x0E0000000000000000⟩
  | .stz _ _ => ⟨72, 0x1F0000000000000000, 0x0F0000000000000000⟩
  | .asl _ _ => ⟨72, 0x1F0000000000000000, 0x100000000000000000⟩
  | .rol _ _ => ⟨72, 0x1F0000000000000000, 0x110000000000000000⟩
  | .lsr _ _ => ⟨72, 0x1F0000000000000000, 0x120000000000000000⟩
  | .ror _ _ => ⟨72, 0x1F0000000000000000, 0x130000000000000000⟩
  | .inc _ _ => ⟨72, 0x1F0000000000000000, 0x140000000000000000⟩
  | .dec _ _ => ⟨72, 0x1F0000000000000000, 0x150000000000000000⟩
  | .tsb _ _ => ⟨72, 0x1F0000000000000000, 0x160000000000000000⟩
  | .trb _ _ => ⟨72, 0x1F0000000000000000, 0x170000000000000000⟩
  | .stepInto _ => ⟨40, 0x300000000, 0x000000000⟩
  | .stepOver _ => ⟨40, 0x300000000, 0x100000000⟩
  | .stepOut _ => ⟨40, 0x300000000, 0x200000000⟩
  | .jsrAbs _ => ⟨24, 0xFF, 0x20⟩
  | .jslLong _ => ⟨32, 0xFF, 0x22⟩
  | .jsrAbsX _ => ⟨24, 0xFF, 0xFC⟩
  | .rts => ⟨8, 0xFF, 0x60⟩
  | .rtl => ⟨8, 0xFF, 0x6B⟩
  | .rti => ⟨8, 0xFF, 0x40⟩
  | .bplRel _ => ⟨16, 0xFF, 0x10⟩
  | .bmiRel _ => ⟨16, 0xFF, 0x30⟩
  | .bvcRel _ => ⟨16, 0xFF, 0x50⟩
  | .bvsRel _ => ⟨16, 0xFF, 0x70⟩
  | .bccRel _ => ⟨16, 0xFF, 0x90⟩
  | .bcsRel _ => ⟨16, 0xFF, 0xB0⟩
  | .bneRel _ => ⟨16, 0xFF, 0xD0⟩
  | .beqRel _ => ⟨16, 0xFF, 0xF0⟩
  | .jmpAbs _ => ⟨24, 0xFF, 0x4C⟩
  | .jmlLong _ => ⟨32, 0xFF, 0x5C⟩
  | .jmpInd _ => ⟨24, 0xFF, 0x6C⟩
  | .jmpIndX _ => ⟨24, 0xFF, 0x7C⟩
  | .jmlInd _ => ⟨24, 0xFF, 0xDC⟩
  | .braRel _ => ⟨16, 0xFF, 0x80⟩
  | .brlRel16 _ => ⟨24, 0xFF, 0x82⟩

/-- The encoded word matches its row, and is read back from it. -/
def Statement (i : Instr) : Prop :=
  number (encode i) &&& (row i).mask = (row i).pattern ∧ decodeTableWord (row i).bits (number (encode i)) = some i

/-! ## The formats, said once -/

/-- The top field of a word under its mask. -/
theorem top_and_mask {n k c r : Nat} (hc : c < 2 ^ k) (hr : r < 2 ^ n) :
    (c <<< n ||| r) &&& ((2 ^ k - 1) <<< n) = c <<< n := by
  apply Nat.eq_of_testBit_eq
  intro i
  simp only [Nat.testBit_and, Nat.testBit_or, Nat.testBit_shiftLeft, Nat.testBit_two_pow_sub_one]
  by_cases h : n ≤ i
  · have : r.testBit i = false := Nat.testBit_lt_two_pow (Nat.lt_of_lt_of_le hr (Nat.pow_le_pow_right (by decide) h))
    by_cases hk : i - n < k
    · simp [h, hk, this]
    · have hz : c.testBit (i - n) = false :=
        Nat.testBit_lt_two_pow (Nat.lt_of_lt_of_le hc (Nat.pow_le_pow_right (by decide) (by omega)))
      simp [h, hk, hz]
  · simp [h]

/-- A word of format XCMD in its row, and read back (R91). -/
theorem xcmd (op : ExecOp) (low high : Addr) :
    (op.code ++ high ++ low).toNat &&& 0x1F0000000000000000 = op.code.toNat <<< 64 ∧
      decodeTableWord 72 (op.code ++ high ++ low).toNat = some (op.toInstr low high) := by
  constructor
  · have e : (op.code ++ high ++ low).toNat = op.code.toNat <<< 64 ||| (high ++ low).toNat := by
      rw [← BitVec.toNat_append]; exact congrArg BitVec.toNat (BitVec.append_assoc (x₁ := op.code) (x₂ := high) (x₃ := low))
    rw [e]
    exact top_and_mask (n := 64) (k := 5) op.code.isLt (high ++ low).isLt
  · have hlt := (op.code ++ high ++ low).isLt
    have e : BitVec.ofNat 69 (op.code ++ high ++ low).toNat = op.code ++ high ++ low := BitVec.ofNat_toNat _ _
    simp only [decodeTableWord, commandOfTableWord, show ¬(72 ≤ 32) by decide, show ¬(72 ≤ 40) by decide, if_false]
    rw [if_pos (show (op.code ++ high ++ low).toNat < 2 ^ 69 from hlt)]
    simp only [e, decode, decodeXcmd_append]
    rfl

/-- A word of format SCMD in its row, and read back (R94). -/
theorem scmd (cmd : BitVec 2) (max : BitVec 32) {i : Instr} (h : decodeScmd (cmd ++ max) = .ok i) :
    (cmd ++ max).toNat &&& 0x300000000 = cmd.toNat <<< 32 ∧ decodeTableWord 40 (cmd ++ max).toNat = some i := by
  constructor
  · rw [BitVec.toNat_append]
    exact top_and_mask (n := 32) (k := 2) cmd.isLt max.isLt
  · have hlt := (cmd ++ max).isLt
    have e : BitVec.ofNat 34 (cmd ++ max).toNat = cmd ++ max := BitVec.ofNat_toNat _ _
    simp only [decodeTableWord, commandOfTableWord, show ¬(40 ≤ 32) by decide, show 40 ≤ 40 by decide, if_false, if_true]
    rw [if_pos (show (cmd ++ max).toNat < 2 ^ 34 from hlt)]
    simp only [e, decode, h]
    rfl

/-- Four bytes read back from their number. -/
theorem bytesOfTableWord_number (b0 b1 b2 b3 : Byte) :
    bytesOfTableWord (numberOfBytes [b0, b1, b2, b3]) = [b0, b1, b2, b3] ∧ numberOfBytes [b0, b1, b2, b3] < 2 ^ 32 := by
  have h0 := b0.isLt
  have h1 := b1.isLt
  have h2 := b2.isLt
  have h3 := b3.isLt
  have byte (n : Nat) (b : Byte) (h : n % 256 = b.toNat) : BitVec.ofNat 8 n = b := by
    apply BitVec.eq_of_toNat_eq
    rw [BitVec.toNat_ofNat]; exact h
  simp only [bytesOfTableWord, numberOfBytes]
  exact ⟨by rw [byte _ b0 (by omega), byte _ b1 (by omega), byte _ b2 (by omega), byte _ b3 (by omega)], by omega⟩

/-- A 65816 instruction in its row, and read back (R95): `bytes` with zeros after them. -/
theorem opc8 {bits : Nat} (hb : bits ≤ 32) (op b1 b2 b3 : Byte) {i : Instr} (h : decode (.opc8 [op, b1, b2, b3]) = .ok i) :
    numberOfBytes [op, b1, b2, b3] &&& 0xFF = op.toNat ∧ decodeTableWord bits (numberOfBytes [op, b1, b2, b3]) = some i := by
  constructor
  · have h0 := op.isLt
    rw [show (0xFF : Nat) = 2 ^ 8 - 1 from rfl, Nat.and_two_pow_sub_one_eq_mod]
    simp only [numberOfBytes]; omega
  · obtain ⟨e, hlt⟩ := bytesOfTableWord_number op b1 b2 b3
    simp only [decodeTableWord, commandOfTableWord, hb, if_true]
    rw [if_pos hlt]
    simp only [e, h]
    rfl

/-! ## One lemma per constructor -/

theorem and (low high : Addr) : Statement (.and low high) := xcmd .and low high

theorem eor (low high : Addr) : Statement (.eor low high) := xcmd .eor low high

theorem ora (low high : Addr) : Statement (.ora low high) := xcmd .ora low high

theorem adc (low high : Addr) : Statement (.adc low high) := xcmd .adc low high

theorem sbc (low high : Addr) : Statement (.sbc low high) := xcmd .sbc low high

theorem cmp (low high : Addr) : Statement (.cmp low high) := xcmd .cmp low high

theorem cpx (low high : Addr) : Statement (.cpx low high) := xcmd .cpx low high

theorem cpy (low high : Addr) : Statement (.cpy low high) := xcmd .cpy low high

theorem bit (low high : Addr) : Statement (.bit low high) := xcmd .bit low high

theorem lda (low high : Addr) : Statement (.lda low high) := xcmd .lda low high

theorem ldx (low high : Addr) : Statement (.ldx low high) := xcmd .ldx low high

theorem ldy (low high : Addr) : Statement (.ldy low high) := xcmd .ldy low high

theorem sta (low high : Addr) : Statement (.sta low high) := xcmd .sta low high

theorem stx (low high : Addr) : Statement (.stx low high) := xcmd .stx low high

theorem sty (low high : Addr) : Statement (.sty low high) := xcmd .sty low high

theorem stz (low high : Addr) : Statement (.stz low high) := xcmd .stz low high

theorem asl (low high : Addr) : Statement (.asl low high) := xcmd .asl low high

theorem rol (low high : Addr) : Statement (.rol low high) := xcmd .rol low high

theorem lsr (low high : Addr) : Statement (.lsr low high) := xcmd .lsr low high

theorem ror (low high : Addr) : Statement (.ror low high) := xcmd .ror low high

theorem inc (low high : Addr) : Statement (.inc low high) := xcmd .inc low high

theorem dec (low high : Addr) : Statement (.dec low high) := xcmd .dec low high

theorem tsb (low high : Addr) : Statement (.tsb low high) := xcmd .tsb low high

theorem trb (low high : Addr) : Statement (.trb low high) := xcmd .trb low high

theorem stepInto (max : BitVec 32) : Statement (.stepInto max) :=
  scmd 0#2 max (by simp [decodeScmd])

theorem stepOver (max : BitVec 32) : Statement (.stepOver max) :=
  scmd 1#2 max (by simp [decodeScmd])

theorem stepOut (max : BitVec 32) : Statement (.stepOut max) :=
  scmd 2#2 max (by simp [decodeScmd])

theorem jsrAbs (addr : BitVec 16) : Statement (.jsrAbs addr) :=
  opc8 (bits := 24) (by decide) 0x20#8 (addr.extractLsb' 0 8) (addr.extractLsb' 8 8) 0
    (by simp [decode, decodeOpc8, decodeOpcode, operand16])

theorem jslLong (addr : BitVec 24) : Statement (.jslLong addr) :=
  opc8 (bits := 32) (by decide) 0x22#8 (addr.extractLsb' 0 8) (addr.extractLsb' 8 8) (addr.extractLsb' 16 8)
    (by simp [decode, decodeOpc8, decodeOpcode, operand24])

theorem jsrAbsX (addr : BitVec 16) : Statement (.jsrAbsX addr) :=
  opc8 (bits := 24) (by decide) 0xFC#8 (addr.extractLsb' 0 8) (addr.extractLsb' 8 8) 0
    (by simp [decode, decodeOpc8, decodeOpcode, operand16])

theorem rts : Statement .rts := opc8 (bits := 8) (by decide) 0x60#8 0 0 0 rfl

theorem rtl : Statement .rtl := opc8 (bits := 8) (by decide) 0x6B#8 0 0 0 rfl

theorem rti : Statement .rti := opc8 (bits := 8) (by decide) 0x40#8 0 0 0 rfl

theorem bplRel (disp : BitVec 8) : Statement (.bplRel disp) := opc8 (bits := 16) (by decide) 0x10#8 disp 0 0 rfl

theorem bmiRel (disp : BitVec 8) : Statement (.bmiRel disp) := opc8 (bits := 16) (by decide) 0x30#8 disp 0 0 rfl

theorem bvcRel (disp : BitVec 8) : Statement (.bvcRel disp) := opc8 (bits := 16) (by decide) 0x50#8 disp 0 0 rfl

theorem bvsRel (disp : BitVec 8) : Statement (.bvsRel disp) := opc8 (bits := 16) (by decide) 0x70#8 disp 0 0 rfl

theorem bccRel (disp : BitVec 8) : Statement (.bccRel disp) := opc8 (bits := 16) (by decide) 0x90#8 disp 0 0 rfl

theorem bcsRel (disp : BitVec 8) : Statement (.bcsRel disp) := opc8 (bits := 16) (by decide) 0xB0#8 disp 0 0 rfl

theorem bneRel (disp : BitVec 8) : Statement (.bneRel disp) := opc8 (bits := 16) (by decide) 0xD0#8 disp 0 0 rfl

theorem beqRel (disp : BitVec 8) : Statement (.beqRel disp) := opc8 (bits := 16) (by decide) 0xF0#8 disp 0 0 rfl

theorem jmpAbs (addr : BitVec 16) : Statement (.jmpAbs addr) :=
  opc8 (bits := 24) (by decide) 0x4C#8 (addr.extractLsb' 0 8) (addr.extractLsb' 8 8) 0
    (by simp [decode, decodeOpc8, decodeOpcode, operand16])

theorem jmlLong (addr : BitVec 24) : Statement (.jmlLong addr) :=
  opc8 (bits := 32) (by decide) 0x5C#8 (addr.extractLsb' 0 8) (addr.extractLsb' 8 8) (addr.extractLsb' 16 8)
    (by simp [decode, decodeOpc8, decodeOpcode, operand24])

theorem jmpInd (addr : BitVec 16) : Statement (.jmpInd addr) :=
  opc8 (bits := 24) (by decide) 0x6C#8 (addr.extractLsb' 0 8) (addr.extractLsb' 8 8) 0
    (by simp [decode, decodeOpc8, decodeOpcode, operand16])

theorem jmpIndX (addr : BitVec 16) : Statement (.jmpIndX addr) :=
  opc8 (bits := 24) (by decide) 0x7C#8 (addr.extractLsb' 0 8) (addr.extractLsb' 8 8) 0
    (by simp [decode, decodeOpc8, decodeOpcode, operand16])

theorem jmlInd (addr : BitVec 16) : Statement (.jmlInd addr) :=
  opc8 (bits := 24) (by decide) 0xDC#8 (addr.extractLsb' 0 8) (addr.extractLsb' 8 8) 0
    (by simp [decode, decodeOpc8, decodeOpcode, operand16])

theorem braRel (disp : BitVec 8) : Statement (.braRel disp) := opc8 (bits := 16) (by decide) 0x80#8 disp 0 0 rfl

theorem brlRel16 (disp : BitVec 16) : Statement (.brlRel16 disp) :=
  opc8 (bits := 24) (by decide) 0x82#8 (disp.extractLsb' 0 8) (disp.extractLsb' 8 8) 0
    (by simp [decode, decodeOpc8, decodeOpcode, operand16])

end Sys2Proof.Laws.TableRow
end

