-- ==== Sys2Proof/Laws/Queries.lean ====
section
/-! SUPPORT. Classifier queries: the two address calculations as numbers, what a query answers, and where a placed
instruction's bytes go (46_classifier.md R230 to R261). -/

namespace Sys2Proof.Machine

/-- What a query answers, and what it leaves alone. -/
theorem answered_answerQuery (op : Byte) (s : State) (reads : List Addr) (h : callTargetReads s.queryPc op = reads) : Answered (classify s s.queryPc op) reads s (answerQuery op s) := by
  subst h
  exact ⟨rfl, rfl, rfl, rfl, rfl, rfl, rfl, rfl, rfl⟩

/-- The bank part of an address as a number. -/
theorem and_bank (a : Addr) : (a &&& 0xFF0000).toNat = a.toNat / 65536 % 256 * 65536 := by
  have : a &&& (0xFF0000 : Addr) = (a.extractLsb' 16 8).setWidth 32 <<< 16 := by
    apply BitVec.eq_of_getLsbD_eq
    intro i hi
    have hm : (0xFF0000 : Addr).getLsbD i = (decide (16 ≤ i) && decide (i < 24)) := by revert i; decide
    simp only [BitVec.getLsbD_and, hm, BitVec.getLsbD_shiftLeft, BitVec.getLsbD_setWidth, BitVec.getLsbD_extractLsb']
    by_cases h1 : 16 ≤ i
    · by_cases h2 : i < 24
      · simp [h1, h2, hi, show ¬ i < 16 by omega, show i - 16 < 8 by omega, show i - 16 < 32 by omega, show 16 + (i - 16) = i by omega]
      · simp [h2, show ¬ i - 16 < 8 by omega]
    · simp [h1, show i < 16 by omega]
  rw [this, BitVec.toNat_shiftLeft, BitVec.toNat_setWidth, BitVec.extractLsb'_toNat, Nat.shiftLeft_eq, Nat.shiftRight_eq_div_pow]
  omega

/-- The offset part of an address as a number. -/
theorem and_offset (a : Addr) : (a &&& 0x00FFFF).toNat = a.toNat % 65536 := by
  rw [BitVec.toNat_and]; exact Nat.and_two_pow_sub_one_eq_mod a.toNat 16

/-- An address confined to the 24-bit space as a number. -/
theorem and_space (a : Addr) : (a &&& 0xFFFFFF).toNat = a.toNat % 16777216 := by
  rw [BitVec.toNat_and]; exact Nat.and_two_pow_sub_one_eq_mod a.toNat 24

/-- An OR of parts that do not overlap is a sum. -/
theorem or_parts {a b : Addr} (n k : Nat) (ha : a.toNat = k * 2 ^ n) (hb : b.toNat < 2 ^ n) : (a ||| b).toNat = a.toNat + b.toNat := by
  rw [BitVec.toNat_or, ha, ← Nat.shiftLeft_eq, ← Nat.shiftLeft_add_eq_or_of_lt hb]

/-- A combined address as a number. -/
theorem combine_toNat {b o : Nat} (hb : b < 256) (ho : o < 65536) : (combine b o).toNat = b * 65536 + o := by
  rw [combine, BitVec.toNat_ofNat]; omega

/-- The return address of JSR (46_classifier.md R235). -/
theorem calculateReturnAddress_short {op : Byte} (pc : Addr) (h : op = 0x20 ∨ op = 0xFC) :
    calculateReturnAddress pc op = combine (pc.toNat / 65536 % 256) ((pc.toNat + 3) % 65536) := by
  have hs : instructionSize op = 3 := by rcases h with rfl | rfl <;> decide
  have hn : (op == 0x22) = false := by rcases h with rfl | rfl <;> decide
  simp only [calculateReturnAddress, hs, hn, Bool.false_eq_true, if_false]
  apply BitVec.eq_of_toNat_eq
  rw [or_parts 16 (pc.toNat / 65536 % 256) (and_bank pc) (by rw [and_offset]; omega), and_bank, and_offset, BitVec.toNat_add, BitVec.toNat_ofNat, combine_toNat (by omega) (by omega)]
  omega

/-- The return address of JSL (46_classifier.md R235). -/
theorem calculateReturnAddress_long (pc : Addr) : calculateReturnAddress pc 0x22 = BitVec.ofNat 32 ((pc.toNat + 4) % 16777216) := by
  apply BitVec.eq_of_toNat_eq
  have : calculateReturnAddress pc 0x22 = (pc + 4) &&& 0xFFFFFF := rfl
  rw [this, and_space, BitVec.toNat_add, BitVec.toNat_ofNat]
  have : (4 : Addr).toNat = 4 := rfl
  omega

/-- A shifted byte as a number. -/
theorem byte_shift (b : Byte) (n : Nat) (h : n = 8 ∨ n = 16) : (b.setWidth 32 <<< n : Addr).toNat = b.toNat * 2 ^ n := by
  have := b.isLt
  rw [BitVec.toNat_shiftLeft, BitVec.toNat_setWidth, Nat.shiftLeft_eq]
  rcases h with rfl | rfl <;> omega

/-- A byte as an address. -/
theorem byte_low (b : Byte) : (b.setWidth 32 : Addr).toNat = b.toNat := by
  have := b.isLt
  rw [BitVec.toNat_setWidth]; omega

/-- A target put together from its parts. -/
theorem target_parts {x : Addr} {bank : Nat} (hx : x.toNat = bank * 65536) (hb : bank < 256) (hi lo : Byte) :
    x ||| (hi.setWidth 32 <<< 8) ||| lo.setWidth 32 = combine bank (hi.toNat * 256 + lo.toNat) := by
  have h1 := hi.isLt; have h2 := lo.isLt
  apply BitVec.eq_of_toNat_eq
  have e1 : (x ||| (hi.setWidth 32 <<< 8)).toNat = x.toNat + hi.toNat * 256 := by
    rw [or_parts 16 bank hx (by rw [byte_shift _ _ (.inl rfl)]; omega), byte_shift _ _ (.inl rfl)]; norm_num
  rw [or_parts 8 (bank * 256 + hi.toNat) (by rw [e1]; omega) (by rw [byte_low]; omega), e1, byte_low, combine_toNat hb (by omega)]
  omega

/-- The target of JSR (46_classifier.md R236). -/
theorem calculateCallTarget_short (rd : Addr → Byte) (pc : Addr) : calculateCallTarget rd pc 0x20 = combine (pc.toNat / 65536 % 256) ((rd (pc + 2)).toNat * 256 + (rd (pc + 1)).toNat) :=
  target_parts (and_bank pc) (by omega) _ _

/-- The target of JSL (46_classifier.md R236). -/
theorem calculateCallTarget_long (rd : Addr → Byte) (pc : Addr) : calculateCallTarget rd pc 0x22 = combine (rd (pc + 3)).toNat ((rd (pc + 2)).toNat * 256 + (rd (pc + 1)).toNat) :=
  target_parts (byte_shift _ _ (.inr rfl)) (rd (pc + 3)).isLt _ _

/-- Stepping an opcode that is neither a call nor a return (47_step_controller.md R285). -/
theorem stepInto_plain (s : State) (max : BitVec 32) (hc : Configured s) (h1 : isCall s.opcode = false) (h2 : isReturn s.opcode = false) :
    ∃ t r, exec (.stepInto max) s = .next t ∧ Delivers r t ∧ t.callStack = s.callStack ∧ r.success = true ∧ r.call = none ∧ r.ret = none := by
  have hc := (configured_iff s).mpr hc
  have hst : stackAfter s = (s.callStack, none, none) := by simp [stackAfter, h1, h2]
  refine ⟨_, _, rfl, rfl, ?_⟩
  rw [stepInto_eq _ hc, hst]; exact ⟨rfl, rfl, rfl, rfl⟩

/-- BRA is a branch as the open parameter says (R233). -/
theorem isBranch_bra : isBranch 0x80 = Config.braIsBranch := by
  simp [isBranch, isConditionalBranch, isJump, inBranchExtra]

/-- BRL is a branch as the open parameter says (R233). -/
theorem isBranch_brl : isBranch 0x82 = Config.brlIsBranch := by
  simp [isBranch, isConditionalBranch, isJump, inBranchExtra]

/-- What the classifier says of an opcode it does not list (46_classifier.md R261). -/
theorem unclassified_of_not_mem (op : Byte) (h : op ∉ [(0x20 : Byte), 0x22, 0xFC, 0x60, 0x6B, 0x40, 0x10, 0x30, 0x50, 0x70, 0x90, 0xB0, 0xD0, 0xF0, 0x4C, 0x5C,
      0x6C, 0x7C, 0xDC, 0x80, 0x82]) : isCall op = false ∧ isReturn op = false ∧ isBranch op = false ∧ instructionSize op = sizeOther op := by
  simp only [List.mem_cons, List.not_mem_nil, or_false, not_or] at h
  simp only [← ne_eq, ← bne_iff_ne, bne, Bool.not_eq_true'] at h
  simp only [isCall, isReturn, isBranch, isConditionalBranch, isJump, inBranchExtra, instructionSize, h, Bool.or_false, Bool.false_and, and_self, Bool.false_eq_true, if_false]

/-- Two bytes as a number. -/
theorem append2_toNat (hi lo : Byte) : (hi ++ lo : BitVec 16).toNat = hi.toNat * 256 + lo.toNat := by
  rw [BitVec.toNat_append, ← Nat.shiftLeft_add_eq_or_of_lt lo.isLt, Nat.shiftLeft_eq]

/-- Three bytes as a number. -/
theorem append3_toNat (bk hi lo : Byte) : (bk ++ hi ++ lo : BitVec 24).toNat = bk.toNat * 65536 + (hi.toNat * 256 + lo.toNat) := by
  rw [BitVec.toNat_append, ← Nat.shiftLeft_add_eq_or_of_lt lo.isLt, Nat.shiftLeft_eq, append2_toNat]; omega

/-- The word of an executor command (30_encoding.md R91). -/
theorem encode_toInstr (op : ExecOp) (low high : Addr) : encode (op.toInstr low high) = .xcmd (op.code ++ high ++ low) := by
  cases op <;> rfl

/-- The bytes of a two-byte operand. -/
theorem operandBytes16 (lo hi : Byte) : ((hi ++ lo : BitVec 16)).extractLsb' 0 8 = lo ∧ ((hi ++ lo : BitVec 16)).extractLsb' 8 8 = hi :=
  ⟨extract_append_low hi lo, extract_append_high hi lo⟩

/-- The bytes of a three-byte operand. -/
theorem operandBytes24 (lo hi bk : Byte) : ((bk ++ hi ++ lo : BitVec 24)).extractLsb' 0 8 = lo ∧ ((bk ++ hi ++ lo : BitVec 24)).extractLsb' 8 8 = hi ∧ ((bk ++ hi ++ lo : BitVec 24)).extractLsb' 16 8 = bk :=
  ⟨extract_append_low (bk ++ hi) lo, extract_append_mid bk hi lo, extract_append_top bk hi lo⟩

/-- The operand bytes that placing an instruction stores. -/
theorem placeBytes4 {m : Memory} (hm : memWf m) {a : Nat} (ha : a + 4 ≤ addressSpace) (b0 b1 b2 b3 : Byte) :
    memRead (placeBytes m a [b0, b1, b2, b3]) (a + 1) = b1 ∧ memRead (placeBytes m a [b0, b1, b2, b3]) (a + 2) = b2 ∧
      memRead (placeBytes m a [b0, b1, b2, b3]) (a + 3) = b3 := by
  have h1 := memWf_memWrite hm (a := a) (by omega) b0
  have h2 := memWf_memWrite h1 (a := a + 1) (by omega) b1
  have h3 := memWf_memWrite h2 (a := a + 1 + 1) (by omega) b2
  simp only [placeBytes]
  refine ⟨?_, ?_, memRead_memWrite_same h3 _ _⟩
  · rw [memRead_memWrite_other h3 _ (by omega), memRead_memWrite_other h2 _ (by omega)]
    exact memRead_memWrite_same h1 _ _
  · rw [memRead_memWrite_other h3 _ (by omega)]
    exact memRead_memWrite_same h2 _ _

/-- A placed instruction lies inside the space. -/
theorem placePc_le (s : State) : (placePc s).toNat + 4 ≤ addressSpace := by
  unfold placePc; split
  · assumption
  · decide

end Sys2Proof.Machine
end

