-- ==== Sys2Proof/Laws/Results.lean ====
section
/-! SUPPORT. What the commands report and what they keep (60_exceptions.md R322; 10_state.md R32; 47_step_controller.md
R297). -/

namespace Sys2Proof.Machine

/-- No step command changes the settings. -/
theorem keepsSettings_of_same {s t : State} (h : SameSettings s t) (r : Reply) : KeepsSettings s (t.answer r) := ⟨h.1, h.2.1, h.2.2.1, h.2.2.2.1, h.2.2.2.2.1⟩

/-- An executor command is no step command. -/
theorem not_isStep_toInstr (op : ExecOp) (low high : Addr) : ¬IsStep (op.toInstr low high) := by
  rintro ⟨m, h | h | h⟩ <;> cases op <;> cases h

/-- An executor command has an effective-address pair. -/
theorem ea_toInstr (op : ExecOp) (low high : Addr) : (op.toInstr low high).ea ≠ none := by
  cases op <;> simp [ExecOp.toInstr, Instr.ea]

/-- StepOver keeps the settings. -/
theorem same_stepOver (max : BitVec 32) (s : State) : SameSettings s (stepOver Config.stepper max s).2 :=
  stepOver_keeps (P := fun t => SameSettings s t) _ _ (fun t h => h.trans (sameSettings_stepInto _ t)) (fun _ _ h => h) (.refl s)

/-- StepOut keeps the settings. -/
theorem same_stepOut (max : BitVec 32) (s : State) : SameSettings s (stepOut Config.stepper max s).2 :=
  stepOut_keeps (P := fun t => SameSettings s t) _ _ (fun t h => h.trans (sameSettings_stepInto _ t)) (fun _ _ h => h) (.refl s)

/-- The record of contract calls does not touch the environment. -/
theorem env_of_forgetCalls {s t : State} (h : s.forgetCalls = t.forgetCalls) : s.env = t.env ∧ s.callStack = t.callStack :=
  ⟨(congrArg State.env h : _), (congrArg State.callStack h : _)⟩

/-- An 8-bit operand has a zero high byte (44_load_store.md R188). -/
theorem operand_w8_and (m : Memory) (ea : EA) : operandIn m .w8 ea &&& 0xFF00 = 0 := by
  have := operandIn_w8_lt m ea
  apply BitVec.eq_of_getLsbD_eq
  intro i hi
  have : (0xFF00 : Word).getLsbD i = decide (8 ≤ i) := by revert i; decide
  rw [BitVec.getLsbD_and, this]
  by_cases h : 8 ≤ i
  · simp [operandIn, BitVec.getLsbD_setWidth, h]
  · simp [h]

/-- What an operation can leave in X and Y (44_load_store.md R182, R183). -/
theorem opEffect_xy (op : ExecOp) (ea : EA) (e : Env) :
    ((opEffect op ea e).regs.x = e.regs.x ∨ (opEffect op ea e).regs.x = operandIn e.mem (width .x e.regs) ea) ∧
    ((opEffect op ea e).regs.y = e.regs.y ∨ (opEffect op ea e).regs.y = operandIn e.mem (width .x e.regs) ea) := by
  by_cases h : (rmwFn op).isSome
  · obtain ⟨f, hf⟩ := Option.isSome_iff_exists.mp h
    rw [opEffect_of_rmwFn hf, rmwOp_regs]
    cases op <;> simp only [rmwFn, Option.some.injEq, reduceCtorEq] at hf <;> subst hf <;> exact ⟨.inl rfl, .inl rfl⟩
  · cases op <;> simp only [rmwFn, Option.isSome_some, Option.isSome_none, not_true_eq_false] at h
    case and => simp [opEffect, andOp, logicOp_regs]
    case eor => simp [opEffect, eorOp, logicOp_regs]
    case ora => simp [opEffect, oraOp, logicOp_regs]
    case adc => simp [opEffect, adcOp, arithOp_regs, finishArith, setCarryFlag, setOverflowFlag]
    case sbc => simp [opEffect, sbcOp, arithOp_regs, finishArith, setCarryFlag, setOverflowFlag]
    case cmp => simp [opEffect, cmpOp, compareOp_regs, setCarryFlag]
    case cpx => simp [opEffect, cpxOp, compareOp_regs, setCarryFlag]
    case cpy => simp [opEffect, cpyOp, compareOp_regs, setCarryFlag]
    case bit => simp [opEffect, bitOp, setOverflowFlag, setNegativeFlag, setZeroFlag]
    case lda => simp [opEffect, ldaOp]
    case ldx => simp [opEffect, ldxOp]
    case ldy => simp [opEffect, ldyOp]
    case sta => simp [opEffect, staOp, storeOp]
    case stx => simp [opEffect, stxOp, storeOp]
    case sty => simp [opEffect, styOp, storeOp]
    case stz => simp [opEffect, stzOp, storeOp]

/-- An operation keeps the environment invariants (10_state.md R32). -/
theorem launch_opEffect (op : ExecOp) (ea : EA) (e : Env) (h : e.regs.LaunchOk) : (opEffect op ea e).regs.LaunchOk := by
  have k := opEffect_keeps op ea e
  have xy := opEffect_xy op ea e
  unfold KeepsMachineRegs at k
  obtain ⟨-, -, -, -, -, he, hm, hx, -, -⟩ := k
  refine ⟨?_, ?_⟩
  · rw [he, hm, hx]; exact h.1
  · rw [hx]; intro h8
    have hw : width .x e.regs = .w8 := by simp [width_x, h8]
    rw [hw] at xy
    refine ⟨?_, ?_⟩
    · rcases xy.1 with e1 | e1 <;> rw [e1]
      · exact (h.2 h8).1
      · exact operand_w8_and _ _
    · rcases xy.2 with e1 | e1 <;> rw [e1]
      · exact (h.2 h8).2
      · exact operand_w8_and _ _

/-- The status of a result decides its success and its message (60_exceptions.md R322). -/
def StepResult.Formed (r : StepResult) : Prop := (r.success = true ↔ r.status = .ok) ∧ r.message = r.status.message

/-- A failure is stepOver_reports formed. -/
theorem formed_fail {c : Status} (h : c ≠ .ok) (pc n call) : StepResult.Formed (fail c pc n call) := ⟨by simp [fail, h], rfl⟩

/-- A success is stepOver_reports formed. -/
theorem formed_succeed (pc n call ret) : StepResult.Formed (succeed pc n call ret) := ⟨by simp [succeed], rfl⟩

/-- What StepInto can report. -/
theorem stepInto_reports (stp : Stepper) (s : State) : StepResult.Formed (stepInto stp s).1 ∧ ((stepInto stp s).1.status = .ok ∨ (stepInto stp s).1.status = .errConfig) := by
  unfold stepInto; split
  · exact ⟨formed_succeed _ _ _ _, .inl rfl⟩
  · exact ⟨formed_fail (by decide) _ _ _, .inr rfl⟩

/-- What StepOver can report. -/
theorem stepOver_reports (stp : Stepper) (max : BitVec 32) (s : State) : StepResult.Formed (stepOver stp max s).1 ∧ (stepOver stp max s).1.status ≠ .errEmptyStack ∧ ((stepOver stp max s).1.status = .errTimeout → isCall s.opcode = true) := by
  cases hc : s.configured with
  | false =>
    simp only [stepOver, hc]
    exact ⟨formed_fail (by decide) _ _ _, fun h => (by cases h), fun h => by cases h⟩
  | true =>
    cases hn : isCall s.opcode with
    | false =>
      rw [stepOver_noCall stp max hc hn]
      obtain ⟨h1, h2⟩ := stepInto_reports stp (s.logCalls [.pcGetter s.pcGetter, .reader s.pcGetter s.opcode])
      refine ⟨h1, ?_, ?_⟩ <;> rcases h2 with h | h <;> rw [h] <;> simp
    | true =>
      rcases stepOver_call_cases stp max hc hn with ⟨n, e, -, -, -, h4⟩ | ⟨n, -, -, h4⟩ <;> rw [h4]
      · exact ⟨formed_succeed _ _ _ _, by simp [finishWith, succeed], fun _ => rfl⟩
      · exact ⟨formed_fail (by decide) _ _ _, by simp [finishWith, fail], fun _ => rfl⟩

/-- What StepOut can report. -/
theorem stepOut_reports (stp : Stepper) (max : BitVec 32) (s : State) : StepResult.Formed (stepOut stp max s).1 := by
  cases hc : s.configured with
  | false => simp only [stepOut, hc]; exact formed_fail (by decide) _ _ _
  | true =>
    by_cases hn : s.callStack = []
    · have hd : s.depth = 0 := by simp [State.depth, hn]
      simp only [stepOut, hc, if_true, hd]; exact formed_fail (by decide) _ _ _
    · rcases stepOut_cases stp max hc hn with ⟨n, e, -, -, -, h4⟩ | ⟨-, h4⟩ <;> rw [h4]
      · exact formed_succeed _ _ _ _
      · exact formed_fail (by decide) _ _ _

/-- Only an SCMD word is fetched as a step command. -/
theorem take_scmd_run {r : Request} {s u : State} {i : Instr} (h : take r s = .run i u) (hi : IsStep i) : ∃ w, r = .scmd w := by
  cases r with
  | xcmd w =>
    simp only [take, fetchCommand, decode, decodeXcmd] at h
    cases hc : ExecOp.ofCode (xcmdOp w) with
    | none => rw [hc] at h; cases h
    | some op => rw [hc] at h; cases h; exact absurd hi (not_isStep_toInstr _ _ _)
  | scmd w => exact ⟨w, rfl⟩
  | query pc op =>
    simp only [take, fetchQuery] at h
    cases hd : decode (.opc8 (queryBytes pc op s)) with
    | error e => rw [hd] at h; cases h
    | ok j =>
      rw [hd] at h; cases h
      have := exec_of_decodeOpcode hd State.reset
      obtain ⟨m, rfl | rfl | rfl⟩ := hi <;>
      · have := congrArg State.reply (Host.Outcome.next.inj this); simp at this
  | _ => cases h

/-- The record of contract calls does not touch the call stack. -/
theorem callStack_of_forgetCalls {s t : State} (h : s.forgetCalls = t.forgetCalls) : s.callStack = t.callStack := (congrArg State.callStack h : _)

/-- Fetching a step command changes nothing else. -/
theorem take_scmd {w : BitVec 34} {s u : State} {i : Instr} (h : take (.scmd w) s = .run i u) : u = s := by
  simp only [take, fetchCommand] at h; split at h <;> cases h; rfl

/-- StepInto does not read the inbox. -/
theorem stepInto_inbox (stp : Stepper) (rest : List Request) (s : State) :
    (stepInto stp { s with inbox := rest }).2 = { (stepInto stp s).2 with inbox := rest } := by
  cases hc : s.configured with
  | false =>
    have hc' : State.configured { s with inbox := rest } = false := hc
    rw [stepInto_unconfigured stp hc, stepInto_unconfigured stp hc']
  | true =>
    have hc' : State.configured { s with inbox := rest } = true := hc
    rw [stepInto_eq stp hc, stepInto_eq stp hc']
    rfl

/-- No number of StepIntos reads the inbox. -/
theorem stepIntos_inbox (stp : Stepper) (k : Nat) (rest : List Request) (s : State) :
    (stepIntos stp k { s with inbox := rest }) = { stepIntos stp k s with inbox := rest } := by
  induction k generalizing s with
  | zero => rfl
  | succ k ih => rw [stepIntos_succ, stepIntos_succ, stepInto_inbox, ih]

end Sys2Proof.Machine
end

