-- ==== Sys2Proof/Tests/Slice0.lean ====
section
/-! SUPPORT. The model's own tests. Expected results come from spec/: the vectors and programs of 95_test_vectors.md, and
words laid out by hand from 30_encoding.md. After them, one witness for every obligation that has hypotheses. -/

namespace Sys2Proof.Tests

open Sys2Proof Sys2Proof.Machine

/-! ## Helpers -/

/-- A start state: `P`, one register, memory. -/
def st (p : Byte) (r : RegName) (v : Word) (m : Memory) : State :=
  let regs : RegFile := { RegFile.reset with p := p }
  let regs := match r with
    | .a => { regs with a := v }
    | .x => { regs with x := v }
    | .y => { regs with y := v }
    | _ => regs
  { State.reset with env := { regs := regs, mem := m, trace := [] } }

/-- What a vector shows of an outcome: one register, `P`, memory and `TRACE`. -/
def outcome (r : RegName) : Host.Outcome State Fault Refusal → Option (Word × Byte × Memory × List BusEvent)
  | .next t => some (t.env.regs.read r, t.env.regs.p, t.env.mem, t.env.trace)
  | .fault _ => none
  | .refused _ => none

/-- What a transaction answers. -/
def replyOf : Host.Outcome State Fault Refusal → Option Reply
  | .next t => t.reply
  | .fault _ => none
  | .refused _ => none

/-- A configured controller at a PC, with memory and a call stack. -/
def ready (pb : Byte) (pc : Word) (m : Memory) (cs : List CallStackEntry) : State :=
  { State.reset with
    env := { regs := { RegFile.reset with pb := pb, pc := pc }, mem := m, trace := [] }
    callStack := cs
    cfgReader := true
    cfgStepper := true
    cfgPc := true }

/-- A Stepper that puts the combined PC where a list says, call by call. -/
def scripted (pcs : List (Byte × Word)) : Stepper := fun n _ _ =>
  match pcs[n]? with
  | some (pb, pc) => [.setReg (.pb pb), .setReg (.pc pc)]
  | none => []

/-- What a program's row shows of a StepResult. -/
def shown (r : StepResult) : Bool × Status × Addr × Nat × Option CallStackEntry × Option CallStackEntry :=
  (r.success, r.status, r.newPc, r.instructionsExecuted.toNat, r.call, r.ret)

/-- The entry of program P2's JSR. -/
def jsrEntry : CallStackEntry := ⟨0x000000, 0x000010, 0x000003, false, none⟩

/-- Program P2: JSR $0010 at 0, RTS at 0x10. -/
def p2 : State := ready 0 0 [(0, 0x20), (1, 0x10), (0x10, 0x60)] []

/-- Program P4's entries: the JSL and the JSR. -/
def jslEntry : CallStackEntry := ⟨0x008000, 0x018000, 0x008004, true, none⟩
def innerEntry : CallStackEntry := ⟨0x018000, 0x018010, 0x018003, false, none⟩

/-! ## WellFormed: each check refuses an ill-formed term, and not its well-formed neighbour (20_memory.md R71) -/

theorem test_wellFormed_low_in_space :
    Instr.wellFormed .w8 (.lda 0x01000000 0) = false ∧ Instr.wellFormed .w8 (.lda 0x00FFFFFF 0) = true := by decide

theorem test_wellFormed_low_in_space_16 :
    Instr.wellFormed .w16 (.sta 0x01000000 1) = false ∧ Instr.wellFormed .w16 (.sta 0x00FFFFFF 1) = true := by decide

theorem test_wellFormed_high_in_space :
    Instr.wellFormed .w16 (.inc 1 0x01000000) = false ∧ Instr.wellFormed .w16 (.inc 1 0x00FFFFFF) = true := by decide

theorem test_wellFormed_distinct :
    Instr.wellFormed .w16 (.adc 0x10 0x10) = false ∧ Instr.wellFormed .w16 (.adc 0x10 0x0F) = true ∧
      Instr.wellFormed .w8 (.adc 0x10 0x10) = true := by decide

/-! ## Decoding: one word of every row, laid out from 30_encoding.md R91 to R97 -/

theorem test_decode_xcmd :
    decode (.xcmd 0x0000FFFFFF007E0010#69) = .ok (.and 0x007E0010 0x00FFFFFF) ∧
    decode (.xcmd 0x0100FFFFFE007E0111#69) = .ok (.eor 0x007E0111 0x00FFFFFE) ∧
    decode (.xcmd 0x0200FFFFFD007E0212#69) = .ok (.ora 0x007E0212 0x00FFFFFD) ∧
    decode (.xcmd 0x0300FFFFFC007E0313#69) = .ok (.adc 0x007E0313 0x00FFFFFC) ∧
    decode (.xcmd 0x0400FFFFFB007E0414#69) = .ok (.sbc 0x007E0414 0x00FFFFFB) ∧
    decode (.xcmd 0x0500FFFFFA007E0515#69) = .ok (.cmp 0x007E0515 0x00FFFFFA) ∧
    decode (.xcmd 0x0600FFFFF9007E0616#69) = .ok (.cpx 0x007E0616 0x00FFFFF9) ∧
    decode (.xcmd 0x0700FFFFF8007E0717#69) = .ok (.cpy 0x007E0717 0x00FFFFF8) ∧
    decode (.xcmd 0x0800FFFFF7007E0818#69) = .ok (.bit 0x007E0818 0x00FFFFF7) ∧
    decode (.xcmd 0x0900FFFFF6007E0919#69) = .ok (.lda 0x007E0919 0x00FFFFF6) ∧
    decode (.xcmd 0x0A00FFFFF5007E0A1A#69) = .ok (.ldx 0x007E0A1A 0x00FFFFF5) ∧
    decode (.xcmd 0x0B00FFFFF4007E0B1B#69) = .ok (.ldy 0x007E0B1B 0x00FFFFF4) ∧
    decode (.xcmd 0x0C00FFFFF3007E0C1C#69) = .ok (.sta 0x007E0C1C 0x00FFFFF3) ∧
    decode (.xcmd 0x0D00FFFFF2007E0D1D#69) = .ok (.stx 0x007E0D1D 0x00FFFFF2) ∧
    decode (.xcmd 0x0E00FFFFF1007E0E1E#69) = .ok (.sty 0x007E0E1E 0x00FFFFF1) ∧
    decode (.xcmd 0x0F00FFFFF0007E0F1F#69) = .ok (.stz 0x007E0F1F 0x00FFFFF0) ∧
    decode (.xcmd 0x1000FFFFEF007E1020#69) = .ok (.asl 0x007E1020 0x00FFFFEF) ∧
    decode (.xcmd 0x1100FFFFEE007E1121#69) = .ok (.rol 0x007E1121 0x00FFFFEE) ∧
    decode (.xcmd 0x1200FFFFED007E1222#69) = .ok (.lsr 0x007E1222 0x00FFFFED) ∧
    decode (.xcmd 0x1300FFFFEC007E1323#69) = .ok (.ror 0x007E1323 0x00FFFFEC) ∧
    decode (.xcmd 0x1400FFFFEB007E1424#69) = .ok (.inc 0x007E1424 0x00FFFFEB) ∧
    decode (.xcmd 0x1500FFFFEA007E1525#69) = .ok (.dec 0x007E1525 0x00FFFFEA) ∧
    decode (.xcmd 0x1600FFFFE9007E1626#69) = .ok (.tsb 0x007E1626 0x00FFFFE9) ∧
    decode (.xcmd 0x17FFFFFFFF00000001#69) = .ok (.trb 0x00000001 0xFFFFFFFF) := by decide

theorem test_decode_scmd :
    decode (.scmd 0x080000001#34) = .ok (.stepInto 0x80000001) ∧
    decode (.scmd 0x10000000A#34) = .ok (.stepOver 0x0000000A) ∧
    decode (.scmd 0x2000F4240#34) = .ok (.stepOut 0x000F4240) := by decide

theorem test_decode_opc8 :
    decode (.opc8 [0x20, 0x34, 0x12]) = .ok (.jsrAbs 0x1234) ∧
    decode (.opc8 [0x22, 0x56, 0x34, 0x7E]) = .ok (.jslLong 0x7E3456) ∧
    decode (.opc8 [0xFC, 0x34, 0x12]) = .ok (.jsrAbsX 0x1234) ∧
    decode (.opc8 [0x60]) = .ok .rts ∧
    decode (.opc8 [0x6B]) = .ok .rtl ∧
    decode (.opc8 [0x40]) = .ok .rti ∧
    decode (.opc8 [0x10, 0xFE]) = .ok (.bplRel 0xFE) ∧
    decode (.opc8 [0x30, 0xFE]) = .ok (.bmiRel 0xFE) ∧
    decode (.opc8 [0x50, 0xFE]) = .ok (.bvcRel 0xFE) ∧
    decode (.opc8 [0x70, 0xFE]) = .ok (.bvsRel 0xFE) ∧
    decode (.opc8 [0x90, 0xFE]) = .ok (.bccRel 0xFE) ∧
    decode (.opc8 [0xB0, 0xFE]) = .ok (.bcsRel 0xFE) ∧
    decode (.opc8 [0xD0, 0xFE]) = .ok (.bneRel 0xFE) ∧
    decode (.opc8 [0xF0, 0xFE]) = .ok (.beqRel 0xFE) ∧
    decode (.opc8 [0x4C, 0x34, 0x12]) = .ok (.jmpAbs 0x1234) ∧
    decode (.opc8 [0x5C, 0x56, 0x34, 0x7E]) = .ok (.jmlLong 0x7E3456) ∧
    decode (.opc8 [0x6C, 0x34, 0x12]) = .ok (.jmpInd 0x1234) ∧
    decode (.opc8 [0x7C, 0x34, 0x12]) = .ok (.jmpIndX 0x1234) ∧
    decode (.opc8 [0xDC, 0x34, 0x12]) = .ok (.jmlInd 0x1234) ∧
    decode (.opc8 [0x80, 0xFE]) = .ok (.braRel 0xFE) ∧
    decode (.opc8 [0x82, 0x34, 0x12]) = .ok (.brlRel16 0x1234) := by decide

theorem test_decode_reserved :
    decode (.xcmd 0x180000000000000001#69) = .error (.reservedXcmd 0x18) ∧
      decode (.xcmd 0x1F0000000000000001#69) = .error (.reservedXcmd 0x1F) ∧
      decode (.scmd 0x300000000#34) = .error .reservedScmd ∧ decode (.opc8 [0xEA]) = .error (.unclassified 0xEA) ∧
      decode (.opc8 [0x20, 0x10]) = .error .truncated := by decide

/-- The numbering of spec/opcode_table.json: later bytes are higher bits; the operand may have no bits. -/
theorem test_decode_table_word :
    decodeTableWord 72 0x0C007E0000007E00FF = some (.sta 0x7E00FF 0x7E0000) ∧
      decodeTableWord 40 0x200000005 = some (.stepOut 5) ∧ decodeTableWord 24 0x001020 = some (.jsrAbs 0x0010) ∧
      decodeTableWord 32 0x7E800022 = some (.jslLong 0x7E8000) ∧ decodeTableWord 8 0x82 = some (.brlRel16 0) ∧
      decodeTableWord 72 0x180000000000000000 = none := by decide

theorem test_encode :
    encode (.sta 0x7E00FF 0x7E0000) = .xcmd 0x0C007E0000007E00FF#69 ∧ encode (.stepOver 10) = .scmd 0x10000000A#34 ∧
      encode (.jslLong 0x7E8000) = .opc8 [0x22, 0x00, 0x80, 0x7E] := by decide

/-! ## A step -/

/-- A placed word runs as the first instruction after reset (`A = 0`, 8 bits): the store of 0 leaves memory empty. -/
theorem test_placed_xcmd :
    outcome .a (step (State.reset.withFetchWord 72 0x0C0000000000000100)) =
      some (0, 0x34, [], [.wr8 0x000100 0x00]) := by decide

/-- A placed step command, on the unconfigured controller of reset (R323). -/
theorem test_placed_scmd : replyOf (step (State.reset.withFetchWord 40 0)) = some (.stepped configError) := by decide

/-- A placed JSR $0010 (K1, K28). -/
theorem test_placed_opc8 :
    replyOf (step (State.reset.withFetchWord 24 0x001020)) =
      some (.classified ⟨true, false, false, 3, some 0x000003, some 0x000010⟩) := by decide

/-- An unclassified opcode is answered too (K12). -/
theorem test_query_unclassified :
    (step { State.reset with inbox := [.query 0 0xEA] }) =
      .next { State.reset with
        reply := some (.classified ⟨false, false, false, sizeOther 0xEA, none, none⟩), freeCount := 1 } := by rfl

/-- An address past bit 23 is refused by name (20_memory.md R71). -/
theorem test_malformed : step (State.reset.withFetchWord 72 0x0C0000000001000000) = .refused .malformedAddress := by
  rfl

/-- Vectors F4 and F6, through the host's transactions. -/
theorem test_setZN :
    outcome .a (step { st 0x00 .a 0 [] with inbox := [.flagOp (.setZN 0xFF00 .w8)] }) = some (0, 0x02, [], []) ∧
      outcome .a (step { st 0x02 .a 0 [] with inbox := [.flagOp (.setZN 0x8000 .w16)] }) = some (0, 0x80, [], []) :=
  ⟨by decide, by decide⟩

/-! ## The executor, on the vectors of 95_test_vectors.md section 3 -/

/-- Vector V1 (R141). -/
theorem test_V1_and :
    outcome .a (exec (.and 0x000100 0x000000) (st 0x71 .a 0x12F0 [(0x000100, 0x0F)])) =
      some (0x1200, 0x73, [(0x000100, 0x0F)], [.rd8 0x000100 0x0F]) := by decide

/-- Vector V3 (R141). -/
theorem test_V3_and :
    outcome .a (exec (.and 0x000100 0x000101) (st 0x10 .a 0xF0F0 [(0x000100, 0x01), (0x000101, 0x80)])) =
      some (0x8000, 0x90, [(0x000100, 0x01), (0x000101, 0x80)], [.rd16 0x000100 0x000101 0x8001]) := by decide

/-- Vector V6 (R142). -/
theorem test_V6_eor :
    outcome .a (exec (.eor 0x000100 0x000000) (st 0x20 .a 0xAB55 [(0x000100, 0xAA)])) =
      some (0xABFF, 0xA0, [(0x000100, 0xAA)], [.rd8 0x000100 0xAA]) := by decide

/-- Vector V7 (R142). -/
theorem test_V7_eor :
    outcome .a (exec (.eor 0x000100 0x000101) (st 0x11 .a 0x00FF [(0x000100, 0xFF), (0x000101, 0x80)])) =
      some (0x8000, 0x91, [(0x000100, 0xFF), (0x000101, 0x80)], [.rd16 0x000100 0x000101 0x80FF]) := by decide

/-- Vector V9 (R143). -/
theorem test_V9_ora :
    outcome .a (exec (.ora 0x000100 0x000000) (st 0x30 .a 0x1200 [])) =
      some (0x1200, 0x32, [], [.rd8 0x000100 0x00]) := by decide

/-- Vector V11 (R143). -/
theorem test_V11_ora :
    outcome .a (exec (.ora 0x01FFFF 0x010000) (st 0x10 .a 0x0001 [(0x010000, 0x40), (0x01FFFF, 0x02)])) =
      some (0x4003, 0x10, [(0x010000, 0x40), (0x01FFFF, 0x02)], [.rd16 0x01FFFF 0x010000 0x4002]) := by decide

/-- Vector V18 (R154). -/
theorem test_V18_adc :
    outcome .a (exec (.adc 0x000100 0x000101) (st 0x10 .a 0x7FFF [(0x000100, 0x01)])) =
      some (0x8000, 0xD0, [(0x000100, 0x01)], [.rd16 0x000100 0x000101 0x0001]) := by decide

/-- Vector V32 (R155). -/
theorem test_V32_adc :
    outcome .a (exec (.adc 0x000100 0x000000) (st 0x38 .a 0x0050 [(0x000100, 0x50)])) =
      some (0x0000, 0x7B, [(0x000100, 0x50)], [.rd8 0x000100 0x50]) := by decide

/-- Vector V28 (R158). -/
theorem test_V28_sbc :
    outcome .a (exec (.sbc 0x000100 0x000101) (st 0x11 .a 0x8000 [(0x000100, 0x01)])) =
      some (0x7FFF, 0x51, [(0x000100, 0x01)], [.rd16 0x000100 0x000101 0x0001]) := by decide

/-- Vector V47 (R159). -/
theorem test_V47_sbc :
    outcome .a (exec (.sbc 0x000100 0x000000) (st 0x38 .a 0x0042 [(0x000100, 0x15)])) =
      some (0x0026, 0x39, [(0x000100, 0x15)], [.rd8 0x000100 0x15]) := by decide

/-- Vector V52 (R171). -/
theorem test_V52_cmp :
    outcome .a (exec (.cmp 0x000100 0x000000) (st 0x70 .a 0x1250 [(0x000100, 0x50)])) =
      some (0x1250, 0x73, [(0x000100, 0x50)], [.rd8 0x000100 0x50]) := by decide

/-- Vector V58 (R171). -/
theorem test_V58_cmp :
    outcome .a (exec (.cmp 0x000100 0x000101) (st 0x00 .a 0x8000 [(0x000100, 0xFF), (0x000101, 0x7F)])) =
      some (0x8000, 0x01, [(0x000100, 0xFF), (0x000101, 0x7F)], [.rd16 0x000100 0x000101 0x7FFF]) := by decide

/-- Vector V60 (R172). -/
theorem test_V60_cpx :
    outcome .x (exec (.cpx 0x000100 0x000101) (st 0x20 .x 0x1234 [(0x000100, 0x35), (0x000101, 0x12)])) =
      some (0x1234, 0xA0, [(0x000100, 0x35), (0x000101, 0x12)], [.rd16 0x000100 0x000101 0x1235]) := by decide

/-- Vector V61 (R172). -/
theorem test_V61_cpx :
    outcome .x (exec (.cpx 0x000100 0x000000) (st 0x10 .x 0x00FF [])) =
      some (0x00FF, 0x91, [], [.rd8 0x000100 0x00]) := by decide

/-- Vector V62 (R173). -/
theorem test_V62_cpy :
    outcome .y (exec (.cpy 0x000100 0x000000) (st 0x30 .y 0x0000 [(0x000100, 0x01)])) =
      some (0x0000, 0xB0, [(0x000100, 0x01)], [.rd8 0x000100 0x01]) := by decide

/-- Vector V63 (R173). -/
theorem test_V63_cpy :
    outcome .y (exec (.cpy 0x000100 0x000101) (st 0x00 .y 0xFFFF [(0x000100, 0xFF), (0x000101, 0xFF)])) =
      some (0xFFFF, 0x03, [(0x000100, 0xFF), (0x000101, 0xFF)], [.rd16 0x000100 0x000101 0xFFFF]) := by decide

/-- Vector V66 (R174). -/
theorem test_V66_bit :
    outcome .a (exec (.bit 0x000100 0x000000) (st 0x30 .a 0xFF00 [(0x000100, 0xFF)])) =
      some (0xFF00, 0xF2, [(0x000100, 0xFF)], [.rd8 0x000100 0xFF]) := by decide

/-- Vector V67 (R174). -/
theorem test_V67_bit :
    outcome .a (exec (.bit 0x000100 0x000101) (st 0x10 .a 0x00FF [(0x000101, 0x40)])) =
      some (0x00FF, 0x52, [(0x000101, 0x40)], [.rd16 0x000100 0x000101 0x4000]) := by decide

/-- Vector V70 (R181). -/
theorem test_V70_lda :
    outcome .a (exec (.lda 0x000100 0x000000) (st 0x30 .a 0x1234 [])) =
      some (0x1200, 0x32, [], [.rd8 0x000100 0x00]) := by decide

/-- Vector V72 (R181). -/
theorem test_V72_lda :
    outcome .a (exec (.lda 0x000100 0x000101) (st 0x51 .a 0x1234 [(0x000101, 0x80)])) =
      some (0x8000, 0xD1, [(0x000101, 0x80)], [.rd16 0x000100 0x000101 0x8000]) := by decide

/-- Vector V75 (R182). -/
theorem test_V75_ldx :
    outcome .x (exec (.ldx 0x000100 0x000101) (st 0x20 .x 0x0000 [(0x000100, 0xFF), (0x000101, 0xFF)])) =
      some (0xFFFF, 0xA0, [(0x000100, 0xFF), (0x000101, 0xFF)], [.rd16 0x000100 0x000101 0xFFFF]) := by decide

/-- Vector V76 (R182). -/
theorem test_V76_ldx :
    outcome .x (exec (.ldx 0x000100 0x000000) (st 0x10 .x 0x0011 [(0x000100, 0x80)])) =
      some (0x0080, 0x90, [(0x000100, 0x80)], [.rd8 0x000100 0x80]) := by decide

/-- Vector V77 (R183). -/
theorem test_V77_ldy :
    outcome .y (exec (.ldy 0x000100 0x000000) (st 0x30 .y 0x0055 [])) =
      some (0x0000, 0x32, [], [.rd8 0x000100 0x00]) := by decide

/-- Vector V78 (R183). -/
theorem test_V78_ldy :
    outcome .y (exec (.ldy 0x000100 0x000101) (st 0x00 .y 0x0000 [(0x000100, 0x34), (0x000101, 0x12)])) =
      some (0x1234, 0x00, [(0x000100, 0x34), (0x000101, 0x12)], [.rd16 0x000100 0x000101 0x1234]) := by decide

/-- Vector V79 (R184). -/
theorem test_V79_sta :
    outcome .a (exec (.sta 0x000100 0x000000) (st 0xB2 .a 0x1234 [])) =
      some (0x1234, 0xB2, [(0x000100, 0x34)], [.wr8 0x000100 0x34]) := by decide

/-- Vector V81 (R184). -/
theorem test_V81_sta :
    outcome .a (exec (.sta 0x7EFFFF 0x7E0000) (st 0x10 .a 0xBEEF [])) =
      some (0xBEEF, 0x10, [(0x7E0000, 0xBE), (0x7EFFFF, 0xEF)], [.wr16 0x7EFFFF 0x7E0000 0xBEEF]) := by decide

/-- Vector V82 (R185). -/
theorem test_V82_stx :
    outcome .x (exec (.stx 0x000100 0x000000) (st 0x30 .x 0x00AB [])) =
      some (0x00AB, 0x30, [(0x000100, 0xAB)], [.wr8 0x000100 0xAB]) := by decide

/-- Vector V83 (R185). -/
theorem test_V83_stx :
    outcome .x (exec (.stx 0x000100 0x000101) (st 0x20 .x 0xABCD [])) =
      some (0xABCD, 0x20, [(0x000100, 0xCD), (0x000101, 0xAB)], [.wr16 0x000100 0x000101 0xABCD]) := by decide

/-- Vector V84 (R186). -/
theorem test_V84_sty :
    outcome .y (exec (.sty 0x000100 0x000000) (st 0x30 .y 0x0001 [])) =
      some (0x0001, 0x30, [(0x000100, 0x01)], [.wr8 0x000100 0x01]) := by decide

/-- Vector V85 (R186). -/
theorem test_V85_sty :
    outcome .y (exec (.sty 0x000100 0x000101) (st 0x00 .y 0x8001 [])) =
      some (0x8001, 0x00, [(0x000100, 0x01), (0x000101, 0x80)], [.wr16 0x000100 0x000101 0x8001]) := by decide

/-- Vector V86 (R187). -/
theorem test_V86_stz :
    outcome .a (exec (.stz 0x000100 0x000000) (st 0x31 .a 0xFFFF [(0x000100, 0x55)])) =
      some (0xFFFF, 0x31, [], [.wr8 0x000100 0x00]) := by decide

/-- Vector V87 (R187). -/
theorem test_V87_stz :
    outcome .a (exec (.stz 0x000100 0x000101) (st 0x10 .a 0xFFFF [(0x000100, 0x55), (0x000101, 0x66)])) =
      some (0xFFFF, 0x10, [], [.wr16 0x000100 0x000101 0x0000]) := by decide

/-- Vector V89 (R202). -/
theorem test_V89_asl :
    outcome .a (exec (.asl 0x000100 0x000000) (st 0x31 .a 0x0000 [(0x000100, 0x41)])) =
      some (0x0000, 0xB0, [(0x000100, 0x82)], [.rd8 0x000100 0x41, .idle false, .wr8 0x000100 0x82]) := by decide

/-- Vector V92 (R202). -/
theorem test_V92_asl :
    outcome .a (exec (.asl 0x000100 0x000101) (st 0x10 .a 0x0000 [(0x000100, 0x80)])) =
      some (0x0000, 0x10, [(0x000101, 0x01)], [.rd16 0x000100 0x000101 0x0080, .idle false, .wr16 0x000100 0x000101 0x0100]) := by decide

/-- Vector V93 (R203). -/
theorem test_V93_rol :
    outcome .a (exec (.rol 0x000100 0x000000) (st 0x31 .a 0x0000 [(0x000100, 0x80)])) =
      some (0x0000, 0x31, [(0x000100, 0x01)], [.rd8 0x000100 0x80, .idle false, .wr8 0x000100 0x01]) := by decide

/-- Vector V96 (R203). -/
theorem test_V96_rol :
    outcome .a (exec (.rol 0x000100 0x000101) (st 0x11 .a 0x0000 [(0x000100, 0xFF), (0x000101, 0x7F)])) =
      some (0x0000, 0x90, [(0x000100, 0xFF), (0x000101, 0xFF)], [.rd16 0x000100 0x000101 0x7FFF, .idle false, .wr16 0x000100 0x000101 0xFFFF]) := by decide

/-- Vector V97 (R204). -/
theorem test_V97_lsr :
    outcome .a (exec (.lsr 0x000100 0x000000) (st 0xB0 .a 0x0000 [(0x000100, 0x01)])) =
      some (0x0000, 0x33, [], [.rd8 0x000100 0x01, .idle false, .wr8 0x000100 0x00]) := by decide

/-- Vector V100 (R204). -/
theorem test_V100_lsr :
    outcome .a (exec (.lsr 0x000100 0x000101) (st 0x10 .a 0x0000 [(0x000101, 0x01)])) =
      some (0x0000, 0x10, [(0x000100, 0x80)], [.rd16 0x000100 0x000101 0x0100, .idle false, .wr16 0x000100 0x000101 0x0080]) := by decide

/-- Vector V101 (R205). -/
theorem test_V101_ror :
    outcome .a (exec (.ror 0x000100 0x000000) (st 0x31 .a 0x0000 [(0x000100, 0x01)])) =
      some (0x0000, 0xB1, [(0x000100, 0x80)], [.rd8 0x000100 0x01, .idle false, .wr8 0x000100 0x80]) := by decide

/-- Vector V103 (R205). -/
theorem test_V103_ror :
    outcome .a (exec (.ror 0x000100 0x000101) (st 0x11 .a 0x0000 [(0x000100, 0x01)])) =
      some (0x0000, 0x91, [(0x000101, 0x80)], [.rd16 0x000100 0x000101 0x0001, .idle false, .wr16 0x000100 0x000101 0x8000]) := by decide

/-- Vector V105 (R206). -/
theorem test_V105_inc :
    outcome .a (exec (.inc 0x000100 0x000000) (st 0x31 .a 0x0000 [(0x000100, 0xFF)])) =
      some (0x0000, 0x33, [], [.rd8 0x000100 0xFF, .idle false, .wr8 0x000100 0x00]) := by decide

/-- Vector V107 (R206). -/
theorem test_V107_inc :
    outcome .a (exec (.inc 0x000100 0x000101) (st 0x10 .a 0x0000 [(0x000100, 0xFF)])) =
      some (0x0000, 0x10, [(0x000101, 0x01)], [.rd16 0x000100 0x000101 0x00FF, .idle false, .wr16 0x000100 0x000101 0x0100]) := by decide

/-- Vector V109 (R207). -/
theorem test_V109_dec :
    outcome .a (exec (.dec 0x000100 0x000000) (st 0x30 .a 0x0000 [])) =
      some (0x0000, 0xB0, [(0x000100, 0xFF)], [.rd8 0x000100 0x00, .idle false, .wr8 0x000100 0xFF]) := by decide

/-- Vector V112 (R207). -/
theorem test_V112_dec :
    outcome .a (exec (.dec 0x000100 0x000101) (st 0x11 .a 0x0000 [])) =
      some (0x0000, 0x91, [(0x000100, 0xFF), (0x000101, 0xFF)], [.rd16 0x000100 0x000101 0x0000, .idle false, .wr16 0x000100 0x000101 0xFFFF]) := by decide

/-- Vector V113 (R210). -/
theorem test_V113_tsb :
    outcome .a (exec (.tsb 0x000100 0x000000) (st 0xF1 .a 0x120F [(0x000100, 0xF0)])) =
      some (0x120F, 0xF3, [(0x000100, 0xFF)], [.rd8 0x000100 0xF0, .idle false, .wr8 0x000100 0xFF]) := by decide

/-- Vector V115 (R210). -/
theorem test_V115_tsb :
    outcome .a (exec (.tsb 0x000100 0x000101) (st 0x10 .a 0x8001 [(0x000100, 0x01)])) =
      some (0x8001, 0x10, [(0x000100, 0x01), (0x000101, 0x80)], [.rd16 0x000100 0x000101 0x0001, .idle false, .wr16 0x000100 0x000101 0x8001]) := by decide

/-- Vector V117 (R211). -/
theorem test_V117_trb :
    outcome .a (exec (.trb 0x000100 0x000000) (st 0x30 .a 0xFF0F [(0x000100, 0xF0)])) =
      some (0xFF0F, 0x32, [(0x000100, 0xF0)], [.rd8 0x000100 0xF0, .idle false, .wr8 0x000100 0xF0]) := by decide

/-- Vector V119 (R211). -/
theorem test_V119_trb :
    outcome .a (exec (.trb 0x000100 0x000101) (st 0x10 .a 0xFFFF [(0x000100, 0xA5), (0x000101, 0xA5)])) =
      some (0xFFFF, 0x10, [], [.rd16 0x000100 0x000101 0xA5A5, .idle false, .wr16 0x000100 0x000101 0x0000]) := by decide

/-! ## The classifier, on the vectors of section 2.2 -/

/-- K1 to K6. -/
theorem test_classes_calls_returns :
    ([0x20, 0x22, 0xFC, 0x60, 0x6B, 0x40].map fun op : Byte => (isCall op, isReturn op, isBranch op, instructionSize op)) =
      [(true, false, false, 3), (true, false, false, 4), (true, false, false, 3), (false, true, false, 1),
        (false, true, false, 1), (false, true, false, 1)] := by decide

/-- K7. -/
theorem test_classes_conditional :
    ([0x10, 0x30, 0x50, 0x70, 0x90, 0xB0, 0xD0, 0xF0].all fun op : Byte =>
      !isCall op && !isReturn op && isBranch op && instructionSize op == 2) = true := by decide

/-- K8 and K9. -/
theorem test_classes_jumps :
    ([0x4C, 0x6C, 0x7C, 0xDC, 0x5C].map fun op : Byte => (isCall op, isReturn op, isBranch op, instructionSize op)) =
      [(false, false, true, 3), (false, false, true, 3), (false, false, true, 3), (false, false, true, 3),
        (false, false, true, 4)] := by decide

/-- K20 to K27. -/
theorem test_return_addresses :
    calculateReturnAddress 0x000000 0x20 = 0x000003 ∧ calculateReturnAddress 0x01FFFE 0x20 = 0x010001 ∧
      calculateReturnAddress 0x00FFFD 0x20 = 0x000000 ∧ calculateReturnAddress 0x018000 0xFC = 0x018003 ∧
      calculateReturnAddress 0x7EFFFF 0xFC = 0x7E0002 ∧ calculateReturnAddress 0x008000 0x22 = 0x008004 ∧
      calculateReturnAddress 0x01FFFE 0x22 = 0x020002 ∧ calculateReturnAddress 0xFFFFFE 0x22 = 0x000002 := by decide

/-- K28 to K31. -/
theorem test_call_targets :
    calculateCallTarget (reader 0 [(1, 0x10)]) 0x000000 0x20 = 0x000010 ∧
      calculateCallTarget (reader 0 [(0x7E8001, 0x34), (0x7E8002, 0x12)]) 0x7E8000 0x20 = 0x7E1234 ∧
      calculateCallTarget (reader 0 [(0x8002, 0x80), (0x8003, 0x7E)]) 0x008000 0x22 = 0x7E8000 ∧
      calculateCallTarget (reader 0 [(0x18002, 0x90)]) 0x018000 0xFC = 0x000000 := by decide

/-! ## The Step Controller, on the programs of section 4 -/

/-- P2 run A, step 1. -/
theorem test_P2_stepInto_call :
    shown (stepInto (scripted [(0, 0x10)]) p2).1 = (true, .ok, 0x000010, 1, some jsrEntry, none) ∧
      (stepInto (scripted [(0, 0x10)]) p2).2.calls =
        [.pcGetter 0, .reader 0 0x20, .reader 1 0x10, .reader 2 0x00, .stepper, .pcGetter 0x10] := by decide

/-- P2 run A, step 2, and P6 run B: a return pops the top entry, or nothing. -/
theorem test_P2_stepInto_return :
    shown (stepInto (scripted [(0, 3)]) (ready 0 0x10 [(0x10, 0x60)] [jsrEntry])).1 =
        (true, .ok, 0x000003, 1, none, some jsrEntry) ∧
      shown (stepInto (scripted [(0, 3)]) (ready 0 0x10 [(0x10, 0x60)] [])).1 = (true, .ok, 0x000003, 1, none, none) :=
  ⟨by decide, by decide⟩

/-- P2 run B. -/
theorem test_P2_stepOver :
    shown (stepOver (scripted [(0, 0x10), (0, 3)]) 0x000F4240 p2).1 =
        (true, .ok, 0x000003, 2, some jsrEntry, some jsrEntry) ∧
      (stepOver (scripted [(0, 0x10), (0, 3)]) 0x000F4240 p2).2.depth = 0 := by decide

/-- P3: the self-branch under StepOver(10) times out after exactly 10 instructions, the entry staying on the stack. -/
theorem test_P3_stepOver_timeout :
    let q := stepOver (scripted [(0, 0x10)]) 10 (ready 0 0 [(0, 0x20), (1, 0x10), (0x10, 0x80), (0x11, 0xFE)] [])
    shown q.1 = (false, .errTimeout, 0x000010, 10, some jsrEntry, none) ∧ q.1.message = "timed out" ∧ q.2.depth = 1 := by
  decide

/-- P4 step 3: StepOut at depth 2 succeeds when the depth reaches 1. -/
theorem test_P4_stepOut :
    let q := stepOut (scripted [(1, 0x8011), (1, 0x8003)]) 0x000F4240
      (ready 1 0x8010 [(0x18010, 0xEA), (0x18011, 0x60)] [jslEntry, innerEntry])
    shown q.1 = (true, .ok, 0x018003, 2, none, some innerEntry) ∧ q.2.callStack = [jslEntry] := by decide

/-- X3 and X4. -/
theorem test_stepOut_failures :
    shown (stepOut (scripted []) 0x000F4240 (ready 0 0x8004 [] [])).1 =
        (false, .errEmptyStack, 0x008004, 0, none, none) ∧
      shown (stepOut (scripted []) 0 (ready 0 0x8004 [] [jslEntry])).1 = (false, .errTimeout, 0x008004, 0, none, none) :=
  ⟨by decide, by decide⟩

/-! ## Witnesses: for every obligation with hypotheses, a state and operands that meet all of them together. The pair
`0xFFFFFF`, `0` is at the two ends of the space. -/

/-- 8-bit gates, something at both ends of memory. -/
def w8 : State := st 0x30 .a 0x12F0 [(0, 0x80), (0xFFFFFF, 0x7F)]

/-- 16-bit gates, the same memory. -/
def w16 : State := st 0x00 .a 0x12F0 [(0, 0x80), (0xFFFFFF, 0x7F)]

/-- Decimal, 8 bits and 16 bits, on the largest packed numbers. -/
def d8 : State := st 0x38 .a 0x0099 [(0, 0x99), (0xFFFFFF, 0x99)]
def d16 : State := st 0x08 .a 0x9999 [(0, 0x99), (0xFFFFFF, 0x99)]

theorem w8_width (g : Gate) : w8.width g = .w8 := by cases g <;> decide
theorem w16_width (g : Gate) : w16.width g = .w16 := by cases g <;> decide

/-- At 8 bits the last address of the space, whatever `high`; at 16 bits the two ends of the space. -/
theorem w8_ok (g : Gate) : AddressesOk (w8.width g) 0xFFFFFF 0xFFFFFFFF := by rw [w8_width]; decide
theorem w16_ok (g : Gate) : AddressesOk (w16.width g) 0xFFFFFF 0 := by rw [w16_width]; decide

theorem w_inv : w8.Inv ∧ w16.Inv := by decide

theorem witness_EncodeDecode :
    decode (.xcmd 0x17FFFFFFFF00000001#69) = .ok (.trb 1 0xFFFFFFFF) ∧ decode (.scmd 0x2FFFFFFFF#34) = .ok (.stepOut 0xFFFFFFFF) ∧
      decode (.opc8 [0xFC, 0x34, 0x12, 0x99]) = .ok (.jsrAbsX 0x1234) := by decide

theorem witness_ReservedCodesAreRefused :
    0x18 ≤ ((0x180000000000000000#69).extractLsb' 64 5).toNat ∧ 0x18 ≤ ((0x1FFFFFFFFFFFFFFFFF#69).extractLsb' 64 5).toNat ∧
      (0x300000000#34).extractLsb' 32 2 = 3#2 ∧
      ({ w8 with inbox := [.xcmd 0x180000000000000000] } : State).inbox = .xcmd 0x180000000000000000 :: [] ∧
      ({ w8 with inbox := [.scmd 0x300000000] } : State).inbox = .scmd 0x300000000 :: [] ∧
      ({ w8 with inbox := [.query 0xFFFFFFFF 0xFF] } : State).inbox = .query 0xFFFFFFFF 0xFF :: [] := by decide

theorem witness_StepRunsTheDecodedInstruction :
    (∃ i, decode (.xcmd 0x17FFFFFFFF00000001#69) = .ok i) ∧ (∃ i, decode (.scmd 0#34) = .ok i) ∧
      ∃ i, decode (.opc8 [0x22, w8.reader (0xFFFFFE + 1), w8.reader (0xFFFFFE + 2), w8.reader (0xFFFFFE + 3)]) = .ok i :=
  ⟨⟨_, rfl⟩, ⟨_, rfl⟩, ⟨_, rfl⟩⟩

theorem witness_PlacedWordRunsNext :
    w8.Inv ∧ decodeTableWord 72 0x17FFFFFFFF00000001 = some (.trb 1 0xFFFFFFFF) ∧
      decodeTableWord 40 0x200000000 = some (.stepOut 0) ∧ decodeTableWord 32 0x7E800022 = some (.jslLong 0x7E8000) ∧
      decodeTableWord 8 0x60 = some .rts := by decide

theorem witness_HostTransactions :
    w8.inbox = [] ∧ ({ w8 with inbox := [.writeMem 0xFFFFFF 0x00] } : State).Inv ∧
      ({ w8 with inbox := [.configure .pcGetter true] } : State).inbox = .configure .pcGetter true :: [] ∧
      ({ w8 with inbox := [.readReg .e] } : State).inbox = .readReg .e :: [] ∧
      ({ w8 with inbox := [.writeReg (.p 0xFF)] } : State).inbox = .writeReg (.p 0xFF) :: [] ∧
      ({ w8 with inbox := [.readMem 0xFFFFFF] } : State).inbox = .readMem 0xFFFFFF :: [] := by decide

theorem witness_FlagOperations :
    ({ w8 with inbox := [.flagOp (.setZN 0xFF00 .w8)] } : State).inbox = .flagOp (.setZN 0xFF00 .w8) :: [] := rfl

theorem witness_LogicResult :
    AddressesOk (w8.width .m) 0xFFFFFF 0xFFFFFFFF ∧ AddressesOk (w16.width .m) 0xFFFFFF 0 := ⟨w8_ok _, w16_ok _⟩

theorem witness_BinaryArithmeticLaws :
    (AddressesOk (w8.width .m) 0xFFFFFF 0xFFFFFFFF ∧ w8.flag .d = false) ∧
      AddressesOk (w16.width .m) 0xFFFFFF 0 ∧ w16.flag .d = false :=
  ⟨⟨w8_ok _, by decide⟩, w16_ok _, by decide⟩

theorem witness_AdcAccumulation :
    AddressesOk (w8.width .m) 0xFFFFFF 0xFFFFFFFF ∧ AddressesOk (w16.width .m) 0xFFFFFF 0 := ⟨w8_ok _, w16_ok _⟩

theorem witness_SbcAccumulation :
    AddressesOk (w8.width .m) 0xFFFFFF 0xFFFFFFFF ∧ AddressesOk (w16.width .m) 0xFFFFFF 0 := ⟨w8_ok _, w16_ok _⟩

theorem witness_DecimalLaws_8 :
    d8.width .m = .w8 ∧ AddressesOk .w8 0xFFFFFF 0 ∧ d8.flag .d = true ∧ lowBits .w8 d8.env.regs.a = 0x99 ∧
      (d8.operand .w8 0xFFFFFF 0).toNat = 0x99 ∧ ValidBcd 2 0x99 :=
  ⟨by decide, by decide, by decide, by decide, by decide, by simp [ValidBcd]⟩

theorem witness_DecimalLaws_16 :
    d16.width .m = .w16 ∧ AddressesOk .w16 0xFFFFFF 0 ∧ d16.flag .d = true ∧ lowBits .w16 d16.env.regs.a = 0x9999 ∧
      (d16.operand .w16 0xFFFFFF 0).toNat = 0x9999 ∧ ValidBcd 4 0x9999 :=
  ⟨by decide, by decide, by decide, by decide, by decide, by simp [ValidBcd]⟩

theorem witness_CompareResult :
    AddressesOk (w8.width .m) 0xFFFFFF 0xFFFFFFFF ∧ AddressesOk (w8.width .x) 0xFFFFFF 0xFFFFFFFF ∧
      AddressesOk (w16.width .m) 0xFFFFFF 0 ∧ AddressesOk (w16.width .x) 0xFFFFFF 0 :=
  ⟨w8_ok _, w8_ok _, w16_ok _, w16_ok _⟩

theorem witness_BitTestResult :
    AddressesOk (w8.width .m) 0xFFFFFF 0xFFFFFFFF ∧ AddressesOk (w16.width .m) 0xFFFFFF 0 := ⟨w8_ok _, w16_ok _⟩

theorem witness_LoadResult :
    AddressesOk (w8.width .m) 0xFFFFFF 0xFFFFFFFF ∧ AddressesOk (w8.width .x) 0xFFFFFF 0xFFFFFFFF ∧
      AddressesOk (w16.width .m) 0xFFFFFF 0 ∧ AddressesOk (w16.width .x) 0xFFFFFF 0 :=
  ⟨w8_ok _, w8_ok _, w16_ok _, w16_ok _⟩

theorem witness_StoreResult :
    (w8.Inv ∧ AddressesOk (w8.width .m) 0xFFFFFF 0xFFFFFFFF ∧ AddressesOk (w8.width .x) 0xFFFFFF 0xFFFFFFFF) ∧
      w16.Inv ∧ AddressesOk (w16.width .m) 0xFFFFFF 0 ∧ AddressesOk (w16.width .x) 0xFFFFFF 0 :=
  ⟨⟨w_inv.1, w8_ok _, w8_ok _⟩, w_inv.2, w16_ok _, w16_ok _⟩

theorem witness_ShiftResult :
    (w8.Inv ∧ AddressesOk (w8.width .m) 0xFFFFFF 0xFFFFFFFF) ∧ w16.Inv ∧ AddressesOk (w16.width .m) 0xFFFFFF 0 :=
  ⟨⟨w_inv.1, w8_ok _⟩, w_inv.2, w16_ok _⟩

theorem witness_RotateResult :
    (w8.Inv ∧ AddressesOk (w8.width .m) 0xFFFFFF 0xFFFFFFFF) ∧ w16.Inv ∧ AddressesOk (w16.width .m) 0xFFFFFF 0 :=
  ⟨⟨w_inv.1, w8_ok _⟩, w_inv.2, w16_ok _⟩

theorem witness_ShiftRotateLaws :
    (w8.Inv ∧ AddressesOk (w8.width .m) 0xFFFFFF 0xFFFFFFFF) ∧ w16.Inv ∧ AddressesOk (w16.width .m) 0xFFFFFF 0 :=
  ⟨⟨w_inv.1, w8_ok _⟩, w_inv.2, w16_ok _⟩

theorem witness_IncrementResult :
    (w8.Inv ∧ AddressesOk (w8.width .m) 0xFFFFFF 0xFFFFFFFF) ∧ w16.Inv ∧ AddressesOk (w16.width .m) 0xFFFFFF 0 :=
  ⟨⟨w_inv.1, w8_ok _⟩, w_inv.2, w16_ok _⟩

theorem witness_TestAndSetResult :
    (w8.Inv ∧ AddressesOk (w8.width .m) 0xFFFFFF 0xFFFFFFFF) ∧ w16.Inv ∧ AddressesOk (w16.width .m) 0xFFFFFF 0 :=
  ⟨⟨w_inv.1, w8_ok _⟩, w_inv.2, w16_ok _⟩

theorem witness_BusCallsPerOperation (op : ExecOp) :
    AddressesOk (w8.width (gateOf op)) 0xFFFFFF 0xFFFFFFFF ∧ AddressesOk (w16.width (gateOf op)) 0xFFFFFF 0 :=
  ⟨w8_ok _, w16_ok _⟩

/-- One clause each: an executor command, a query, a step command. -/
theorem witness_WriteSet :
    (∃ t, exec (.tsb 0xFFFFFF 0) w16 = .next t) ∧ (Instr.rts.ea = none ∧ ∃ t, exec .rts w16 = .next t) ∧
      IsStep (.stepOut 0) ∧ ∃ t, exec (.stepOut 0) p2 = .next t :=
  ⟨⟨_, rfl⟩, ⟨rfl, _, rfl⟩, ⟨0, .inr (.inr rfl)⟩, _, rfl⟩

/-- A load of X at 8 bits, in emulation mode. -/
theorem witness_LaunchPremisesKept :
    ¬IsStep (.ldx 0xFFFFFF 0) ∧ w8.env.regs.LaunchOk ∧ w8.env.regs.e = true ∧ ∃ t, exec (.ldx 0xFFFFFF 0) w8 = .next t :=
  ⟨(by rintro ⟨m, h | h | h⟩ <;> cases h), by decide, rfl, _, rfl⟩

theorem witness_StepCommandsKeepLaunchPremises :
    KeepsLaunch (fun _ _ _ => [.setReg (.a 0xFFFF), .idle false]) ∧ p2.env.regs.LaunchOk := ⟨fun _ _ h => h, by decide⟩

theorem witness_MalformedAddressesAreRefused :
    16777216 ≤ (0x01000000 : Addr).toNat ∧ w16.width (gateOf .sta) = .w16 ∧ (0x10 : Addr) = 0x10 ∧
      16777216 ≤ (0xFFFFFFFF : Addr).toNat := by decide

theorem witness_EightBitIgnoresHigh (op : ExecOp) : w8.width (gateOf op) = .w8 := w8_width _

theorem witness_EightBitIgnoresHighByteOfA : w8.flag .m = true ∧ ∃ t, exec (ExecOp.toInstr .adc 0xFFFFFF 0) w8 = .next t :=
  ⟨by decide, _, rfl⟩

theorem witness_UnreadRegistersDoNotMatter :
    (¬IsStep (.adc 0xFFFFFF 0) ∧ ∃ t, exec (.adc 0xFFFFFF 0) w16 = .next t) ∧
      ¬IsStep (.jslLong 0) ∧ ∃ t, exec (.jslLong 0) w16 = .next t :=
  ⟨⟨(by rintro ⟨m, h | h | h⟩ <;> cases h), _, rfl⟩, (by rintro ⟨m, h | h | h⟩ <;> cases h), _, rfl⟩

theorem witness_ObservationsAreNotRead :
    (∃ t, exec (.inc 0xFFFFFF 0) w16 = .next t) ∧ (∃ t, exec (.stepOver 3) p2 = .next t) ∧ ∃ t, exec .rti w16 = .next t :=
  ⟨⟨_, rfl⟩, ⟨_, rfl⟩, _, rfl⟩

theorem witness_ByteAccess : memWf w8.env.mem ∧ (0xFFFFFF : Addr).toNat < 16777216 ∧ (0 : Addr) ≠ 0xFFFFFF := by decide

theorem witness_WordAccess : memWf w16.env.mem ∧ AddressesOk .w16 0xFFFFFF 0 ∧ (1 : Addr) ≠ 0xFFFFFF ∧ (1 : Addr) ≠ 0 := by
  decide

theorem witness_WordOrderUnobservable : memWf w16.env.mem ∧ AddressesOk .w16 0xFFFFFF 0 := by decide

/-- The opcode at the PC is the one stored to. -/
theorem witness_ReaderSeesStores :
    (0xFFFFFF : Addr).toNat < 16777216 ∧ p2.Inv ∧ AddressesOk (p2.width .m) 0 0 ∧ p2.pcGetter = 0 :=
  ⟨by decide, by decide, by rw [show p2.width .m = .w8 by decide]; decide, by decide⟩

/-- Steps that store, push and answer. -/
theorem witness_InvariantKept :
    (({ w16 with inbox := [.xcmd 0x0C0000000000FFFFFF] } : State).Inv ∧
        ∃ t, step { w16 with inbox := [.xcmd 0x0C0000000000FFFFFF] } = .next t) ∧
      ({ p2 with inbox := [.scmd 0] } : State).Inv ∧ ∃ t, step { p2 with inbox := [.scmd 0] } = .next t :=
  ⟨⟨by decide, _, rfl⟩, by decide, _, rfl⟩

theorem witness_ReturnsAreClassified :
    Configured (ready 0 0x10 [(0x10, 0x40)] [jsrEntry, jslEntry]) ∧
      (ready 0 0x10 [(0x10, 0x40)] [jsrEntry, jslEntry]).opcode = 0x40 ∧
      (ready 0 0x10 [(0x10, 0x40)] [jsrEntry, jslEntry]).callStack = [jsrEntry] ++ [jslEntry] := by decide

theorem witness_JumpsAreClassified :
    Configured (ready 0xFF 0xFFFF [(0xFFFFFF, 0xDC)] []) ∧ (ready 0xFF 0xFFFF [(0xFFFFFF, 0xDC)] []).opcode = 0xDC := by
  decide

theorem witness_OtherOpcodesAreUnclassified :
    Configured (ready 0 0 [(0, 0xEA)] []) ∧ (ready 0 0 [(0, 0xEA)] []).opcode = 0xEA ∧
      (0xEA : Byte) ∉ [0x20, 0x22, 0xFC, 0x60, 0x6B, 0x40, 0x10, 0x30, 0x50, 0x70, 0x90, 0xB0, 0xD0, 0xF0, 0x4C, 0x5C,
        0x6C, 0x7C, 0xDC, 0x80, 0x82] := by decide

theorem witness_CallAddresses : (0x20 : Byte) = 0x20 ∨ (0x20 : Byte) = 0xFC := .inl rfl

theorem witness_TargetIsTheDecodedOperand :
    ({ p2 with inbox := [.query 0 0x20] } : State).inbox = .query 0 0x20 :: [] ∧
      ({ p2 with inbox := [.query 0xFFFFFFFF 0x22] } : State).inbox = .query 0xFFFFFFFF 0x22 :: [] := ⟨rfl, rfl⟩

theorem witness_UnconfiguredFails : IsStep (.stepInto 0) ∧ ¬Configured { p2 with cfgPc := false } :=
  ⟨⟨0, .inl rfl⟩, by decide⟩

/-- One state for each clause: a call, a return with an entry, a return on an empty stack, anything else. -/
theorem witness_StepIntoResult :
    (Configured p2 ∧ isCall p2.opcode = true) ∧
      (Configured (ready 0 0x10 [(0x10, 0x60)] [jsrEntry]) ∧ isReturn (ready 0 0x10 [(0x10, 0x60)] [jsrEntry]).opcode = true ∧
        (ready 0 0x10 [(0x10, 0x60)] [jsrEntry]).callStack = [] ++ [jsrEntry]) ∧
      (Configured (ready 0 0x10 [(0x10, 0x60)] []) ∧ isReturn (ready 0 0x10 [(0x10, 0x60)] []).opcode = true) ∧
      Configured (ready 0 0 [(0, 0xEA)] []) ∧ isCall (ready 0 0 [(0, 0xEA)] []).opcode = false ∧
      isReturn (ready 0 0 [(0, 0xEA)] []).opcode = false := by decide

theorem witness_StepIntoDepthChange : Configured p2 := by decide

theorem witness_StepOverOutcomes : Configured p2 ∧ isCall p2.opcode = true := by decide

/-- Success at two steps within the default budget; a timeout at a budget of 1; no call. -/
theorem witness_StepOverReplaysStepInto :
    (Configured p2 ∧ isCall p2.opcode = true ∧ 2 ≤ Max.max (0x000F4240 : BitVec 32).toNat 1 ∧
        (∀ k, 1 ≤ k → k < 2 → p2.depth < (stepIntos (scripted [(0, 0x10), (0, 3)]) k p2).depth) ∧
        (stepIntos (scripted [(0, 0x10), (0, 3)]) 2 p2).depth ≤ p2.depth) ∧
      (p2.depth < (stepIntos (scripted [(0, 0x10)]) 1 p2).depth ∧ 1 = Max.max (1 : BitVec 32).toNat 1 ∧
        1 = Max.max (0 : BitVec 32).toNat 1) ∧
      (Configured (ready 0 0 [(0, 0xEA)] []) ∧ isCall (ready 0 0 [(0, 0xEA)] []).opcode = false) ∧
      ¬Configured State.reset := by
  refine ⟨⟨by decide, by decide, by decide, fun k h1 h2 => ?_, by decide⟩, by decide, by decide, by decide⟩
  obtain rfl : k = 1 := by omega
  decide

theorem witness_StepOutOfEmptyStackFails : Configured p2 ∧ p2.callStack = [] := by decide

theorem witness_StepOutOutcomes :
    Configured (ready 0 0x10 [(0x10, 0x60)] [jsrEntry]) ∧ (ready 0 0x10 [(0x10, 0x60)] [jsrEntry]).callStack ≠ [] := by decide

/-- Success at one step within a budget of 1; a timeout at a budget of 0. -/
theorem witness_StepOutReplaysStepInto :
    let s := ready 0 0x10 [(0x10, 0x60)] [jsrEntry]
    (Configured s ∧ s.callStack ≠ [] ∧ 1 ≤ (1 : BitVec 32).toNat ∧
        (∀ k, 1 ≤ k → k < 1 → s.depth ≤ (stepIntos (scripted [(0, 3)]) k s).depth) ∧
        (stepIntos (scripted [(0, 3)]) 1 s).depth < s.depth) ∧
      (s.depth ≤ (stepIntos (scripted [(0, 3)]) 0 s).depth ∧ 0 = (0 : BitVec 32).toNat) ∧
      (Configured p2 ∧ p2.callStack = []) ∧ ¬Configured State.reset := by
  refine ⟨⟨by decide, by decide, by decide, fun k h1 h2 => by omega, by decide⟩, by decide, by decide, by decide⟩

theorem witness_StepOutAtReturn :
    let s := ready 0 0x10 [(0x10, 0x6B)] [jslEntry, jsrEntry]
    Configured s ∧ s.callStack = [jslEntry] ++ [jsrEntry] ∧ 1 ≤ (1 : BitVec 32).toNat ∧ isReturn s.opcode = true := by decide

theorem witness_StatusOfResults :
    (∃ t, exec (.stepOut 0) p2 = .next t) ∧ IsStep (.stepOut 0) ∧ (∃ t, exec .rts p2 = .next t) ∧ ¬IsStep .rts :=
  ⟨⟨_, rfl⟩, ⟨0, .inr (.inr rfl)⟩, ⟨_, rfl⟩, (by rintro ⟨m, h | h | h⟩ <;> cases h)⟩

theorem witness_FailurePriority :
    (¬Configured State.reset ∧ State.reset.callStack = []) ∧ (Configured p2 ∧ p2.callStack = []) ∧ isCall p2.opcode = true ∧
      isReturn (stepInto (scripted [(0, 0x10), (0, 3)]) p2).2.opcode = true := by decide

theorem witness_OnlyStepIntoChangesTheCallStack :
    (∃ t, step { p2 with inbox := [.query 0 0x20] } = .next t) ∧
      (∀ w, ({ p2 with inbox := [.query 0 0x20] } : State).inbox.head? ≠ some (.scmd w)) ∧
      ∃ t, step { p2 with inbox := [.scmd 0] } = .next t :=
  ⟨⟨_, rfl⟩, fun _ h => (by cases h), _, rfl⟩

end Sys2Proof.Tests
end

section
/-! SUPPORT. What a step does with each kind of request, one equation per kind, and the two statements about a step and
about the transactions of the host (00_scope.md R9, R10; 10_state.md R38). -/

namespace Sys2Proof.Machine

/-! ## The step of a request, by what taking it yields -/

/-- With no request pending nothing happens. -/
theorem step_of_inbox_nil {s : State} (h : s.inbox = []) : step s = .next s := by
  simp only [step, fetch, h]

theorem step_of_take_run {s u : State} {r : Request} {rest : List Request} {i : Instr} (h : s.inbox = r :: rest)
    (ht : take r { s with inbox := rest } = .run i u) : step s = exec i u := by
  simp only [step_cons h, ht]

theorem step_of_take_done {s t : State} {r : Request} {rest : List Request} (h : s.inbox = r :: rest)
    (ht : take r { s with inbox := rest } = .done t) : step s = .next t := by
  simp only [step_cons h, ht]

/-! ## Fetching an instruction -/

theorem fetchCommand_of_decode {c : CommandWord} {i : Instr} (h : decode c = .ok i) (s : State) :
    fetchCommand c s = .run i s := by
  simp only [fetchCommand, h]

theorem fetchQuery_of_decode {pc : Addr} {op : Byte} {i : Instr} {s : State}
    (h : decode (.opc8 (queryBytes pc op s)) = .ok i) : fetchQuery pc op s = .run i { s with queryPc := pc } := by
  simp only [fetchQuery, h]

/-- Settles O5: taking a request that decodes to `i` yields `i` to run. The inbox is not among what `Reader` consults, so the
bytes of a query are the same before and after the request is removed. -/
theorem stepRunsTheDecodedInstruction : Obligations.StepRunsTheDecodedInstruction := by
  refine ⟨fun s w rest i h hd => ?xcmd, fun s w rest i h hd => ?scmd, fun s pc op rest i h hd => ?query⟩
  case xcmd => exact step_of_take_run h (fetchCommand_of_decode hd _)
  case scmd => exact step_of_take_run h (fetchCommand_of_decode hd _)
  case query => exact step_of_take_run h (fetchQuery_of_decode hd)

/-! ## The transactions of the host that are no instruction -/

/-- `Configure` writes the named bit and empties the reply, as one record update (10_state.md R38). -/
theorem configure_eq (which : Contract) (present : Bool) (s : State) :
    configure which present s =
      { s with
        cfgReader := if which = .reader then present else s.cfgReader
        cfgStepper := if which = .stepper then present else s.cfgStepper
        cfgPc := if which = .pcGetter then present else s.cfgPc
        reply := none } := by
  cases which <;> rfl

@[simp] theorem State.updateRegs_reply (f : RegFile → RegFile) (s : State) : (s.updateRegs f).reply = none := rfl

theorem keepsController_updateRegs (f : RegFile → RegFile) (s : State) : KeepsController s (s.updateRegs f) :=
  ⟨rfl, rfl, rfl, rfl, rfl, rfl, rfl, rfl⟩

@[simp] theorem hostWriteMem_regs (a : BitVec 24) (v : Byte) (s : State) : (hostWriteMem a v s).env.regs = s.env.regs := rfl
@[simp] theorem hostWriteMem_trace (a : BitVec 24) (v : Byte) (s : State) :
    (hostWriteMem a v s).env.trace = s.env.trace := rfl
@[simp] theorem hostWriteMem_reply (a : BitVec 24) (v : Byte) (s : State) : (hostWriteMem a v s).reply = none := rfl

theorem keepsController_hostWriteMem (a : BitVec 24) (v : Byte) (s : State) : KeepsController s (hostWriteMem a v s) :=
  ⟨rfl, rfl, rfl, rfl, rfl, rfl, rfl, rfl⟩

/-- The byte the host wrote reads back; the canonical form is what the reference memory's read-after-write law needs. -/
theorem byte_hostWriteMem_same {s : State} (h : memWf s.env.mem) (a : BitVec 24) (v : Byte) :
    (hostWriteMem a v s).byte a.toNat = v :=
  memRead_memWrite_same h a.toNat v

theorem byte_hostWriteMem_other {s : State} (h : memWf s.env.mem) {a : BitVec 24} (v : Byte) {b : Nat} (hb : b ≠ a.toNat) :
    (hostWriteMem a v s).byte b = s.byte b :=
  memRead_memWrite_other h v hb

/-- Settles O7: every transaction of the host is `done` as soon as it is taken, and the state it ends in is one record update;
for a memory write the invariant gives the canonical form that read-after-write needs. -/
theorem hostTransactions : Obligations.HostTransactions := by
  refine ⟨fun s h => step_of_inbox_nil h, fun s which present rest h => ?configure, fun s n rest h => ?readReg,
    fun s w rest h => ?writeReg, fun s a rest h => ?readMem, fun s a v rest hinv h => ?writeMem⟩
  case configure =>
    refine ⟨_, step_of_take_done h rfl, ?_⟩
    rw [configure_eq]
    exact ⟨rfl, rfl, rfl, rfl, rfl, rfl, rfl, rfl, rfl, rfl⟩
  case readReg => exact step_of_take_done h rfl
  case writeReg =>
    refine ⟨_, step_of_take_done h rfl, rfl, rfl, keepsController_updateRegs _ _, State.updateRegs_reply _ _, ?_⟩
    cases w <;> rfl
  case readMem => exact step_of_take_done h rfl
  case writeMem =>
    obtain ⟨hmem, -⟩ := hinv
    exact ⟨_, step_of_take_done h rfl, hostWriteMem_regs _ _ _, hostWriteMem_trace _ _ _,
      keepsController_hostWriteMem _ _ _, hostWriteMem_reply _ _ _, byte_hostWriteMem_same hmem a v,
      fun _ hb => byte_hostWriteMem_other hmem v hb⟩

end Sys2Proof.Machine
end

section
/-! SUPPORT. What the block writes and what it does not read: the write set of each kind of instruction, and the isolation of
the executor and the classifier from the rest of the Register File (10_state.md R20 to R33). -/

namespace Sys2Proof.Machine

/-! ## The two kinds of instruction -/

/-- Without the step commands, an instruction that answers a next state is an executor command or a classifier query. -/
theorem exec_next_of_not_isStep {i : Instr} {s t : State} (hi : ¬IsStep i) (h : exec i s = .next t) :
    (∃ op low high, i = ExecOp.toInstr op low high ∧ t = s.after op low high) ∨ ∃ op, t = answerQuery op s := by
  rcases exec_next h with ⟨op, low, high, rfl, -, rfl⟩ | ⟨op, rfl, -⟩ | ⟨q, -, hq⟩
  · exact .inl ⟨op, low, high, rfl, rfl⟩
  · exact .inr ⟨op, rfl⟩
  · obtain ⟨max, rfl, -⟩ | ⟨max, rfl, -⟩ | ⟨max, rfl, -⟩ := hq
    · exact absurd ⟨max, .inl rfl⟩ hi
    · exact absurd ⟨max, .inr (.inl rfl)⟩ hi
    · exact absurd ⟨max, .inr (.inr rfl)⟩ hi

/-- A step command delivers a result, keeps the settings, and leaves what some number of StepIntos leave but for the record of
contract calls (47_step_controller.md R293, R297). -/
theorem exec_next_of_isStep {i : Instr} {s t : State} (hi : IsStep i) (h : exec i s = .next t) :
    ∃ q : StepResult × State, t = q.2.answer (.stepped q.1) ∧ SameSettings s q.2 ∧
      ∃ k, q.2.forgetCalls = (stepIntos Config.stepper k s).forgetCalls := by
  obtain ⟨max, rfl | rfl | rfl⟩ := hi <;> cases h
  case inl => exact ⟨_, rfl, sameSettings_stepInto _ s, 1, rfl⟩
  case inr.inl => exact ⟨_, rfl, same_stepOver max s, stepOver_stepIntos _ max s⟩
  case inr.inr => exact ⟨_, rfl, same_stepOut max s, stepOut_stepIntos _ max s⟩

/-! ## The write set (10_state.md R33) -/

/-- Of the registers but `P`, an operation that keeps the machine registers writes at most A, X and Y. -/
theorem keepsRegsBut_axy {s t : State} (h : KeepsMachineRegs s.env.regs t.env.regs) : KeepsRegsBut [.a, .x, .y] s t := by
  obtain ⟨hd, hsp, hpc, hpb, hdbr, he, -⟩ := h
  intro n hp hn
  cases n
  case p => exact absurd rfl hp
  case a | x | y => exact absurd (by decide) hn
  all_goals simp only [RegFile.read, hd, hsp, hpc, hpb, hdbr, he]

/-- Of the flags, an operation that keeps the machine registers writes at most N, V, Z and C. -/
theorem keepsFlagsBut_nvzc {s t : State} (h : KeepsMachineRegs s.env.regs t.env.regs) :
    KeepsFlagsBut [.n, .v, .z, .c] s t := by
  obtain ⟨-, -, -, -, -, -, hm, hx, hd, hi⟩ := h
  intro f hf
  cases f
  case m => exact hm
  case x => exact hx
  case d => exact hd
  case i => exact hi
  all_goals exact absurd (by decide) hf

/-- A StepInto changes the environment by its one Stepper call, if the controller is configured, and not otherwise. -/
theorem stepInto_env (stp : Stepper) (s : State) :
    (stepInto stp s).2.env =
      if Configured s then runActions (stp s.freeCount s.env.regs s.env.mem) s.env else s.env := by
  by_cases h : Configured s
  · rw [if_pos h, stepInto_eq stp ((configured_iff s).mpr h)]
  · rw [if_neg h, stepInto_unconfigured stp ((configured_eq_false s).mpr h)]

/-- Settles O24: an executor command is its operation, which keeps the machine registers; a query writes only the reply and
the record of calls; and a step command leaves what some number of StepIntos leave. -/
theorem writeSet : Obligations.WriteSet := by
  refine ⟨fun i s t h => ⟨fun hi => ?noStep, fun hea hi => ?query, fun hi => ?step⟩, stepInto_env⟩
  case noStep =>
    suffices hk : KeepsMachineRegs s.env.regs t.env.regs ∧ t.callStack = s.callStack ∧ KeepsSettings s t from
      ⟨keepsRegsBut_axy hk.1, keepsFlagsBut_nvzc hk.1, hk.2⟩
    obtain ⟨op, low, high, -, rfl⟩ | ⟨op, rfl⟩ := exec_next_of_not_isStep hi h
    · exact ⟨opEffect_keeps op _ _, rfl, rfl, rfl, rfl, rfl, rfl⟩
    · exact ⟨.refl _, rfl, rfl, rfl, rfl, rfl, rfl⟩
  case query =>
    obtain ⟨op, low, high, rfl, -⟩ | ⟨op, rfl⟩ := exec_next_of_not_isStep hi h
    · exact absurd hea (ea_toInstr op low high)
    · exact answerQuery_env op s
  case step =>
    obtain ⟨q, rfl, hs, k, hk⟩ := exec_next_of_isStep hi h
    obtain ⟨henv, hstack⟩ := env_of_forgetCalls hk
    exact ⟨keepsSettings_of_same hs _, k, henv, hstack⟩

/-! ## What the executor and the classifier do not read -/

/-- Settles O29: the width of `A` is 8 before and after its high byte is replaced, so the replaced pair is as well formed as
the given one, and every operation commutes with the replacement. -/
theorem eightBitIgnoresHighByteOfA : Obligations.EightBitIgnoresHighByteOfA := by
  intro op s t low high b hm h
  rw [exec_toInstr] at h
  obtain ⟨ok, rfl⟩ := runCommand_next h
  have ok' : AddressesOk ((s.setAHigh b).width (gateOf op)) low high := ok
  have effect : opEffect op ⟨low, high⟩ (s.setAHigh b).env = (opEffect op ⟨low, high⟩ s.env).mapRegs (aHigh b) :=
    opEffect_aHigh op ⟨low, high⟩ s.env b hm
  rw [exec_toInstr_ok ok', effect]
  rfl

/-- The register writes that no executor command and no classifier query notices: all but those of A, X, Y and P. -/
def RegWrite.Unread : RegWrite → Prop
  | .a _ | .x _ | .y _ | .p _ => False
  | .d _ | .sp _ | .pc _ | .pb _ | .dbr _ | .e _ => True

/-- Such a write touches only what no operation reads (10_state.md R20, R23 to R29). -/
theorem transparent_write {w : RegWrite} (h : w.Unread) : Transparent (RegFile.write w) := by
  cases w
  case a | x | y | p => exact h.elim
  all_goals
    exact ⟨fun _ => rfl, fun _ => rfl, fun _ => rfl, fun _ _ _ => rfl, fun _ _ => rfl, fun _ _ => rfl, fun _ _ => rfl,
      fun _ _ _ _ => rfl⟩

/-- Settles O30: each of these writes is a transparent change of the Register File, and an instruction that is no step command
commutes with every such change. -/
theorem unreadRegistersDoNotMatter : Obligations.UnreadRegistersDoNotMatter := by
  intro i s t hi h
  have unread {w : RegWrite} (hw : w.Unread) : exec i (s.setReg w) = .next (t.setReg w) :=
    exec_of_transparent (transparent_write hw) hi h
  refine ⟨fun v => ⟨unread ?_, unread ?_, unread ?_⟩, fun v => ⟨unread ?_, unread ?_⟩, fun b => ⟨unread ?_, ?flagI⟩⟩
  case flagI => exact exec_of_transparent (transparent_setI b) hi h
  all_goals exact trivial

end Sys2Proof.Machine
end

section
/-! SUPPORT. The reference memory seen through the bus, the bus calls of an executor command, and the invariant that every
step keeps (20_memory.md R60 to R72; 10_state.md R35). -/

namespace Sys2Proof.Machine

/-! ## Byte accesses (20_memory.md R62, R64) -/

/-- A byte written is the one `ReadByte` gives; the canonical form is what read-after-write needs. -/
theorem busReadByte_busWriteByte_same {e : Env} (h : memWf e.mem) (a : Addr) (v : Byte) :
    (busReadByte a (busWriteByte a v e)).1 = v :=
  memRead_memWrite_same h a.toNat v

theorem busReadByte_busWriteByte_other {e : Env} (h : memWf e.mem) {a b : Addr} (v : Byte) (hb : b ≠ a) :
    (busReadByte b (busWriteByte a v e)).1 = (busReadByte b e).1 :=
  memRead_memWrite_other h v (BitVec.toNat_ne.mp hb)

/-- Settles O32: the laws of a memory write, seen through the bus; the events and what is left alone hold by the definition
of each call. -/
theorem byteAccess : Obligations.ByteAccess := by
  intro e a v hm ha
  exact ⟨memWf_memWrite hm ha v, busReadByte_busWriteByte_same hm a v,
    fun _ hb => busReadByte_busWriteByte_other hm v hb, rfl, rfl, rfl, rfl, rfl⟩

/-! ## Word accesses (20_memory.md R63, R65, R67) -/

/-- What `ReadByte` gives after a word was written at a well-formed pair. -/
theorem busReadByte_busWriteWord {e : Env} (h : memWf e.mem) {low high : Addr} (ok : AddressesOk .w16 low high) (v : Word)
    (b : Addr) :
    (busReadByte b (busWriteWord low high v e)).1 =
      if b = low then v.extractLsb' 0 8 else if b = high then v.extractLsb' 8 8 else (busReadByte b e).1 := by
  obtain ⟨hl, hh, hne⟩ := ok
  have byte := memRead_storeWord h hl hh hne .lowFirst v b.toNat
  simp only [BitVec.toNat_inj] at byte
  exact byte

/-- Settles O33: a word read is its two bytes, so the three reads after the write all follow from what `ReadByte` gives. -/
theorem wordAccess : Obligations.WordAccess := by
  intro e low high v hm ok
  have read := busReadByte_busWriteWord hm ok v
  obtain ⟨hl, hh, hne⟩ := ok
  have atLow : (busReadByte low (busWriteWord low high v e)).1 = v.extractLsb' 0 8 := by rw [read, if_pos rfl]
  have atHigh : (busReadByte high (busWriteWord low high v e)).1 = v.extractLsb' 8 8 := by
    rw [read, if_neg hne.symm, if_pos rfl]
  have word : (busReadWord low high (busWriteWord low high v e)).1 = v :=
    calc (busReadWord low high (busWriteWord low high v e)).1
      _ = (busReadByte high (busWriteWord low high v e)).1 ++ (busReadByte low (busWriteWord low high v e)).1 := rfl
      _ = v := by rw [atHigh, atLow, bytes16_append]
  refine ⟨rfl, rfl, word, atLow, atHigh, fun b hbl hbh => ?other, rfl, memWf_storeWord hm hl hh .lowFirst v⟩
  case other => rw [read, if_neg hbl, if_neg hbh]

/-! ## The bus calls of an executor command (20_memory.md R69) -/

/-- The bus calls of a command that stores nothing. -/
theorem busCalls_after_of_reads {op : ExecOp} {low high : Addr} {s : State} (h : ∀ m r, storedValue op m r = none) :
    BusCalls [readEvent (s.width (gateOf op)) low high (s.operand (s.width (gateOf op)) low high)] s
      (s.after op low high) := by
  simp only [BusCalls, State.after_env, opEffect_trace, h, State.width_eq, State.operand_eq]

/-- The bus calls of a store of `v`. -/
theorem busCalls_after_of_stores {op : ExecOp} {low high : Addr} {s : State} {v : Word} (hn : rmwFn op = none)
    (h : ∀ m, storedValue op m s.env.regs = some v) :
    BusCalls [writeEvent (s.width (gateOf op)) low high v] s (s.after op low high) := by
  simp [BusCalls, opEffect_trace, h, hn, State.width_eq]

/-- The bus calls of a read-modify-write command (45_rmw.md R200). -/
theorem busCalls_after_of_rmw {op : ExecOp} {f : Width → Word → RegFile → Word × RegFile} {low high : Addr} {s : State}
    (hf : rmwFn op = some f) :
    BusCalls [readEvent (s.width (gateOf op)) low high (s.operand (s.width (gateOf op)) low high), .idle false,
      writeEvent (s.width (gateOf op)) low high
        (f (s.width (gateOf op)) (s.operand (s.width (gateOf op)) low high) s.env.regs).1] s (s.after op low high) := by
  simp [BusCalls, opEffect_trace, storedValue, hf, State.width_eq, State.operand_eq]

/-- Settles O23: each command completes, and it is one of the twelve that store nothing, the four stores, or the eight
read-modify-write commands. -/
theorem busCallsPerOperation : Obligations.BusCallsPerOperation := by
  intro op s low high ok
  have completes := exec_after ok
  cases op
  case and | eor | ora | adc | sbc | cmp | cpx | cpy | bit | lda | ldx | ldy =>
    exact ⟨_, 0, completes, busCalls_after_of_reads fun _ _ => rfl⟩
  case sta | stx | sty | stz =>
    exact ⟨_, _, completes, busCalls_after_of_stores rfl fun _ => rfl⟩
  case asl | rol | lsr | ror | inc | dec | tsb | trb =>
    exact ⟨_, _, completes, busCalls_after_of_rmw rfl⟩

/-! ## The invariant (20_memory.md R60, R72; 10_state.md R35) -/

/-- The invariant speaks of the environment and the call stack only. -/
theorem inv_congr {s t : State} (he : t.env = s.env) (hc : t.callStack = s.callStack) : t.Inv ↔ s.Inv := by
  simp only [State.Inv, he, hc]

theorem inv_logCalls (cs : List ContractCall) (s : State) (h : s.Inv) : (s.logCalls cs).Inv := h

/-- An executor command stores inside the space, at a well-formed pair, and touches no call stack. -/
theorem inv_after {op : ExecOp} {low high : Addr} {s : State} (h : s.Inv)
    (ok : AddressesOk (s.width (gateOf op)) low high) : (s.after op low high).Inv := by
  obtain ⟨hmem, hstack⟩ := h
  rw [State.width_eq] at ok
  exact ⟨memWf_opEffect op hmem ok, hstack⟩

theorem inv_stepOver (stp : Stepper) (max : BitVec 32) {s : State} (h : s.Inv) : (stepOver stp max s).2.Inv :=
  stepOver_keeps stp max (fun _ => inv_stepInto stp) inv_logCalls h

theorem inv_stepOut (stp : Stepper) (max : BitVec 32) {s : State} (h : s.Inv) : (stepOut stp max s).2.Inv :=
  stepOut_keeps stp max (fun _ => inv_stepInto stp) inv_logCalls h

/-- Every instruction keeps the invariant: a command, a query, and a step command, whose loop is a run of StepIntos. -/
theorem inv_exec {i : Instr} {s t : State} (h : s.Inv) (hx : exec i s = .next t) : t.Inv := by
  rcases exec_next hx with ⟨op, low, high, -, ok, rfl⟩ | ⟨op, rfl, -⟩ | ⟨q, rfl, hq⟩
  · exact inv_after h ok
  · exact h
  · suffices hq2 : q.2.Inv from hq2
    rcases hq with ⟨max, -, rfl⟩ | ⟨max, -, rfl⟩ | ⟨max, -, rfl⟩
    · exact inv_stepInto _ h
    · exact inv_stepOver _ max h
    · exact inv_stepOut _ max h

/-- Settles O36: removing a request from the inbox keeps the invariant; then a step is a transaction of the host, which keeps
the call stack and the canonical form, or an instruction. -/
theorem invariantKept : Obligations.InvariantKept := by
  intro s t h hs
  rcases step_next hs with ⟨-, rfl⟩ | ⟨r, rest, -, hd | ⟨i, u, hr, hx⟩⟩
  · exact h
  · obtain ⟨hmem, hstack⟩ := h
    obtain ⟨stackKept, memKept⟩ := take_done hd
    exact ⟨memKept hmem, stackKept ▸ hstack⟩
  · obtain ⟨env, stack⟩ := take_run hr
    exact inv_exec ((inv_congr env stack).mpr h) hx

end Sys2Proof.Machine
end

section
/-! SUPPORT. The operations of the Register File's public contract as transactions, and the operand accesses at 8 bits, where
`ea.high` is not consulted (40_regfile_flags.md R120 to R132). -/

namespace Sys2Proof.Machine

/-! ## The operations of the Register File (40_regfile_flags.md R121 to R129) -/

/-- Everything such an operation can do: write `P` and the reply. -/
theorem doFlagOp_writes (op : FlagOp) (s : State) :
    ∃ p q, doFlagOp op s = { s with env := s.env.mapRegs fun r => { r with p := p }, reply := q } := by
  cases op <;> exact ⟨_, _, rfl⟩

/-- What such an operation leaves alone: every register but `P`, memory, the trace and the controller. -/
theorem doFlagOp_frame (op : FlagOp) (s : State) :
    KeepsRegsBut [] s (doFlagOp op s) ∧ KeepsMemory s (doFlagOp op s) ∧
      (doFlagOp op s).env.trace = s.env.trace ∧ KeepsController s (doFlagOp op s) := by
  obtain ⟨p, q, h⟩ := doFlagOp_writes op s
  rw [h]
  refine ⟨fun n hp _ => ?regs, fun _ => rfl, rfl, rfl, rfl, rfl, rfl, rfl, rfl, rfl, rfl⟩
  cases n
  case p => exact absurd rfl hp
  all_goals rfl

theorem keepsFlagsBut_answer (q : Reply) (s : State) : KeepsFlagsBut [] s (s.answer q) := fun _ _ => rfl

@[simp] theorem flag_updateRegs_setFlag (f : Flag) (b : Bool) (s : State) :
    (s.updateRegs (RegFile.setFlag f b)).flag f = b :=
  flag_setFlag_same f b s.env.regs

theorem keepsFlagsBut_setFlag (f : Flag) (b : Bool) (s : State) :
    KeepsFlagsBut [f] s (s.updateRegs (RegFile.setFlag f b)) :=
  fun _ h => flag_setFlag_other b s.env.regs (List.ne_of_not_mem_cons h)

theorem keepsFlagsBut_setZN (v : Word) (w : Width) (s : State) :
    KeepsFlagsBut [.z, .n] s (s.updateRegs (setZN v w)) := by
  intro f h
  obtain ⟨hz, hn⟩ : f ≠ .z ∧ f ≠ .n := by simpa using h
  exact flag_setZN_other v w s.env.regs hn hz

/-- Z and N of one value are never both set: a value that is 0 at the width has no sign bit. -/
theorem not_z_and_n_of_znFrom {t : State} {w : Width} {v : Word} (h : t.ZNFrom w v) :
    ¬(t.flag .z = true ∧ t.flag .n = true) := by
  rintro ⟨hz, hn⟩
  obtain ⟨zero, sign⟩ := h
  have low : lowBits w v = lowBits w 0 := by simpa [lowBits] using zero.mp hz
  have top : v.getLsbD (w.bits - 1) = false := by
    rw [getLsbD_of_lowBits_eq low (width_signBit_eq w ▸ width_signBit_lt w)]
    simp
  rw [sign, top] at hn
  cases hn

/-- Settles O8: the step of the request is the operation, which writes `P` and the reply only; a query answers and keeps `P`, a
setter writes its one flag, and SetZN leaves Z and N of one value. -/
theorem flagOperations : Obligations.FlagOperations := by
  intro s op rest h
  obtain ⟨regs, memory, trace, controller⟩ := doFlagOp_frame op { s with inbox := rest }
  refine ⟨doFlagOp op { s with inbox := rest }, step_of_take_done h rfl, regs, memory, trace, controller, ?_⟩
  cases op
  case getAccumulatorSize | getIndexSize | getCarryFlag | getDecimalFlag => exact ⟨rfl, keepsFlagsBut_answer _ _⟩
  case setCarryFlag b | setOverflowFlag b | setNegativeFlag b | setZeroFlag b =>
    exact ⟨rfl, flag_updateRegs_setFlag _ b _, keepsFlagsBut_setFlag _ b _⟩
  case setZN v w =>
    have zn : State.ZNFrom (doFlagOp (.setZN v w) { s with inbox := rest }) w v := znFrom_of_regs rfl
    exact ⟨rfl, zn, keepsFlagsBut_setZN v w _, not_z_and_n_of_znFrom zn⟩

/-! ## The operand accesses at 8 bits (40_regfile_flags.md R131, R132) -/

theorem readOperand_w8 (ea : EA) (e : Env) :
    readOperand .w8 ea e = ((busReadByte ea.low e).1.setWidth 16, (busReadByte ea.low e).2) := rfl

theorem writeOperand_w8 (ea : EA) (v : Word) (e : Env) :
    writeOperand .w8 ea v e = busWriteByte ea.low (v.extractLsb' 0 8) e := rfl

theorem eaMalformed_w8 (ea : EA) : eaMalformed .w8 ea = decide (addressSpace ≤ ea.low.toNat) := rfl

/-- While the gate selects 8 bits, the operation does not depend on the high address of its pair. -/
def IgnoresHighAt8 (g : Gate) (f : EA → Env → Env) : Prop :=
  ∀ (e : Env) (low high high' : Addr), width g e.regs = .w8 → f ⟨low, high⟩ e = f ⟨low, high'⟩ e

theorem ignoresHighAt8_logicOp (f : Word → Word → Word) : IgnoresHighAt8 .m (logicOp f) :=
  fun _ _ _ _ hw => by simp only [logicOp, hw, readOperand_w8]

theorem ignoresHighAt8_arithOp (pre : Width → Word → Word) (acc : Width → Bool → Nat → Nat → Nat → Accumulated) :
    IgnoresHighAt8 .m (arithOp pre acc) :=
  fun _ _ _ _ hw => by simp only [arithOp, hw, readOperand_w8]

theorem ignoresHighAt8_compareOp (g : Gate) (reg : RegFile → Word) : IgnoresHighAt8 g (compareOp g reg) :=
  fun _ _ _ _ hw => by simp only [compareOp, hw, readOperand_w8]

theorem ignoresHighAt8_bitOp : IgnoresHighAt8 .m bitOp := fun _ _ _ _ hw => by simp only [bitOp, hw, readOperand_w8]

theorem ignoresHighAt8_ldaOp : IgnoresHighAt8 .m ldaOp := fun _ _ _ _ hw => by simp only [ldaOp, hw, readOperand_w8]

theorem ignoresHighAt8_ldxOp : IgnoresHighAt8 .x ldxOp := fun _ _ _ _ hw => by simp only [ldxOp, hw, readOperand_w8]

theorem ignoresHighAt8_ldyOp : IgnoresHighAt8 .x ldyOp := fun _ _ _ _ hw => by simp only [ldyOp, hw, readOperand_w8]

theorem ignoresHighAt8_storeOp (g : Gate) (value : RegFile → Word) : IgnoresHighAt8 g (storeOp g value) :=
  fun _ _ _ _ hw => by simp only [storeOp, hw, writeOperand_w8]

theorem ignoresHighAt8_rmwOp (f : Width → Word → RegFile → Word × RegFile) : IgnoresHighAt8 .m (rmwOp f) :=
  fun _ _ _ _ hw => by simp only [rmwOp, hw, readOperand_w8, writeOperand_w8]

/-- Every executor operation reaches its pair through the operand accesses at its own gate's width. -/
theorem ignoresHighAt8_opEffect (op : ExecOp) : IgnoresHighAt8 (gateOf op) (opEffect op) := by
  cases op
  case and | eor | ora => exact ignoresHighAt8_logicOp _
  case adc => exact ignoresHighAt8_arithOp (fun _ m => m) adcAccumulate
  case sbc => exact ignoresHighAt8_arithOp (fun w m => ~~~m &&& w.mask) sbcAccumulate
  case cmp | cpx | cpy => exact ignoresHighAt8_compareOp _ _
  case bit => exact ignoresHighAt8_bitOp
  case lda => exact ignoresHighAt8_ldaOp
  case ldx => exact ignoresHighAt8_ldxOp
  case ldy => exact ignoresHighAt8_ldyOp
  case sta | stx | sty => exact ignoresHighAt8_storeOp _ _
  case stz => exact ignoresHighAt8_storeOp .m fun _ => 0
  case asl | rol | lsr | ror | inc | dec | tsb | trb => exact ignoresHighAt8_rmwOp _

/-- The command of such an operation has the same outcome for any two high addresses, a refusal included (20_memory.md R71). -/
theorem runCommand_high_congr {g : Gate} {f : EA → Env → Env} (hf : IgnoresHighAt8 g f) {s : State}
    (hw : width g s.env.regs = .w8) (low high high' : Addr) :
    runCommand g ⟨low, high⟩ f s = runCommand g ⟨low, high'⟩ f s := by
  simp only [runCommand, hw, eaMalformed_w8, hf s.env low high high' hw]

/-- Settles O28: an executor command is the command of its operation, and no operation depends on the high address at 8 bits. -/
theorem eightBitIgnoresHigh : Obligations.EightBitIgnoresHigh := by
  intro op s low high high' hw
  rw [State.width_eq] at hw
  rw [exec_toInstr, exec_toInstr]
  exact runCommand_high_congr (ignoresHighAt8_opEffect op) hw low high high'

end Sys2Proof.Machine
end

section
/-! SUPPORT. The commands that write A and set Z and N from it, and the logic operations AND, EOR and ORA
(41_logic.md R140 to R143). -/

namespace Sys2Proof.Machine

/-- The word of an executor command selects its operation by the operation's own code (30_encoding.md R91, R92). -/
theorem encodes_code (op : ExecOp) : Encodes op.code op.toInstr := decodeXcmd_append op

/-! ## A write of A with Z and N set from it -/

theorem keepsRegsBut_of_writeA {s t : State} {u v : Word} {w : Width}
    (h : t.env.regs = setZN u w (writeA w v s.env.regs)) : KeepsRegsBut [.a] s t := by
  intro n hp ha
  rw [h]
  cases n
  case p => exact absurd rfl hp
  case a => exact absurd (List.mem_singleton.mpr rfl) ha
  all_goals rfl

theorem keepsFlagsBut_of_writeA {s t : State} {u v : Word} {w : Width}
    (h : t.env.regs = setZN u w (writeA w v s.env.regs)) : KeepsFlagsBut [.n, .z] s t := by
  intro f hf
  obtain ⟨hn, hz⟩ : f ≠ .n ∧ f ≠ .z := by simpa using hf
  rw [State.flag, h, flag_setZN_other u w _ hn hz, writeA_flag, State.flag]

/-- What a command does that stores nothing and leaves the Register File with `v` written to A and Z and N set from A: the
common shape of 41_logic.md R140, whatever `v` is. -/
theorem exec_of_writeA {op : ExecOp} {low high : Addr} {s : State} {v : Word}
    (ok : AddressesOk (s.width (gateOf op)) low high) (reads : ∀ m r, storedValue op m r = none)
    (regs : (s.after op low high).env.regs =
      let r := writeA (s.width (gateOf op)) v s.env.regs
      setZN r.a (s.width (gateOf op)) r) :
    ∃ t, exec (op.toInstr low high) s = .next t ∧ AccumulatorGets (s.width (gateOf op)) v s t ∧
      ReadFrame (gateOf op) low high [.a] [.n, .z] s t :=
  ⟨_, exec_after ok, accGets regs rfl,
    readFrame_after reads (keepsRegsBut_of_writeA regs) (keepsFlagsBut_of_writeA regs)⟩

/-! ## The logic operations -/

/-- Settles O9: each of the three stores nothing, and its effect is the family's, with its own bitwise function. -/
theorem logicResult : Obligations.LogicResult := by
  refine ⟨encodes_code .and, encodes_code .eor, encodes_code .ora, fun s low high ok => ⟨?and, ?eor, ?ora⟩⟩
  case and => exact exec_of_writeA (op := .and) ok (fun _ _ => rfl) (after_regs_logic rfl low high s)
  case eor => exact exec_of_writeA (op := .eor) ok (fun _ _ => rfl) (after_regs_logic rfl low high s)
  case ora => exact exec_of_writeA (op := .ora) ok (fun _ _ => rfl) (after_regs_logic rfl low high s)

end Sys2Proof.Machine
end

section
/-! SUPPORT. The accumulations of ADC and SBC in both modes, and the integer laws they come to in binary mode
(42_arithmetic.md R150 to R161). -/

namespace Sys2Proof.Machine

/-! ## Both modes -/

/-- Settles O11: ADC is the common operation with the operand as it was read, and its accumulation is the one by nibble
groups. -/
theorem adcAccumulation : Obligations.AdcAccumulation := by
  refine ⟨encodes_code .adc, fun s low high ok => ?_⟩
  obtain ⟨t, next, acc⟩ :=
    exec_arith (op := .adc) (pre := fun _ m => m) (acc := adcAccumulate) rfl rfl (fun _ _ => rfl) s low high ok
  obtain ⟨before, after⟩ := adcAccumulate_eq (s.width .m) (s.flag .d) (lowBits (s.width .m) s.env.regs.a)
    (s.operand (s.width .m) low high).toNat (s.flag .c).toNat
  dsimp only at acc
  rw [after, before] at acc
  exact ⟨t, next, acc⟩

/-- Settles O12: SBC is the common operation with the operand complemented at the width, and its accumulation is the one by
nibble groups. -/
theorem sbcAccumulation : Obligations.SbcAccumulation := by
  refine ⟨encodes_code .sbc, fun s low high ok => ?_⟩
  obtain ⟨t, next, acc⟩ := exec_arith (op := .sbc) (pre := fun w m => ~~~m &&& w.mask) (acc := sbcAccumulate) rfl rfl
    (fun _ _ => rfl) s low high ok
  obtain ⟨before, after⟩ := sbcAccumulate_eq (s.width .m) (s.flag .d) (lowBits (s.width .m) s.env.regs.a)
    (2 ^ (s.width .m).bits - 1 - (s.operand (s.width .m) low high).toNat) (s.flag .c).toNat
  dsimp only at acc
  rw [toNat_not_and_mask _ _ (s.operand_lt _ low high), after, before] at acc
  exact ⟨t, next, acc⟩

/-! ## Binary mode -/

/-- In binary mode ADC accumulates the plain sum, with no normalisation (R151). -/
theorem exec_adc_binary {s : State} {low high : Addr} (ok : AddressesOk (s.width .m) low high) (hd : s.flag .d = false) :
    ∃ t, exec (.adc low high) s = .next t ∧
      let a := lowBits (s.width .m) s.env.regs.a
      let m := (s.operand (s.width .m) low high).toNat
      let r : Int := (a + m + (s.flag .c).toNat : Nat)
      Accumulates a m r r low high s t := by
  obtain ⟨-, accumulation⟩ := adcAccumulation
  simpa [hd] using accumulation s low high ok

/-- In binary mode SBC accumulates the plain sum with the complemented operand, with no normalisation (R151). -/
theorem exec_sbc_binary {s : State} {low high : Addr} (ok : AddressesOk (s.width .m) low high) (hd : s.flag .d = false) :
    ∃ t, exec (.sbc low high) s = .next t ∧
      let a := lowBits (s.width .m) s.env.regs.a
      let v := 2 ^ (s.width .m).bits - 1 - (s.operand (s.width .m) low high).toNat
      let r : Int := (a + v + (s.flag .c).toNat : Nat)
      Accumulates a v r r low high s t := by
  obtain ⟨-, accumulation⟩ := sbcAccumulation
  simpa [hd] using accumulation s low high ok

/-- Adding the complement at a width is subtracting, the carry being "no borrow", and `2 ^ W` more (R151). -/
theorem add_complement_eq_sub {w : Width} {m : Nat} (hm : m < 2 ^ w.bits) (a c : Nat) :
    ((a + (2 ^ w.bits - 1 - m) + c : Nat) : Int) = (a : Int) - m - (1 - c) + 2 ^ w.bits := by
  have cast : ((2 ^ w.bits : Nat) : Int) = 2 ^ w.bits := Nat.cast_pow 2 w.bits
  omega

/-- Settles O10: in binary mode the result, the carry and V are those of one sum, which for SBC is the difference and `2 ^ W`
more; V as signed overflow is the overflow rule, read as comparisons. -/
theorem binaryArithmeticLaws : Obligations.BinaryArithmeticLaws := by
  intro s low high ok hd
  have ha : lowBits (s.width .m) s.env.regs.a < 2 ^ (s.width .m).bits := lowBits_lt _ _
  have hm : (s.operand (s.width .m) low high).toNat < 2 ^ (s.width .m).bits := s.operand_lt _ low high
  have hc : (s.flag .c).toNat ≤ 1 := Bool.toNat_le _
  refine ⟨?adc, ?sbc⟩
  case adc =>
    obtain ⟨t, next, acc⟩ := exec_adc_binary ok hd
    refine ⟨t, next, acc, ?_⟩
    obtain ⟨result, -, carry, overflows, -⟩ := acc
    exact ⟨mod_cast result, mod_cast carry, overflows.trans (overflows_add ha hm hc)⟩
  case sbc =>
    obtain ⟨t, next, acc⟩ := exec_sbc_binary ok hd
    refine ⟨t, next, acc, ?_⟩
    obtain ⟨result, -, carry, overflows, -⟩ := acc
    rw [add_complement_eq_sub hm] at result carry
    exact ⟨result.trans (Int.add_emod_right _ _), carry.trans (le_add_iff_nonneg_left _),
      overflows.trans (overflows_sub ha hm hc)⟩

end Sys2Proof.Machine
end

section
/-! SUPPORT. The compares CMP, CPX and CPY as a difference, and the bit test BIT (43_compare_bit.md R170 to R175). -/

namespace Sys2Proof.Machine

/-! ## The compares -/

theorem toNat_mask (w : Width) : w.mask.toNat = 2 ^ w.bits - 1 := by cases w <;> rfl

/-- The sum of a compare is past the width's maximum when it reaches `2 ^ W` (R170). -/
theorem mask_lt_iff (w : Width) (r : Nat) : w.mask.toNat < r ↔ 2 ^ w.bits ≤ r := by
  have pos : 0 < 2 ^ w.bits := Nat.two_pow_pos _
  rw [toNat_mask]
  omega

/-- The sum of a compare is the difference and `2 ^ W` more (R170). -/
theorem compare_sum_eq_sub {w : Width} {m : Nat} (hm : m < 2 ^ w.bits) (a : Nat) :
    ((a + (2 ^ w.bits - 1 - m) + 1 : Nat) : Int) = (a : Int) - m + 2 ^ w.bits := by
  simpa using add_complement_eq_sub hm a 1

/-- Carry out of the sum is "no borrow" (R170, the derived form). -/
theorem compare_carry_iff {w : Width} {m : Nat} (hm : m < 2 ^ w.bits) (a : Nat) :
    2 ^ w.bits ≤ a + (2 ^ w.bits - 1 - m) + 1 ↔ m ≤ a := by
  omega

/-- At the width the sum is zero for equal values only (R170, the derived form). -/
theorem compare_zero_iff {w : Width} {a m : Nat} (ha : a < 2 ^ w.bits) (hm : m < 2 ^ w.bits) :
    (a + (2 ^ w.bits - 1 - m) + 1) % 2 ^ w.bits = 0 ↔ a = m := by
  cases w <;> simp only [Width.bits] at * <;> omega

/-- The top bit of a number laid out in a word is its sign bit at the width. -/
theorem getLsbD_ofNat_eq_signBit (w : Width) (n : Nat) : (BitVec.ofNat 16 n).getLsbD (w.bits - 1) = signBit w n := by
  rw [getLsbD_top_ofNat, signBit, decide_eq_decide]
  norm_cast

/-- Z and N of a number laid out in a word, as numbers. -/
theorem znFrom_ofNat {t : State} {w : Width} {n : Nat} :
    t.ZNFrom w (BitVec.ofNat 16 n) ↔ (t.flag .z = true ↔ n % 2 ^ w.bits = 0) ∧ t.flag .n = signBit w n := by
  have low : (BitVec.ofNat 16 n).toNat % 2 ^ w.bits = n % 2 ^ w.bits := lowBits_ofNat w n
  rw [State.ZNFrom, getLsbD_ofNat_eq_signBit, low]

theorem signBit_add_two_pow (w : Width) (r : Int) : signBit w (r + 2 ^ w.bits) = signBit w r := by
  rw [signBit, signBit, Int.add_emod_right]

/-- What a compare does, said once for the three (R170): C, Z and N of the sum, read as those of the difference, and the
frame. -/
theorem exec_compare {op : ExecOp} {reg : RegFile → Word} (effect : opEffect op = compareOp (gateOf op) reg)
    (reads : ∀ m r, storedValue op m r = none) {s : State} {low high : Addr}
    (ok : AddressesOk (s.width (gateOf op)) low high) :
    ∃ t, exec (op.toInstr low high) s = .next t ∧ Compared (gateOf op) (reg s.env.regs) low high s t := by
  have hm := s.operand_lt (s.width (gateOf op)) low high
  have ha := lowBits_lt (s.width (gateOf op)) (reg s.env.regs)
  have regs := after_regs_compare effect low high s
  dsimp only at regs
  rw [toNat_not_and_mask _ _ hm, toNat_and_mask] at regs
  obtain ⟨keepsRegs, keepsFlags, carry, zn⟩ := regs_shift regs
  rw [Bool.eq_iff_iff, decide_eq_true_iff, gt_iff_lt, mask_lt_iff] at carry
  obtain ⟨zero, sign⟩ := znFrom_ofNat.mp zn
  rw [compare_sum_eq_sub hm, signBit_add_two_pow] at sign
  exact ⟨_, exec_after ok, carry, zn, carry.trans (compare_carry_iff hm _), zero.trans (compare_zero_iff ha hm), sign,
    readFrame_after reads keepsRegs keepsFlags⟩

/-- Settles O14: each of the three stores nothing, and its effect is the common one, with its own register and gate. -/
theorem compareResult : Obligations.CompareResult := by
  refine ⟨encodes_code .cmp, encodes_code .cpx, encodes_code .cpy, fun s low high =>
    ⟨fun ok => ?cmp, fun ok => ⟨?cpx, ?cpy⟩⟩⟩
  case cmp => exact exec_compare (op := .cmp) rfl (fun _ _ => rfl) ok
  case cpx => exact exec_compare (op := .cpx) rfl (fun _ _ => rfl) ok
  case cpy => exact exec_compare (op := .cpy) rfl (fun _ _ => rfl) ok

/-! ## The bit test -/

/-- The registers and flags after Z, N and V are set and nothing else (R174). -/
theorem regs_bit {s t : State} {v n z : Bool}
    (h : t.env.regs = setOverflowFlag v (setNegativeFlag n (setZeroFlag z s.env.regs))) :
    KeepsRegsBut [] s t ∧ KeepsFlagsBut [.n, .v, .z] s t ∧ t.flag .z = z ∧ t.flag .n = n ∧ t.flag .v = v := by
  have flags (f : Flag) :
      t.flag f = if f = .v then v else if f = .n then n else if f = .z then z else s.flag f := by
    simp only [State.flag, h, setOverflowFlag, setNegativeFlag, setZeroFlag, flag_setFlag]
  refine ⟨fun r hp _ => ?regs, fun f hf => ?others, flags .z, flags .n, flags .v⟩
  case regs =>
    rw [h]
    cases r
    case p => exact absurd rfl hp
    all_goals rfl
  case others =>
    obtain ⟨hn, hv, hz⟩ : f ≠ .n ∧ f ≠ .v ∧ f ≠ .z := by simpa using hf
    rw [flags, if_neg hv, if_neg hn, if_neg hz]

/-- Settles O15: BIT stores nothing, and of the Register File it sets Z from the masked conjunction, and N and V from the
operand. -/
theorem bitTestResult : Obligations.BitTestResult := by
  refine ⟨encodes_code .bit, fun s low high ok => ?_⟩
  obtain ⟨keepsRegs, keepsFlags, zero, negative, overflow⟩ := regs_bit (after_regs_bit low high s)
  refine ⟨_, exec_after (op := .bit) ok, ?z, negative, overflow,
    readFrame_after (op := .bit) (fun _ _ => rfl) keepsRegs keepsFlags⟩
  rw [zero]
  exact and_mask_eq_zero _ _

end Sys2Proof.Machine
end

section
/-! SUPPORT. The loads LDA, LDX and LDY and the stores STA, STX, STY and STZ (44_load_store.md R180 to R189). -/

namespace Sys2Proof.Machine

/-! ## The loads -/

/-- `SetZN` writes no register but `P` (40_regfile_flags.md R123). -/
theorem read_setZN (v : Word) (w : Width) (r : RegFile) {n : RegName} (hp : n ≠ .p) :
    (setZN v w r).read n = r.read n := by
  cases n
  case p => exact absurd rfl hp
  all_goals rfl

/-- The registers and flags after a change of the Register File to `r`, which keeps `P` and all registers but the listed
ones, with Z and N then set from `v`. -/
theorem regs_setZN {s t : State} {v : Word} {w : Width} {r : RegFile} {ns : List RegName}
    (h : t.env.regs = setZN v w r) (hp : r.p = s.env.regs.p)
    (hr : ∀ n, n ∉ ns → r.read n = s.env.regs.read n) :
    KeepsRegsBut ns s t ∧ KeepsFlagsBut [.n, .z] s t ∧ t.ZNFrom w v := by
  refine ⟨fun n hnp hn => ?regs, fun f hf => ?flags, znFrom_of_regs h⟩
  case regs => rw [h, read_setZN v w r hnp, hr n hn]
  case flags =>
    obtain ⟨hn, hz⟩ : f ≠ .n ∧ f ≠ .z := by simpa using hf
    rw [State.flag, State.flag, h, flag_setZN_other v w r hn hz, RegFile.flag, RegFile.flag, hp]

/-- Of the registers, a write of X changes X only. -/
theorem read_with_x (v : Word) (r : RegFile) {n : RegName} (hn : n ∉ [RegName.x]) :
    RegFile.read n { r with x := v } = r.read n := by
  cases n
  case x => exact absurd (List.mem_singleton.mpr rfl) hn
  all_goals rfl

/-- Of the registers, a write of Y changes Y only. -/
theorem read_with_y (v : Word) (r : RegFile) {n : RegName} (hn : n ∉ [RegName.y]) :
    RegFile.read n { r with y := v } = r.read n := by
  cases n
  case y => exact absurd (List.mem_singleton.mpr rfl) hn
  all_goals rfl

/-- What a command does that stores nothing and leaves the Register File with one register written and Z and N set from
the operand: the common shape of LDX and LDY (R182, R183). -/
theorem exec_of_loadRegister {op : ExecOp} {low high : Addr} {s : State} {r : RegFile} {target : RegName}
    (ok : AddressesOk (s.width (gateOf op)) low high) (reads : ∀ m q, storedValue op m q = none)
    (regs : (s.after op low high).env.regs =
      setZN (s.operand (s.width (gateOf op)) low high) (s.width (gateOf op)) r)
    (notP : target ≠ .p) (keepsP : r.p = s.env.regs.p)
    (others : ∀ n, n ∉ [target] → r.read n = s.env.regs.read n) :
    ∃ t, exec (op.toInstr low high) s = .next t ∧ t.env.regs.read target = r.read target ∧
      t.ZNFrom (s.width (gateOf op)) (s.operand (s.width (gateOf op)) low high) ∧
      ReadFrame (gateOf op) low high [target] [.n, .z] s t := by
  obtain ⟨keepsRegs, keepsFlags, zn⟩ := regs_setZN regs keepsP others
  refine ⟨_, exec_after ok, ?_, zn, readFrame_after reads keepsRegs keepsFlags⟩
  rw [regs, read_setZN _ _ r notP]

/-- Settles O16: LDA is a command that writes A at the width and sets Z and N from it, as the logic operations are; LDX and
LDY replace the whole register by the operand, which is zero-extended at 8 bits. -/
theorem loadResult : Obligations.LoadResult := by
  refine ⟨encodes_code .lda, encodes_code .ldx, encodes_code .ldy, fun s low high =>
    ⟨fun ok => ?lda, fun ok => ⟨?ldx, ?ldy⟩⟩⟩
  case lda => exact exec_of_writeA (op := .lda) ok (fun _ _ => rfl) (after_regs_lda low high s)
  case ldx =>
    exact exec_of_loadRegister (op := .ldx) (target := .x) ok (fun _ _ => rfl) (after_regs_ldx low high s) (by decide) rfl
      fun _ hn => read_with_x _ _ hn
  case ldy =>
    exact exec_of_loadRegister (op := .ldy) (target := .y) ok (fun _ _ => rfl) (after_regs_ldy low high s) (by decide) rfl
      fun _ hn => read_with_y _ _ hn

/-! ## The stores -/

/-- A store leaves the Register File alone (R184 to R187). -/
theorem after_regs_store {op : ExecOp} {g : Gate} {value : RegFile → Word} (h : opEffect op = storeOp g value)
    (low high : Addr) (s : State) : (s.after op low high).env.regs = s.env.regs := by
  rw [State.after_env, h, storeOp, writeOperand_regs]

/-- What a store does, said once for the four (R184 to R187): it completes, with the frame
of a store of its value. -/
theorem exec_store {op : ExecOp} {value : RegFile → Word} (effect : opEffect op = storeOp (gateOf op) value)
    (noRmw : rmwFn op = none) (stores : ∀ m r, storedValue op m r = some (value r)) {s : State} (inv : s.Inv)
    {low high : Addr} (ok : AddressesOk (s.width (gateOf op)) low high) :
    ∃ t, exec (op.toInstr low high) s = .next t ∧ StoreFrame (gateOf op) low high (value s.env.regs) s t := by
  obtain ⟨hmem, -⟩ := inv
  exact ⟨_, exec_after ok, storeFrame_after hmem ok noRmw (stores _ _) (after_regs_store effect low high s)⟩

/-- Settles O17: each of the four is the common store, with its own value and gate. -/
theorem storeResult : Obligations.StoreResult := by
  refine ⟨encodes_code .sta, encodes_code .stx, encodes_code .sty, encodes_code .stz, fun s low high inv =>
    ⟨fun ok => ⟨?sta, ?stz⟩, fun ok => ⟨?stx, ?sty⟩⟩⟩
  case sta => exact exec_store (op := .sta) rfl rfl (fun _ _ => rfl) inv ok
  case stz => exact exec_store (op := .stz) (value := fun _ => 0) rfl rfl (fun _ _ => rfl) inv ok
  case stx => exact exec_store (op := .stx) rfl rfl (fun _ _ => rfl) inv ok
  case sty => exact exec_store (op := .sty) rfl rfl (fun _ _ => rfl) inv ok

end Sys2Proof.Machine
end

section
/-! SUPPORT. The read-modify-write operations as functions of numbers, what a command of the family does, and its shifts,
rotates, increments and bit tests (45_rmw.md R200 to R211). -/

namespace Sys2Proof.Machine

/-! ## The data functions as numbers -/

/-- The bit that leaves to the left, as a comparison (R202, R203). -/
theorem getLsbD_signBit {w : Width} {m : Word} (hm : m.toNat < 2 ^ w.bits) :
    m.getLsbD w.signBit = decide (2 ^ (w.bits - 1) ≤ m.toNat) := by
  rw [width_signBit_eq, getLsbD_top hm]

/-- The bit that leaves to the right, as a remainder (R204, R205). -/
theorem getLsbD_zero_eq_mod_two (m : Word) : m.getLsbD 0 = decide (m.toNat % 2 = 1) := by
  rw [← BitVec.testBit_toNat, Nat.testBit_zero]

theorem aslFn_eq {w : Width} {m : Word} (hm : m.toNat < 2 ^ w.bits) (r : RegFile) :
    aslFn w m r = shiftFlags w (decide (2 ^ (w.bits - 1) ≤ m.toNat)) (BitVec.ofNat 16 (2 * m.toNat % 2 ^ w.bits)) r := by
  rw [aslFn, asl_val, getLsbD_signBit hm]

theorem lsrFn_eq (w : Width) (m : Word) (r : RegFile) :
    lsrFn w m r = shiftFlags w (decide (m.toNat % 2 = 1)) (BitVec.ofNat 16 (m.toNat / 2)) r := by
  rw [lsrFn, lsr_val, getLsbD_zero_eq_mod_two]

theorem rolFn_eq {w : Width} {m : Word} (hm : m.toNat < 2 ^ w.bits) (r : RegFile) :
    rolFn w m r = shiftFlags w (decide (2 ^ (w.bits - 1) ≤ m.toNat))
      (BitVec.ofNat 16 ((2 * m.toNat + (r.flag .c).toNat) % 2 ^ w.bits)) r := by
  rw [rolFn, rol_val, getLsbD_signBit hm, getCarryFlag]

theorem rorFn_eq {w : Width} {m : Word} (hm : m.toNat < 2 ^ w.bits) (r : RegFile) :
    rorFn w m r = shiftFlags w (decide (m.toNat % 2 = 1))
      (BitVec.ofNat 16 (m.toNat / 2 + (r.flag .c).toNat * 2 ^ (w.bits - 1))) r := by
  rw [rorFn, ror_val w m _ hm, getLsbD_zero_eq_mod_two, getCarryFlag]

/-- The bits of A set in an operand stay inside the width (R210). -/
theorem tsbFn_eq {w : Width} {m : Word} (hm : m.toNat < 2 ^ w.bits) (r : RegFile) :
    tsbFn w m r = (m ||| BitVec.ofNat 16 (lowBits w r.a),
      setZeroFlag (BitVec.ofNat 16 (lowBits w r.a) &&& m == 0) r) := by
  have ha : (r.a &&& w.mask).toNat < 2 ^ w.bits := toNat_and_mask w r.a ▸ lowBits_lt w r.a
  have fits : (m ||| r.a &&& w.mask).toNat < 2 ^ w.bits := by
    rw [BitVec.toNat_or]
    exact Nat.or_lt_two_pow hm ha
  rw [tsbFn, and_mask_self fits, and_mask_eq]

/-- The bits of A cleared in an operand leave it inside the width (R211). -/
theorem trbFn_eq {w : Width} {m : Word} (hm : m.toNat < 2 ^ w.bits) (r : RegFile) :
    trbFn w m r = (m &&& ~~~BitVec.ofNat 16 (lowBits w r.a),
      setZeroFlag (BitVec.ofNat 16 (lowBits w r.a) &&& m == 0) r) := by
  have fits : (m &&& ~~~(r.a &&& w.mask)).toNat < 2 ^ w.bits := by
    rw [BitVec.toNat_and]
    exact Nat.and_le_left.trans_lt hm
  rw [trbFn, and_mask_self fits, and_mask_eq]

/-! ## The commands of the family -/

theorem gateOf_of_rmwFn {op : ExecOp} {f : Width → Word → RegFile → Word × RegFile} (hf : rmwFn op = some f) :
    gateOf op = .m := by
  cases op
  case asl | rol | lsr | ror | inc | dec | tsb | trb => rfl
  all_goals cases hf

/-- What a read-modify-write command does, said once for the eight (R200): it completes, and when its data function gives
`res` and `r`, it stores `res` in the family's frame and leaves the Register File `r`, with what follows from that. -/
theorem exec_rmw {op : ExecOp} {f : Width → Word → RegFile → Word × RegFile} (hf : rmwFn op = some f) {s : State}
    (inv : s.Inv) {low high : Addr} (ok : AddressesOk (s.width .m) low high) {res : Word} {r : RegFile}
    (data : f (s.width .m) (s.operand (s.width .m) low high) s.env.regs = (res, r)) {flags : List Flag}
    {Post : State → Prop}
    (regs : ∀ {t : State}, t.env.regs = r → KeepsRegsBut [] s t ∧ KeepsFlagsBut flags s t ∧ Post t) :
    ∃ t, exec (op.toInstr low high) s = .next t ∧ Post t ∧ RmwFrame low high res flags s t := by
  obtain ⟨hmem, -⟩ := inv
  obtain ⟨keepsRegs, keepsFlags, post⟩ := regs (t := s.after op low high) (by rw [after_regs_rmw hf, data])
  have frame := rmwFrame_after hf hmem ok keepsRegs keepsFlags
  rw [data] at frame
  exact ⟨_, exec_after (by rwa [gateOf_of_rmwFn hf]), post, frame⟩

/-- What a shift or a rotate does whose bit that leaves is 1 just when `leaves` holds (R208). -/
theorem exec_shift {op : ExecOp} {f : Width → Word → RegFile → Word × RegFile} (hf : rmwFn op = some f) {s : State}
    (inv : s.Inv) {low high : Addr} (ok : AddressesOk (s.width .m) low high) {res : Word} {leaves : Prop}
    [Decidable leaves]
    (data : f (s.width .m) (s.operand (s.width .m) low high) s.env.regs =
      shiftFlags (s.width .m) (decide leaves) res s.env.regs) :
    ∃ t, exec (op.toInstr low high) s = .next t ∧ (t.flag .c = true ↔ leaves) ∧ t.ZNFrom (s.width .m) res ∧
      RmwFrame low high res [.n, .z, .c] s t := by
  obtain ⟨t, runs, ⟨carry, zn⟩, frame⟩ := exec_rmw hf inv ok data regs_shift
  exact ⟨t, runs, by rw [carry, decide_eq_true_iff], zn, frame⟩

/-- What a test-and-set or test-and-reset does that stores `res` (R209): Z is of the bits tested. -/
theorem exec_testBits {op : ExecOp} {f : Width → Word → RegFile → Word × RegFile} (hf : rmwFn op = some f) {s : State}
    (inv : s.Inv) {low high : Addr} (ok : AddressesOk (s.width .m) low high) {res tested : Word}
    (data : f (s.width .m) (s.operand (s.width .m) low high) s.env.regs =
      (res, setZeroFlag (tested == 0) s.env.regs)) :
    ∃ t, exec (op.toInstr low high) s = .next t ∧ (t.flag .z = true ↔ tested = 0) ∧
      RmwFrame low high res [.z] s t := by
  obtain ⟨t, runs, zero, frame⟩ := exec_rmw hf inv ok data regs_z
  exact ⟨t, runs, by rw [zero, beq_iff_eq], frame⟩

/-! ## The obligations -/

/-- Settles O18: each is a shift, and the top bit of half an operand is 0, so LSR clears N. -/
theorem shiftResult : Obligations.ShiftResult := by
  refine ⟨encodes_code .asl, encodes_code .lsr, fun s low high inv ok => ?_⟩
  have hm := s.operand_lt (s.width .m) low high
  refine ⟨?asl, ?lsr⟩
  case asl => exact exec_shift (op := .asl) rfl inv ok (aslFn_eq hm _)
  case lsr =>
    obtain ⟨t, runs, carry, zn, frame⟩ := exec_shift (op := .lsr) rfl inv ok (lsrFn_eq _ _ _)
    have negative : t.flag .n = false := by
      obtain ⟨-, topBit⟩ := zn
      rw [topBit, getLsbD_top_ofNat, lsr_top hm]
    exact ⟨t, runs, carry, negative, zn, frame⟩

/-- Settles O19: each is a shift with the old carry put in, which for ROR is the top bit of the result and so N. -/
theorem rotateResult : Obligations.RotateResult := by
  refine ⟨encodes_code .rol, encodes_code .ror, fun s low high inv ok => ?_⟩
  have hm := s.operand_lt (s.width .m) low high
  refine ⟨?rol, ?ror⟩
  case rol => exact exec_shift (op := .rol) rfl inv ok (rolFn_eq hm _)
  case ror =>
    obtain ⟨t, runs, carry, zn, frame⟩ := exec_shift (op := .ror) rfl inv ok (rorFn_eq hm _)
    have negative : t.flag .n = s.flag .c := by
      obtain ⟨-, topBit⟩ := zn
      rw [topBit, getLsbD_top_ofNat, ror_top hm, State.flag]
    exact ⟨t, runs, carry, negative, zn, frame⟩

/-- Settles O21: each stores the operand plus or minus one at the width, and of the flags sets Z and N from it. -/
theorem incrementResult : Obligations.IncrementResult := by
  refine ⟨encodes_code .inc, encodes_code .dec, fun s low high inv ok => ⟨?inc, ?dec⟩⟩
  case inc => exact exec_rmw (op := .inc) rfl inv ok (by rw [incFn, inc_val]) regs_inc
  case dec => exact exec_rmw (op := .dec) rfl inv ok (by rw [decFn, dec_val]) regs_inc

/-- Settles O22: each tests the part of A at the width against the operand as read, then sets or clears those bits. -/
theorem testAndSetResult : Obligations.TestAndSetResult := by
  refine ⟨encodes_code .tsb, encodes_code .trb, fun s low high inv ok => ?_⟩
  have hm := s.operand_lt (s.width .m) low high
  refine ⟨?tsb, ?trb⟩
  case tsb => exact exec_testBits (op := .tsb) rfl inv ok (tsbFn_eq hm _)
  case trb => exact exec_testBits (op := .trb) rfl inv ok (trbFn_eq hm _)

end Sys2Proof.Machine
end

section
/-! SUPPORT. The classes of the opcodes and what a query about each answers; the calls, returns, branches and jumps of the
table, and every opcode byte outside it (46_classifier.md R230 to R261). -/

namespace Sys2Proof.Machine

/-! ## Decoding the bytes of an instruction, by format (30_encoding.md R95) -/

/-- An opcode of format ABS or REL16 decodes with its operand put together from its two bytes. -/
theorem decode_absWord {op : Byte} {mk : BitVec 16 → Instr} (h : ∀ operands, decodeOpcode op operands = operand16 mk operands)
    (v : BitVec 16) : decode (absWord op v) = .ok (mk v) := by
  simp only [decode, absWord, decodeOpc8, h, operand16, bytes16_append]

/-- An opcode of format LONG decodes with its operand put together from its three bytes. -/
theorem decode_longWord {op : Byte} {mk : BitVec 24 → Instr} (h : ∀ operands, decodeOpcode op operands = operand24 mk operands)
    (v : BitVec 24) : decode (longWord op v) = .ok (mk v) := by
  simp only [decode, longWord, decodeOpc8, h, operand24, bytes24_append]

/-! ## The answer to a query -/

/-- An instruction decoded from bytes that begin with `op` is the query about `op`: it completes with the classifier's outputs
for `op` (46_classifier.md R230). -/
theorem exec_answers_of_decode {op : Byte} {operands : List Byte} {i : Instr} (hd : decode (.opc8 (op :: operands)) = .ok i)
    {s : State} {c : Classification} {reads : List Addr} (hc : classify s s.queryPc op = c)
    (hr : callTargetReads s.queryPc op = reads) : ∃ t, exec i s = .next t ∧ Answered c reads s t :=
  ⟨_, exec_of_decodeOpcode hd s, hc ▸ answered_answerQuery op s reads hr⟩

/-! ## Opcodes that are no call -/

/-- `op` is no call, and these are its other two classes and its size. -/
def NoCall (op : Byte) (isRet isBr : Bool) (size : Nat) : Prop :=
  isCall op = false ∧ isReturn op = isRet ∧ isBranch op = isBr ∧ instructionSize op = size

/-- Only the two calls with an operand to assemble read anything (46_classifier.md R236). -/
theorem callTargetReads_of_not_isCall {op : Byte} (h : isCall op = false) (pc : Addr) : callTargetReads pc op = [] := by
  simp only [isCall, Bool.or_eq_false_iff] at h
  obtain ⟨⟨jsr, jsl⟩, -⟩ := h
  simp only [callTargetReads, jsr, jsl, Bool.false_eq_true, if_false]

/-- The outputs for an opcode that is no call leave the two addresses undefined (46_classifier.md R235, R236). -/
theorem NoCall.classify_eq {op : Byte} {isRet isBr : Bool} {size : Nat} (h : NoCall op isRet isBr size) (s : State)
    (pc : Addr) : classify s pc op = plainOutputs isRet isBr size := by
  obtain ⟨call, rfl, rfl, rfl⟩ := h
  simp only [classify, call, plainOutputs, Bool.false_eq_true, if_false]

theorem NoCall.exec_answers {op : Byte} {isRet isBr : Bool} {size : Nat} (h : NoCall op isRet isBr size)
    {operands : List Byte} {i : Instr} (hd : decode (.opc8 (op :: operands)) = .ok i) (s : State) :
    ∃ t, exec i s = .next t ∧ Answered (plainOutputs isRet isBr size) [] s t :=
  exec_answers_of_decode hd (h.classify_eq s _) (callTargetReads_of_not_isCall h.1 _)

/-- RTS, RTL and RTI (46_classifier.md R243 to R245). -/
theorem noCall_of_isReturn {op : Byte} (h : isReturn op = true) : NoCall op true false 1 := by
  obtain rfl | rfl | rfl := (isReturn_iff op).mp h <;> exact ⟨rfl, rfl, rfl, rfl⟩

theorem isConditionalBranch_iff (op : Byte) : isConditionalBranch op = true ↔
    op = 0x10 ∨ op = 0x30 ∨ op = 0x50 ∨ op = 0x70 ∨ op = 0x90 ∨ op = 0xB0 ∨ op = 0xD0 ∨ op = 0xF0 := by
  simp [isConditionalBranch, or_assoc]

/-- The eight conditional branches (46_classifier.md R246 to R253). -/
theorem noCall_of_isConditionalBranch {op : Byte} (h : isConditionalBranch op = true) : NoCall op false true 2 := by
  obtain rfl | rfl | rfl | rfl | rfl | rfl | rfl | rfl := (isConditionalBranch_iff op).mp h <;>
    exact ⟨rfl, rfl, rfl, rfl⟩

theorem isJump_iff (op : Byte) :
    isJump op = true ↔ op = 0x4C ∨ op = 0x5C ∨ op = 0x6C ∨ op = 0x7C ∨ op = 0xDC := by
  simp [isJump, or_assoc]

/-- The five jumps; the long one has one byte more (46_classifier.md R254 to R258). -/
theorem noCall_of_isJump {op : Byte} (h : isJump op = true) : NoCall op false true (if op = 0x5C then 4 else 3) := by
  obtain rfl | rfl | rfl | rfl | rfl := (isJump_iff op).mp h <;> exact ⟨rfl, rfl, rfl, rfl⟩

/-- BRA: a branch if the open parameter says so (46_classifier.md R259). -/
theorem noCall_bra : NoCall 0x80 false Config.braIsBranch 2 := ⟨rfl, rfl, isBranch_bra, rfl⟩

/-- BRL: both its class and its size are open (46_classifier.md R260). -/
theorem noCall_brl : NoCall 0x82 false Config.brlIsBranch (sizeOther 0x82) := ⟨rfl, rfl, isBranch_brl, rfl⟩

/-! ## Calls -/

/-- No call is a branch (46_classifier.md R237). -/
theorem isBranch_of_isCall {op : Byte} (h : isCall op = true) : isBranch op = false := by
  obtain rfl | rfl | rfl := (isCall_iff op).mp h <;> rfl

/-- The outputs for a call, with its return address and its target (46_classifier.md R231, R234 to R236). -/
theorem classify_of_isCall {op : Byte} (h : isCall op = true) {s : State} {pc ret target : Addr}
    (hr : calculateReturnAddress pc op = ret) (ht : calculateCallTarget s.reader pc op = target) :
    classify s pc op =
      { isCall := true, isReturn := false, isBranch := false, size := if op = 0x22 then 4 else 3,
        returnAddress := some ret, callTarget := some target } := by
  simp only [classify, h, isReturn_of_isCall h, isBranch_of_isCall h, instructionSize_of_isCall h, hr, ht, if_true]

/-- Settles O39: each instruction is the query about its opcode byte, a call; its two addresses as numbers are the laws of the
two address calculations. -/
theorem callsAreClassified : Obligations.CallsAreClassified := by
  intro s a16 a24 pc bank lo hi bk
  have jsr := decode_absWord (op := 0x20) (fun _ => rfl) a16
  have jsl := decode_longWord (op := 0x22) (fun _ => rfl) a24
  have jsrX := decode_absWord (op := 0xFC) (fun _ => rfl) a16
  refine ⟨jsr, jsl, jsrX, exec_answers_of_decode jsr ?jsr rfl, exec_answers_of_decode jsl ?jsl rfl,
    exec_answers_of_decode jsrX ?jsrX rfl⟩
  case jsr =>
    exact classify_of_isCall rfl (calculateReturnAddress_short pc (.inl rfl)) (calculateCallTarget_short s.reader pc)
  case jsl => exact classify_of_isCall rfl (calculateReturnAddress_long pc) (calculateCallTarget_long s.reader pc)
  case jsrX => exact classify_of_isCall rfl (calculateReturnAddress_short pc (.inr rfl)) rfl

/-! ## Returns -/

/-- Stepping a return with a non-empty call stack pops the top entry and reports it, whatever its `isLong`
(47_step_controller.md R285; 10_state.md R36). -/
theorem stackAfter_of_isReturn {s : State} {below : List CallStackEntry} {top : CallStackEntry}
    (h : isReturn s.opcode = true) (hs : s.callStack = below ++ [top]) : stackAfter s = (below, none, some top) := by
  obtain ⟨call, -⟩ := noCall_of_isReturn h
  simp [stackAfter, call, h, State.depth, hs]

/-- Settles O40: the three opcodes are returns, and a StepInto at one of them pops. -/
theorem returnsAreClassified : Obligations.ReturnsAreClassified := by
  refine ⟨rfl, rfl, rfl, fun s => ⟨?rts, ?rtl, ?rti⟩, fun s max below top configured hop hs => ?pop⟩
  case rts => exact (noCall_of_isReturn (op := 0x60) rfl).exec_answers (operands := []) rfl s
  case rtl => exact (noCall_of_isReturn (op := 0x6B) rfl).exec_answers (operands := []) rfl s
  case rti => exact (noCall_of_isReturn (op := 0x40) rfl).exec_answers (operands := []) rfl s
  case pop =>
    have ret : isReturn s.opcode = true := (isReturn_iff _).mpr (by simpa using hop)
    refine ⟨_, _, rfl, rfl, ?_⟩
    rw [stepInto_eq _ ((configured_iff s).mpr configured), stackAfter_of_isReturn ret hs]
    exact ⟨rfl, rfl, rfl⟩

/-! ## Branches and jumps -/

/-- Settles O41: all eight opcodes are conditional branches with a one-byte operand. -/
theorem conditionalBranchesAreClassified : Obligations.ConditionalBranchesAreClassified := by
  intro s d ok
  have branch {op : Byte} {i : Instr} (hd : decode (.opc8 [op, d]) = .ok i) (h : isConditionalBranch op = true) : ok op i :=
    ⟨hd, (noCall_of_isConditionalBranch h).exec_answers hd s⟩
  exact ⟨branch rfl rfl, branch rfl rfl, branch rfl rfl, branch rfl rfl, branch rfl rfl, branch rfl rfl, branch rfl rfl,
    branch rfl rfl⟩

/-- Settles O42: all five opcodes are jumps, of format ABS but for the long one; a jump is no call and no return, so that
stepping it leaves the call stack. -/
theorem jumpsAreClassified : Obligations.JumpsAreClassified := by
  refine ⟨?query, fun s max configured hop => ?step⟩
  case query =>
    intro s a l ok
    have short {op : Byte} {mk : BitVec 16 → Instr} (hd : ∀ operands, decodeOpcode op operands = operand16 mk operands)
        (hj : NoCall op false true 3) : ok op (mk a) :=
      ⟨decode_absWord hd a, hj.exec_answers (decode_absWord hd a) s⟩
    have long := decode_longWord (op := 0x5C) (fun _ => rfl) l
    exact ⟨short (fun _ => rfl) (noCall_of_isJump rfl), short (fun _ => rfl) (noCall_of_isJump rfl),
      short (fun _ => rfl) (noCall_of_isJump rfl), short (fun _ => rfl) (noCall_of_isJump rfl), long,
      (noCall_of_isJump rfl).exec_answers long s⟩
  case step =>
    obtain ⟨call, ret, -⟩ := noCall_of_isJump ((isJump_iff s.opcode).mpr (by simpa using hop))
    obtain ⟨t, r, runs, delivers, stack, -, noEvents⟩ := stepInto_plain s max configured call ret
    exact ⟨t, r, runs, delivers, stack, noEvents⟩

/-- Settles O43: neither is a call or a return, whatever the open parameters are. -/
theorem unconditionalBranchesAreClassified : Obligations.UnconditionalBranchesAreClassified := by
  intro s d l
  have bra : decode (rel8Word 0x80 d) = .ok (.braRel d) := rfl
  have brl := decode_absWord (op := 0x82) (fun _ => rfl) l
  exact ⟨bra, brl, noCall_bra.exec_answers bra s, noCall_brl.exec_answers brl s⟩

/-! ## Every other opcode byte -/

/-- The open size is 1, 2, 3 or 4 (46_classifier.md R234). -/
theorem sizeOther_bounds (op : Byte) : 1 ≤ sizeOther op ∧ sizeOther op ≤ 4 := by
  unfold sizeOther
  omega

/-- Settles O44: an opcode byte outside the table has no class, so that its query is answered with its size alone and
stepping it leaves the call stack. -/
theorem otherOpcodesAreUnclassified : Obligations.OtherOpcodesAreUnclassified := by
  intro op hop
  have plain : NoCall op false false (sizeOther op) := unclassified_of_not_mem op hop
  obtain ⟨call, ret, -⟩ := unclassified_of_not_mem op hop
  refine ⟨sizeOther_bounds op, fun s pc rest h => ?query, fun s max configured h => ?step⟩
  case query =>
    refine ⟨_, step_query h, ?_⟩
    rw [← plain.classify_eq]
    exact answered_answerQuery op _ [] (callTargetReads_of_not_isCall call _)
  case step =>
    subst h
    exact stepInto_plain s max configured call ret

end Sys2Proof.Machine
end

section
/-! SUPPORT. The Step Controller without its contracts, and what a step does to the call stack (47_step_controller.md R284,
R297; 60_exceptions.md R323). -/

namespace Sys2Proof.Machine

/-! ## The unconfigured controller -/

theorem stepOver_unconfigured (stp : Stepper) (max : BitVec 32) {s : State} (h : s.configured = false) :
    stepOver stp max s = (configError, s) := by
  simp [stepOver, h]

theorem stepOut_unconfigured (stp : Stepper) (max : BitVec 32) {s : State} (h : s.configured = false) :
    stepOut stp max s = (configError, s) := by
  simp [stepOut, h]

/-- Settles O48: the configuration check comes first in all three commands, so that each delivers the configuration error
and the state as it was. -/
theorem unconfiguredFails : Obligations.UnconfiguredFails := by
  intro s i hi h
  have hc : s.configured = false := (configured_eq_false s).mpr h
  refine ⟨configError, ?_, rfl, rfl, rfl, rfl, rfl, rfl⟩
  obtain ⟨max, rfl | rfl | rfl⟩ := hi
  case inl => exact congrArg deliver (stepInto_unconfigured _ hc)
  case inr.inl => exact congrArg deliver (stepOver_unconfigured _ max hc)
  case inr.inr => exact congrArg deliver (stepOut_unconfigured _ max hc)

/-! ## The call stack over one step -/

/-- A step leaves the call stack alone, unless its request is a step command: then it leaves the call stack that some number
of StepIntos leave. The StepIntos start with the request still pending, which they do not read. -/
theorem step_callStack {s t : State} (h : step s = .next t) :
    t.callStack = s.callStack ∨
      ∃ w k, s.inbox.head? = some (.scmd w) ∧ t.callStack = (stepIntos Config.stepper k s).callStack := by
  obtain ⟨-, rfl⟩ | ⟨r, rest, hr, done | ⟨i, u, run, hexec⟩⟩ := step_next h
  · exact .inl rfl
  · exact .inl (take_done done).1
  · obtain ⟨noStep, -, ofStep⟩ := writeSet.1 i u t hexec
    by_cases hi : IsStep i
    · obtain ⟨w, rfl⟩ := take_scmd_run run hi
      obtain ⟨-, k, -, hk⟩ := ofStep hi
      obtain rfl := take_scmd run
      rw [stepIntos_inbox] at hk
      exact .inr ⟨w, k, by rw [hr]; rfl, hk⟩
    · obtain ⟨-, -, exec_keeps, -⟩ := noStep hi
      exact .inl (exec_keeps.trans (take_run run).2)

/-- Settles O60: a step that leaves the call stack alone leaves what zero StepIntos leave, and reset empties it. -/
theorem onlyStepIntoChangesTheCallStack : Obligations.OnlyStepIntoChangesTheCallStack := by
  refine ⟨fun s t h => ?step, rfl⟩
  obtain keeps | ⟨w, k, scmd, hk⟩ := step_callStack h
  · exact ⟨fun _ => keeps, 0, keeps⟩
  · exact ⟨fun noScmd => absurd scmd (noScmd w), k, hk⟩

end Sys2Proof.Machine
end

section
/-! SUPPORT. The encoder and the decoder undo each other, reserved codes are refused, and a placed table word is what
the next step runs (30_encoding.md R90 to R101). -/

namespace Sys2Proof.Machine

/-! ## Decoding what the encoder lays out -/

/-- Settles O1: for each instruction the law of its format, the operation code or the opcode byte being the one that
selects it. -/
theorem decodeEncode : Obligations.DecodeEncode := by
  intro i
  cases i
  case and low high | eor low high | ora low high | adc low high | sbc low high | cmp low high | cpx low high
      | cpy low high | bit low high | lda low high | ldx low high | ldy low high | sta low high | stx low high
      | sty low high | stz low high | asl low high | rol low high | lsr low high | ror low high | inc low high
      | dec low high | tsb low high | trb low high =>
    exact decodeXcmd_append _ low high
  case stepInto max | stepOver max | stepOut max => simp [encode, scmdWord, decode, decodeScmd]
  case jsrAbs v | jsrAbsX v | jmpAbs v | jmpInd v | jmpIndX v | jmlInd v | brlRel16 v =>
    exact decode_absWord (fun _ => rfl) v
  case jslLong v | jmlLong v => exact decode_longWord (fun _ => rfl) v
  case bplRel | bmiRel | bvcRel | bvsRel | bccRel | bcsRel | bneRel | beqRel | braRel | rts | rtl | rti => rfl

/-! ## Encoding what the decoder read -/

theorem encode_of_decodeXcmd {w : BitVec 69} {i : Instr} (h : decodeXcmd w = .ok i) : encode i = .xcmd w := by
  unfold decodeXcmd at h
  split at h
  case h_1 op hop =>
    cases h
    rw [encode_toInstr, code_of_ofCode hop, ← xcmd_eq_append]
  case h_2 => cases h

/-- A step command laid out from its fields is the word they were read from (R94). -/
theorem scmdWord_of_fields {w : BitVec 34} {cmd : BitVec 2} (h : (scmdCmd w).toNat = cmd.toNat) :
    scmdWord cmd (scmdMax w) = .scmd w := by
  rw [scmdWord, ← BitVec.eq_of_toNat_eq h, ← scmd_eq_append]

theorem encode_of_decodeScmd {w : BitVec 34} {i : Instr} (h : decodeScmd w = .ok i) : encode i = .scmd w := by
  unfold decodeScmd at h
  split at h
  case h_1 hcmd | h_2 hcmd | h_3 hcmd =>
    cases h
    exact scmdWord_of_fields hcmd
  case h_4 => cases h

/-- The encoding of `i` stands at the front of `bytes`. -/
def EncodedAtFront (i : Instr) (bytes : List Byte) : Prop := ∃ front, encode i = .opc8 front ∧ front <+: bytes

section
variable {op : Byte} {k : Nat} {operands : List Byte} {i : Instr} (hop : op.toNat = k)
include hop

/-- A format with no operand (R95). -/
theorem encodedAtFront_of_imp (enc : encode i = impWord (BitVec.ofNat 8 k)) : EncodedAtFront i (op :: operands) := by
  subst hop
  rw [BitVec.ofNat_toNat, BitVec.setWidth_eq] at enc
  exact ⟨_, enc, operands, rfl⟩

/-- A format with one operand byte (R95). -/
theorem encodedAtFront_of_operand8 {mk : BitVec 8 → Instr} (enc : ∀ v, encode (mk v) = rel8Word (BitVec.ofNat 8 k) v)
    (h : operand8 mk operands = .ok i) : EncodedAtFront i (op :: operands) := by
  subst hop
  unfold operand8 at h
  split at h
  case h_1 disp rest =>
    cases h
    refine ⟨[op, disp], ?_, rest, rfl⟩
    rw [enc, rel8Word, BitVec.ofNat_toNat, BitVec.setWidth_eq]
  case h_2 => cases h

/-- A format with two operand bytes, low byte first (R95). -/
theorem encodedAtFront_of_operand16 {mk : BitVec 16 → Instr} (enc : ∀ v, encode (mk v) = absWord (BitVec.ofNat 8 k) v)
    (h : operand16 mk operands = .ok i) : EncodedAtFront i (op :: operands) := by
  subst hop
  unfold operand16 at h
  split at h
  case h_1 lo hi rest =>
    cases h
    obtain ⟨elo, ehi⟩ := operandBytes16 lo hi
    refine ⟨[op, lo, hi], ?_, rest, rfl⟩
    rw [enc, absWord, BitVec.ofNat_toNat, BitVec.setWidth_eq, elo, ehi]
  case h_2 => cases h

/-- A format with three operand bytes, lowest first (R95). -/
theorem encodedAtFront_of_operand24 {mk : BitVec 24 → Instr} (enc : ∀ v, encode (mk v) = longWord (BitVec.ofNat 8 k) v)
    (h : operand24 mk operands = .ok i) : EncodedAtFront i (op :: operands) := by
  subst hop
  unfold operand24 at h
  split at h
  case h_1 lo hi bank rest =>
    cases h
    obtain ⟨elo, ehi, ebank⟩ := operandBytes24 lo hi bank
    refine ⟨[op, lo, hi, bank], ?_, rest, rfl⟩
    rw [enc, longWord, BitVec.ofNat_toNat, BitVec.setWidth_eq, elo, ehi, ebank]
  case h_2 => cases h

end

/-- The cases are those of `decodeOpcode`, in its order. -/
theorem encodedAtFront_of_decodeOpcode {op : Byte} {operands : List Byte} {i : Instr}
    (h : decodeOpcode op operands = .ok i) : EncodedAtFront i (op :: operands) := by
  unfold decodeOpcode at h
  split at h
  case h_1 hop | h_3 hop | h_15 hop | h_17 hop | h_18 hop | h_19 hop | h_21 hop =>
    exact encodedAtFront_of_operand16 hop (fun _ => rfl) h
  case h_2 hop | h_16 hop => exact encodedAtFront_of_operand24 hop (fun _ => rfl) h
  case h_4 hop | h_5 hop | h_6 hop =>
    cases h
    exact encodedAtFront_of_imp hop rfl
  case h_7 hop | h_8 hop | h_9 hop | h_10 hop | h_11 hop | h_12 hop | h_13 hop | h_14 hop | h_20 hop =>
    exact encodedAtFront_of_operand8 hop (fun _ => rfl) h
  case h_22 => cases h

/-- Settles O2: a command word is its fields, and the code that selected the operation is that operation's code; the
bytes of a 65816 instruction are its opcode and its operand's bytes. -/
theorem encodeDecode : Obligations.EncodeDecode := by
  refine ⟨fun w i => encode_of_decodeXcmd, fun w i => encode_of_decodeScmd, fun bytes i h => ?opc8⟩
  case opc8 =>
    cases bytes with
    | nil => cases h
    | cons op operands => exact encodedAtFront_of_decodeOpcode h

/-- Settles O3: each of the words is closed, so the decoder computes. -/
theorem writtenOutWordsDecode : Obligations.WrittenOutWordsDecode := by
  unfold Obligations.WrittenOutWordsDecode
  decide

/-! ## Reserved codes -/

theorem step_of_take_stop {s : State} {r : Request} {rest : List Request} {e : Refusal} (h : s.inbox = r :: rest)
    (ht : take r { s with inbox := rest } = .stop e) : step s = .refused e := by
  simp only [step_cons h, ht]

theorem fetchCommand_of_error {c : CommandWord} {e : DecodeError} (h : decode c = .error e) (s : State) :
    fetchCommand c s = .stop (.reservedCode e) := by
  simp only [fetchCommand, h]

theorem decode_xcmd_reserved {w : BitVec 69} (h : 0x18 ≤ (xcmdOp w).toNat) :
    decode (.xcmd w) = .error (.reservedXcmd (xcmdOp w)) := by
  simp only [decode, decodeXcmd, (ofCode_eq_none _).mpr h]

theorem decode_scmd_reserved {w : BitVec 34} (h : scmdCmd w = 3#2) : decode (.scmd w) = .error .reservedScmd := by
  rw [decode, decodeScmd, h]
  rfl

/-- Settles O4: a reserved code decodes to its error, which is what taking the word stops with; a query is always
answered. -/
theorem reservedCodesAreRefused : Obligations.ReservedCodesAreRefused := by
  refine ⟨fun s w rest h hop => ?xcmd, fun s w rest h hcmd => ?scmd, fun s pc op rest h => ?query⟩
  case xcmd => exact step_of_take_stop h (fetchCommand_of_error (decode_xcmd_reserved hop) _)
  case scmd => exact step_of_take_stop h (fetchCommand_of_error (decode_scmd_reserved hcmd) _)
  case query => exact ⟨_, step_query h, answerQuery_env _ _, answerQuery_callStack _ _⟩

/-! ## A placed table word -/

theorem placeTableWord_opc8 {nbits : Nat} (h : nbits ≤ 32) (w : Nat) (s : State) :
    placeTableWord nbits w s =
      { s with
        env := { s.env with mem := placeBytes s.env.mem (placePc s).toNat (bytesOfTableWord w) }
        inbox := .query (placePc s) (BitVec.ofNat 8 w) :: s.inbox } := by
  rw [placeTableWord, if_pos h]

theorem placeTableWord_scmd {nbits : Nat} (h : 32 < nbits) (h' : nbits ≤ 40) (w : Nat) (s : State) :
    placeTableWord nbits w s = { s with inbox := .scmd (BitVec.ofNat 34 w) :: s.inbox } := by
  rw [placeTableWord, if_neg (by omega), if_pos h']

theorem placeTableWord_xcmd {nbits : Nat} (h : 40 < nbits) (w : Nat) (s : State) :
    placeTableWord nbits w s = { s with inbox := .xcmd (BitVec.ofNat 69 w) :: s.inbox } := by
  rw [placeTableWord, if_neg (by omega), if_neg (by omega)]

/-- The three ways a table word is decoded, by its length (log 26). -/
theorem decodeTableWord_cases {nbits w : Nat} {i : Instr} (h : decodeTableWord nbits w = some i) :
    (nbits ≤ 32 ∧ decode (.opc8 (bytesOfTableWord w)) = .ok i) ∨
    (32 < nbits ∧ nbits ≤ 40 ∧ decode (.scmd (BitVec.ofNat 34 w)) = .ok i) ∨
    (40 < nbits ∧ decode (.xcmd (BitVec.ofNat 69 w)) = .ok i) := by
  have ok {r : Except DecodeError Instr} (hr : r.toOption = some i) : r = .ok i := by
    cases r
    case error => cases hr
    case ok => cases hr; rfl
  unfold decodeTableWord commandOfTableWord at h
  split at h
  case h_2 => cases h
  case h_1 c hc =>
    split at hc
    · split at hc <;> cases hc
      exact .inl ⟨‹_›, ok h⟩
    · split at hc
      · split at hc <;> cases hc
        exact .inr (.inl ⟨by omega, ‹_›, ok h⟩)
      · split at hc <;> cases hc
        exact .inr (.inr ⟨by omega, ok h⟩)

/-- The bytes a query finds at the place where an instruction was placed are the instruction's (log 14, log 21). -/
theorem queryBytes_placed {s t : State} (h : memWf s.env.mem) (b0 b1 b2 b3 : Byte)
    (ht : t.env.mem = placeBytes s.env.mem (placePc s).toNat [b0, b1, b2, b3]) :
    queryBytes (placePc s) b0 t = [b0, b1, b2, b3] := by
  have space : (placePc s).toNat + 4 ≤ 16777216 := placePc_le s
  obtain ⟨byte1, byte2, byte3⟩ := placeBytes4 h space b0 b1 b2 b3
  have read {k : Addr} {b : Byte} (hk : k.toNat ≤ 3)
      (hb : memRead (placeBytes s.env.mem (placePc s).toNat [b0, b1, b2, b3]) ((placePc s).toNat + k.toNat) = b) :
      t.reader (placePc s + k) = b := by
    have sum : (placePc s + k).toNat = (placePc s).toNat + k.toNat := by
      rw [BitVec.toNat_add]
      omega
    have inSpace : (placePc s + k).toNat < 16777216 := by omega
    rw [← hb, ← sum, ← ht]
    exact reader_of_combined inSpace
  rw [queryBytes, read (k := 1) (by decide) byte1, read (k := 2) (by decide) byte2, read (k := 3) (by decide) byte3]

/-- Settles O6: by the word's length. A command word goes to the head of the inbox, and removing it gives the state
back; the bytes of a 65816 instruction are those that the query about it finds. -/
theorem placedWordRunsNext : Obligations.PlacedWordRunsNext := by
  intro s nbits w i inv hd
  obtain ⟨hmem, -⟩ := inv
  rw [State.withFetchWord]
  rcases decodeTableWord_cases hd with ⟨hn, h⟩ | ⟨hn, hn', h⟩ | ⟨hn, h⟩
  · rw [placeTableWord_opc8 hn]
    refine ⟨_, step_of_take_run rfl (fetchQuery_of_decode ?_), rfl, rfl, rfl, rfl, fun hlt => by omega⟩
    rw [queryBytes_placed hmem _ _ _ _ rfl]
    exact h
  · rw [placeTableWord_scmd hn hn']
    exact ⟨s, step_of_take_run rfl (fetchCommand_of_decode h _), rfl, rfl, rfl, rfl, fun _ => rfl⟩
  · rw [placeTableWord_xcmd hn]
    exact ⟨s, step_of_take_run rfl (fetchCommand_of_decode h _), rfl, rfl, rfl, rfl, fun _ => rfl⟩

end Sys2Proof.Machine
end

section
/-! SUPPORT. ADC and SBC on valid BCD at either width, and the shifts and rotates as laws on the carry above the
operand (42_arithmetic.md R162; 45_rmw.md R208). -/

namespace Sys2Proof.Machine

/-! ## Decimal mode on valid BCD -/

/-- Decimal ADC at either width: what the last correction leaves is the decimal sum, and its carry is the decimal one
(R162). -/
theorem adc_law {w : Width} {a m c : Nat} (hc : c ≤ 1) (va : ValidBcd (digits w) a) (vm : ValidBcd (digits w) m) :
    let last := digits w - 1
    let r := stages adcFix a m c last
    let sum := ofBcd (digits w) a + ofBcd (digits w) m + c
    ∃ N : Nat, (if 10 * 16 ^ last ≤ r then r + 6 * 16 ^ last else r) = N ∧
      N % 2 ^ w.bits = toBcd (digits w) (sum % 10 ^ digits w) ∧ (2 ^ w.bits ≤ N ↔ 10 ^ digits w ≤ sum) := by
  cases w
  case w8 => exact adc_law8 a m c hc va vm
  case w16 => exact adc_law16 a m c hc va vm

/-- Decimal SBC at either width: what the last correction leaves is the decimal difference, and its carry is "no
borrow" (R162). -/
theorem sbc_law {w : Width} {a m c : Nat} (hm : m < 2 ^ w.bits) (hc : c ≤ 1) (va : ValidBcd (digits w) a)
    (vm : ValidBcd (digits w) m) :
    let last := digits w - 1
    let diff : Int := (ofBcd (digits w) a : Int) - ofBcd (digits w) m - (1 - c)
    ∃ N : Nat, sbcFix last (stages sbcFix a (2 ^ w.bits - 1 - m) c last) = N ∧
      N % 2 ^ w.bits = toBcd (digits w) (diff % 10 ^ digits w).toNat ∧ (2 ^ w.bits ≤ N ↔ 0 ≤ diff) := by
  cases w
  case w8 => exact sbc_law8 a m c hm hc va vm
  case w16 => exact sbc_law16 a m c hm hc va vm

/-- The result and the carry of an accumulation whose final value is a natural number. -/
theorem Accumulates.of_final_eq {a v N : Nat} {r final : Int} {low high : Addr} {s t : State}
    (h : Accumulates a v r final low high s t) (hN : final = N) :
    lowBits (s.width .m) t.env.regs.a = N % 2 ^ (s.width .m).bits ∧
      (t.flag .c = true ↔ 2 ^ (s.width .m).bits ≤ N) ∧ t.ZNFrom (s.width .m) t.env.regs.a ∧
      (t.flag .v = true ↔ Overflows (s.width .m) a v r) := by
  subst hN
  obtain ⟨result, -, carry, overflow, zn, -⟩ := h
  exact ⟨mod_cast result, mod_cast carry, zn, overflow⟩

/-- Settles O13: in decimal mode the accumulation is by nibble groups, and on valid BCD its final value is the decimal
sum, or difference, with the decimal carry above it. -/
theorem decimalLaws : Obligations.DecimalLaws := by
  intro s low high ok hd w n a m c va vm
  have hm : m < 2 ^ w.bits := s.operand_lt _ low high
  have hc : c ≤ 1 := Bool.toNat_le _
  refine ⟨?adc, ?sbc⟩
  case adc =>
    obtain ⟨-, accumulation⟩ := adcAccumulation
    obtain ⟨t, next, acc⟩ := accumulation s low high ok
    obtain ⟨N, hN, result, carry⟩ := adc_law hc va vm
    simp only [hd, if_true, true_and] at acc
    obtain ⟨result', carry', zn, overflow⟩ := acc.of_final_eq hN
    exact ⟨t, next, result'.trans result, carry'.trans carry, zn, overflow⟩
  case sbc =>
    obtain ⟨-, accumulation⟩ := sbcAccumulation
    obtain ⟨t, next, acc⟩ := accumulation s low high ok
    obtain ⟨N, hN, result, carry⟩ := sbc_law hm hc va vm
    simp only [hd, if_true] at acc
    obtain ⟨result', carry', zn, overflow⟩ := acc.of_final_eq hN
    exact ⟨t, next, result'.trans result, carry'.trans carry, zn, overflow⟩

/-! ## Shifts and rotates lose no bit -/

/-- Shifting left with `c` put in at the right: the bit that leaves, above the result. -/
theorem shiftLeft_carryAbove {w : Width} {m c : Nat} (hm : m < 2 ^ w.bits) (hc : c ≤ 1) :
    (if 2 ^ (w.bits - 1) ≤ m then 1 else 0) * 2 ^ w.bits + (2 * m + c) % 2 ^ w.bits = 2 * m + c := by
  by_cases h : 2 ^ (w.bits - 1) ≤ m
  · rw [if_pos h]
    cases w <;> simp only [Width.bits] at * <;> omega
  · rw [if_neg h]
    cases w <;> simp only [Width.bits] at * <;> omega

/-- Shifting right with `c` put in at the left: the operand below `c` is twice the result and the bit that leaves. -/
theorem shiftRight_carryAbove {w : Width} {m c : Nat} (hm : m < 2 ^ w.bits) (hc : c ≤ 1) :
    c * 2 ^ w.bits + m = 2 * ((m / 2 + c * 2 ^ (w.bits - 1)) % 2 ^ w.bits) + (if m % 2 = 1 then 1 else 0) := by
  have leaves : (if m % 2 = 1 then 1 else 0) = m % 2 := by split <;> omega
  rw [leaves]
  cases w <;> simp only [Width.bits] at * <;> omega

theorem toNat_of_iff {b : Bool} {p : Prop} [Decidable p] (h : b = true ↔ p) : b.toNat = if p then 1 else 0 := by
  cases b <;> simp [← h]

/-- Twice `{P.C, m}` in `W + 1` bits has lost the carry (R208). -/
theorem two_mul_carryAbove_mod (s : State) (w : Width) (low high : Addr) :
    2 * s.carryAbove w low high % 2 ^ (w.bits + 1) = 2 * (s.operand w low high).toNat := by
  have hm := s.operand_lt w low high
  rw [State.carryAbove, Nat.pow_succ', Nat.mul_mod_mul_left, Nat.mul_add_mod_self_right, Nat.mod_eq_of_lt hm]

/-- The operand after a read-modify-write command, as a number. -/
theorem operand_of_rmwFrame {low high : Addr} {n : Nat} {flags : List Flag} {s t : State}
    (h : RmwFrame low high (BitVec.ofNat 16 n) flags s t) :
    (t.operand (s.width .m) low high).toNat = n % 2 ^ (s.width .m).bits := by
  obtain ⟨-, -, stores, -⟩ := h
  rw [State.operand_of_storesOnly stores, lowBits_ofNat]

theorem width_of_rmwFrame {low high : Addr} {v : Word} {flags : List Flag} {s t : State}
    (h : RmwFrame low high v flags s t) (hm : Flag.m ∉ flags) : t.width .m = s.width .m := by
  obtain ⟨-, keepsFlags, -⟩ := h
  exact width_of_keepsFlags keepsFlags hm

section
variable {s : State} {low high : Addr} (inv : s.Inv) (ok : AddressesOk (s.width .m) low high)
include inv ok

/-- ROL makes `{P.C, m}` equal to `2m + C` (R208). -/
theorem exec_rol_carryAbove :
    ∃ t, exec (.rol low high) s = .next t ∧ t.width .m = s.width .m ∧
      t.carryAbove (s.width .m) low high = 2 * (s.operand (s.width .m) low high).toNat + (s.flag .c).toNat := by
  obtain ⟨-, -, rotate⟩ := rotateResult
  obtain ⟨⟨t, runs, carry, -, frame⟩, -⟩ := rotate s low high inv ok
  refine ⟨t, runs, width_of_rmwFrame frame (by decide), ?_⟩
  rw [State.carryAbove, toNat_of_iff carry, operand_of_rmwFrame frame, Nat.mod_mod]
  exact shiftLeft_carryAbove (s.operand_lt _ low high) (Bool.toNat_le _)

/-- ROR halves `{P.C, m}`, and the bit that leaves is the new carry (R208). -/
theorem exec_ror_carryAbove :
    ∃ t, exec (.ror low high) s = .next t ∧
      s.carryAbove (s.width .m) low high = 2 * (t.operand (s.width .m) low high).toNat + (t.flag .c).toNat := by
  obtain ⟨-, -, rotate⟩ := rotateResult
  obtain ⟨-, t, runs, carry, -, -, frame⟩ := rotate s low high inv ok
  refine ⟨t, runs, ?_⟩
  rw [State.carryAbove, toNat_of_iff carry, operand_of_rmwFrame frame]
  exact shiftRight_carryAbove (s.operand_lt _ low high) (Bool.toNat_le _)

end

/-- Settles O20: a shift is a rotate with 0 put in; and both sides of the ROR after a ROL are `2m + C`, from which `m`
and `C` can be told. -/
theorem shiftRotateLaws : Obligations.ShiftRotateLaws := by
  intro s low high inv ok
  dsimp only
  have hm := s.operand_lt (s.width .m) low high
  obtain ⟨-, -, shift⟩ := shiftResult
  obtain ⟨⟨asl, runsAsl, carryAsl, -, frameAsl⟩, lsr, runsLsr, carryLsr, -, -, frameLsr⟩ := shift s low high inv ok
  refine ⟨⟨asl, runsAsl, ?asl⟩, ⟨lsr, runsLsr, ?lsr⟩, ?rol, ?ror⟩
  case asl =>
    rw [State.carryAbove, toNat_of_iff carryAsl, operand_of_rmwFrame frameAsl, Nat.mod_mod]
    exact shiftLeft_carryAbove (c := 0) hm (by decide)
  case lsr =>
    rw [toNat_of_iff carryLsr, operand_of_rmwFrame frameLsr]
    simpa using shiftRight_carryAbove (c := 0) hm (by decide)
  case rol =>
    obtain ⟨t, runsRol, width, above⟩ := exec_rol_carryAbove inv ok
    obtain ⟨u, runsRor, back⟩ := exec_ror_carryAbove (inv_exec inv runsRol) (width ▸ ok)
    refine ⟨t, runsRol, above.trans (by rw [two_mul_carryAbove_mod]), u, runsRor, ?_⟩
    rw [width, above] at back
    have hc := Bool.toNat_le (s.flag .c)
    have hc' := Bool.toNat_le (u.flag .c)
    have operand : (u.operand (s.width .m) low high).toNat = (s.operand (s.width .m) low high).toNat := by omega
    have carry : (u.flag .c).toNat = (s.flag .c).toNat := by omega
    rw [State.carryAbove, State.carryAbove, operand, carry]
  case ror =>
    obtain ⟨t, runs, below⟩ := exec_ror_carryAbove inv ok
    exact ⟨t, runs, below.trans (by rw [two_mul_carryAbove_mod])⟩

end Sys2Proof.Machine
end

section
/-! SUPPORT. The launch premises, the malformed pairs, the observations that nothing reads, and memory as `Reader` and
the two orders of a word store show it (10_state.md R32, R39; 20_memory.md R63 to R80). -/

namespace Sys2Proof.Machine

/-! ## The launch premises (10_state.md R32) -/

/-- Settles O25: an executor operation keeps the premises, and a query writes no register. -/
theorem launchPremisesKept : Obligations.LaunchPremisesKept := by
  intro i s t hi h hx
  obtain ⟨op, low, high, -, rfl⟩ | ⟨op, rfl⟩ := exec_next_of_not_isStep hi hx
  · exact launch_opEffect op _ _ h
  · exact h

/-- StepInto changes the environment by its Stepper's call alone, which keeps the premises. -/
theorem launch_stepInto {stp : Stepper} (hstp : KeepsLaunch stp) (s : State) (h : s.env.regs.LaunchOk) :
    (stepInto stp s).2.env.regs.LaunchOk := by
  rw [stepInto_env]
  split
  · exact hstp s.freeCount s.env h
  · exact h

/-- Settles O26: the premises are an invariant of StepInto and speak of no contract call, so the loops keep them. -/
theorem stepCommandsKeepLaunchPremises : Obligations.StepCommandsKeepLaunchPremises := by
  intro stp max s hstp h
  have step := launch_stepInto hstp
  exact ⟨step s h, stepOver_keeps (P := fun t => t.env.regs.LaunchOk) stp max step (fun _ _ ht => ht) h,
    stepOut_keeps (P := fun t => t.env.regs.LaunchOk) stp max step (fun _ _ ht => ht) h⟩

/-! ## Malformed pairs (20_memory.md R71) -/

theorem exec_malformed {op : ExecOp} {low high : Addr} {s : State} (bad : ¬AddressesOk (s.width (gateOf op)) low high) :
    exec (op.toInstr low high) s = .refused .malformedAddress := by
  rw [exec_toInstr, runCommand_malformed _ bad]

/-- `low` is consulted at both widths (40_regfile_flags.md R131). -/
theorem low_lt_of_addressesOk {w : Width} {low high : Addr} (ok : AddressesOk w low high) : low.toNat < 16777216 := by
  cases w
  case w8 => exact ok
  case w16 => exact ok.1

/-- Settles O27: each of the cases contradicts that the pair is well formed at the command's width. -/
theorem malformedAddressesAreRefused : Obligations.MalformedAddressesAreRefused := by
  refine fun op s low high => ⟨fun hlow => exec_malformed fun ok => ?low, fun hw bad => exec_malformed fun ok => ?high⟩
  case low => exact absurd (low_lt_of_addressesOk ok) (by omega)
  case high =>
    rw [hw] at ok
    obtain ⟨-, hhigh, hne⟩ := ok
    exact bad.elim (by omega) hne

/-! ## The observations (10_state.md R39) -/

/-- What a command delivers that reads neither the trace nor the record of contract calls. -/
theorem Blind.deliver {f : State → StepResult × State} (hf : Blind f) (s : State) (tr : List BusEvent)
    (cs : List ContractCall) :
    let t := (f s).2.answer (.stepped (f s).1)
    ∃ newTr newCs, t.env.trace = s.env.trace ++ newTr ∧ t.calls = s.calls ++ newCs ∧
      Machine.deliver (f (s.setObserved tr cs)) = .next (t.setObserved (tr ++ newTr) (cs ++ newCs)) := by
  obtain ⟨newTr, newCs, trace, calls, observed⟩ := hf s tr cs
  exact ⟨newTr, newCs, trace, calls, by rw [observed]; rfl⟩

/-- Settles O31: an operation does not read the trace and makes no contract call; a query makes its `Reader` calls and
no bus call; and each step command reads neither. -/
theorem observationsAreNotRead : Obligations.ObservationsAreNotRead := by
  intro i s t tr cs h
  rcases exec_next h with ⟨op, low, high, rfl, ok, rfl⟩ | ⟨op, rfl, query⟩ | ⟨q, rfl, hq⟩
  · obtain ⟨new, trace, effect⟩ := opEffect_setTrace op ⟨low, high⟩ s.env tr
    have effect' : opEffect op ⟨low, high⟩ (s.setObserved tr cs).env =
        Env.setTrace (tr ++ new) (opEffect op ⟨low, high⟩ s.env) := effect
    have ok' : AddressesOk ((s.setObserved tr cs).width (gateOf op)) low high := ok
    refine ⟨new, [], trace, (List.append_nil _).symm, ?_⟩
    rw [exec_toInstr_ok ok', effect', List.append_nil]
    rfl
  · refine ⟨[], callTargetCalls s s.queryPc op, (List.append_nil _).symm, rfl, ?_⟩
    rw [query, List.append_nil]
    rfl
  · obtain ⟨max, rfl, rfl⟩ | ⟨max, rfl, rfl⟩ | ⟨max, rfl, rfl⟩ := hq
    · exact (blind_stepInto _).deliver s tr cs
    · exact (blind_stepOver _ max).deliver s tr cs
    · exact (blind_stepOut _ max).deliver s tr cs

/-! ## Memory -/

/-- Settles O34: both orders leave a canonical memory, and the same byte at every address. -/
theorem wordOrderUnobservable : Obligations.WordOrderUnobservable := by
  intro m low high v hm ok
  obtain ⟨hl, hh, hne⟩ := ok
  refine mem_ext (memWf_storeWord hm hl hh _ v) (memWf_storeWord hm hl hh _ v) fun a => ?_
  rw [memRead_storeWord hm hl hh hne, memRead_storeWord hm hl hh hne]

/-- The low byte of what is stored is at `low`, at either width (20_memory.md R64, R65). -/
theorem byte_low_of_storesOnly {w : Width} {low high : Addr} {v : Word} {s t : State} (h : StoresOnly w low high v s t) :
    t.byte low.toNat = v.extractLsb' 0 8 := by
  cases w
  case w8 => exact h.1
  case w16 => exact h.1

/-- The combined PC is two registers. -/
theorem pcGetter_congr {s t : State} (h : KeepsRegsBut [] s t) : t.pcGetter = s.pcGetter := by
  have pc : t.env.regs.pc = s.env.regs.pc := h .pc (by decide) (by decide)
  have pb : t.env.regs.pb = s.env.regs.pb := by
    have extended := congrArg BitVec.toNat (h .pb (by decide) (by decide))
    simp only [RegFile.read, BitVec.toNat_setWidth] at extended
    exact BitVec.eq_of_toNat_eq (by omega)
  rw [State.pcGetter, State.pcGetter, pcGetter, pcGetter, pc, pb]

/-- Settles O35: `low` is inside the space, so `Reader` gives the byte stored there; STA moves no PC, so the opcode at
`low` is that byte too. -/
theorem readerSeesStores : Obligations.ReaderSeesStores := by
  refine ⟨fun s a ha => reader_of_combined ha, fun s low high inv ok => ?_⟩
  obtain ⟨-, -, -, -, stores⟩ := storeResult
  obtain ⟨⟨t, runs, keepsRegs, -, stored, -⟩, -⟩ := (stores s low high inv).1 ok
  have byte := byte_low_of_storesOnly stored
  refine ⟨t, runs, (reader_of_combined (low_lt_of_addressesOk ok)).trans byte, fun hpc => ?_⟩
  rw [State.opcode, pcGetter_congr keepsRegs, hpc, byte]

end Sys2Proof.Machine
end

section
/-! SUPPORT. The classes of the opcode bytes, the two address calculations on a combined PC, the target of a query as
the operand the decoder read, and the state after reset (46_classifier.md R231 to R237; 70_reset_and_hazards.md R350).
-/

namespace Sys2Proof.Machine

/-! ## The classes (46_classifier.md R231 to R237) -/

theorem inBranchExtra_iff (op : Byte) : inBranchExtra op = true ↔
    (op = 0x80 ∧ Config.braIsBranch = true) ∨ (op = 0x82 ∧ Config.brlIsBranch = true) := by
  simp [inBranchExtra]

theorem isBranch_iff (op : Byte) : isBranch op = true ↔
    (isConditionalBranch op = true ∨ isJump op = true) ∨ inBranchExtra op = true := by
  simp [isBranch]

/-- No return is a branch (R237). -/
theorem isBranch_of_isReturn {op : Byte} (h : isReturn op = true) : isBranch op = false := by
  obtain ⟨-, -, branch, -⟩ := noCall_of_isReturn h
  exact branch

/-- Settles O45: the three predicates compare with the listed bytes, and none of the calls and returns is in another
list. -/
theorem classesAreDisjoint : Obligations.ClassesAreDisjoint := by
  intro op
  refine ⟨?calls, ?returns, ?branches, fun ⟨call, ret⟩ => ?_, fun ⟨call, branch⟩ => ?_, fun ⟨ret, branch⟩ => ?_⟩
  case calls => simp [isCall_iff]
  case returns => simp [isReturn_iff]
  case branches =>
    rw [isBranch_iff, isConditionalBranch_iff, isJump_iff, inBranchExtra_iff]
    simp [or_assoc]
  · simp [isReturn_of_isCall call] at ret
  · simp [isBranch_of_isCall call] at branch
  · simp [isBranch_of_isReturn ret] at branch

/-! ## The address calculations on a combined PC (46_classifier.md R235, R236) -/

/-- Settles O46: a combined PC is its bank and its offset as one number, and the calculations are known as numbers. -/
theorem callAddresses : Obligations.CallAddresses := by
  intro rd pb offset pc
  have hpc : pc.toNat = pb.toNat * 65536 + offset.toNat := combine_toNat pb.isLt offset.isLt
  have bank : pc.toNat / 65536 % 256 = pb.toNat := by omega
  refine ⟨fun op hop => ?short, ?long, ?target, calculateCallTarget_long rd pc, rfl, rfl, rfl, rfl⟩
  case short =>
    have wrap : (pc.toNat + 3) % 65536 = (offset.toNat + 3) % 65536 := by omega
    rw [calculateReturnAddress_short pc hop, bank, wrap]
  case long => rw [calculateReturnAddress_long, hpc]
  case target => rw [calculateCallTarget_short, bank]

/-! ## The target is the decoded operand (30_encoding.md R95, R96) -/

theorem fetch_of_query {s : State} {pc : Addr} {op : Byte} {rest : List Request} {i : Instr}
    (h : s.inbox = .query pc op :: rest)
    (hd : decode (.opc8 (queryBytes pc op { s with inbox := rest })) = .ok i) :
    fetch s = .run i { s with inbox := rest, queryPc := pc } := by
  rw [← fetchQuery_of_decode hd, fetch, h]
  rfl

/-- A query about a call answers with its target. -/
theorem step_query_callTarget {s : State} {pc : Addr} {op : Byte} {rest : List Request}
    (h : s.inbox = .query pc op :: rest) (call : isCall op = true) :
    ∃ t, step s = .next t ∧
      ∃ c, t.reply = some (.classified c) ∧ c.callTarget = some (calculateCallTarget s.reader pc op) := by
  refine ⟨_, step_query h, _, answerQuery_reply _ _, ?_⟩
  simp only [classify, call, if_true]
  rfl

/-- Settles O47: the decoder and the target calculation put the same bytes together, for JSR below the bank of the
call. -/
theorem targetIsTheDecodedOperand : Obligations.TargetIsTheDecodedOperand := by
  refine fun s pc rest => ⟨fun h => ?jsr, fun h => ?jsl⟩
  case jsr =>
    obtain ⟨t, runs, c, reply, target⟩ := step_query_callTarget h rfl
    refine ⟨s.reader (pc + 2) ++ s.reader (pc + 1), _, t, fetch_of_query h rfl, runs, c, reply, ?_⟩
    rw [target, calculateCallTarget_short, append2_toNat]
  case jsl =>
    obtain ⟨t, runs, c, reply, target⟩ := step_query_callTarget h rfl
    refine ⟨s.reader (pc + 3) ++ s.reader (pc + 2) ++ s.reader (pc + 1), _, t, fetch_of_query h rfl, runs, c, reply, ?_⟩
    rw [target, calculateCallTarget_long, append3_toNat]
    rfl

/-! ## Reset -/

/-- Settles O37: memory with nothing listed is in canonical form, and an empty call stack has no entry. -/
theorem invariantAtReset : Obligations.InvariantAtReset :=
  ⟨memWf_reset, fun _ h => absurd h List.not_mem_nil⟩

/-- Settles O38: these are fields of the state after reset. -/
theorem resetState : Obligations.ResetState :=
  ⟨rfl, rfl, rfl, rfl, rfl, rfl⟩

end Sys2Proof.Machine
end

section
/-! SUPPORT. STEPINTO in full, and the outcomes of STEPOVER and STEPOUT as runs of StepIntos (47_step_controller.md
R285 to R295; 60_exceptions.md R324). -/

namespace Sys2Proof.Machine

/-! ## The fields of a result -/

theorem isResult_succeed (newPc : Addr) (n : Nat) (call ret : Option CallStackEntry) :
    IsResult (succeed newPc n call ret) true newPc n .ok call ret :=
  ⟨rfl, rfl, rfl, rfl, rfl, rfl⟩

theorem isResult_fail (code : Status) (newPc : Addr) (n : Nat) (call : Option CallStackEntry) :
    IsResult (fail code newPc n call) false newPc n code call none :=
  ⟨rfl, rfl, rfl, rfl, rfl, rfl⟩

/-- Ending a command in `u` is ending it in `v`, if the two differ in the record of contract calls only. -/
theorem finishWith_of_forgetCalls {u v : State} (h : u.forgetCalls = v.forgetCalls) (result : Addr → StepResult) :
    (finishWith result u).1 = result v.pcGetter ∧ (finishWith result u).2.forgetCalls = v.forgetCalls :=
  ⟨congrArg result (pcGetter_of_forgetCalls h), h⟩

/-! ## StepInto (R285, R291) -/

theorem stackAfter_of_isCall {s : State} (h : isCall s.opcode = true) :
    stackAfter s = (s.callStack ++ [callEntry s s.pcGetter s.opcode], some (callEntry s s.pcGetter s.opcode), none) := by
  simp [stackAfter, h]

/-- A return with an empty call stack pops nothing and reports nothing. -/
theorem stackAfter_of_isReturn_of_nil {s : State} (h : isReturn s.opcode = true) (hs : s.callStack = []) :
    stackAfter s = ([], none, none) := by
  obtain ⟨call, -⟩ := noCall_of_isReturn h
  simp [stackAfter, call, State.depth, hs]

theorem stackAfter_of_plain {s : State} (hc : isCall s.opcode = false) (hr : isReturn s.opcode = false) :
    stackAfter s = (s.callStack, none, none) := by
  simp [stackAfter, hc, hr]

/-- Settles O49: the equation of a configured StepInto gives every field, and what it does to the call stack is said
once for each of the four kinds of opcode. -/
theorem stepIntoResult : Obligations.StepIntoResult := by
  intro s max configured pc op entry
  refine ⟨_, _, rfl, rfl, keepsSettings_of_same (sameSettings_stepInto _ s) _, ?_⟩
  rw [stepInto_eq _ ((configured_iff s).mpr configured)]
  refine ⟨rfl, rfl, fun call => ?call, fun below top ret hs => ?pop, fun ret hs => ?emptyStack, fun hc hr => ?plain⟩
  case call => rw [stackAfter_of_isCall call]; exact ⟨isResult_succeed _ _ _ _, rfl⟩
  case pop => rw [stackAfter_of_isReturn ret hs]; exact ⟨isResult_succeed _ _ _ _, rfl⟩
  case emptyStack => rw [stackAfter_of_isReturn_of_nil ret hs]; exact ⟨isResult_succeed _ _ _ _, rfl⟩
  case plain => rw [stackAfter_of_plain hc hr]; exact ⟨isResult_succeed _ _ _ _, rfl⟩

/-- Settles O50: the depth is the length of the call stack that the step leaves. -/
theorem stepIntoDepthChange : Obligations.StepIntoDepthChange :=
  fun stp s configured => depth_stepInto stp ((configured_iff s).mpr configured)

/-! ## StepOver (R287, R293, R295) -/

/-- Settles O51: the loop ends at the first return to the depth before the call, or at the budget, and the state it
ends in is the one the result speaks of. -/
theorem stepOverOutcomes : Obligations.StepOverOutcomes := by
  intro s max configured call
  refine ⟨_, _, rfl, rfl, keepsSettings_of_same (same_stepOver max s) _, ?_⟩
  obtain ⟨n, e, two, within, back, ends⟩ | ⟨n, rfl, above, ends⟩ :=
    stepOver_call_cases Config.stepper max ((configured_iff s).mpr configured) call
  · rw [ends]
    exact .inl ⟨n, e, two, within, back, isResult_succeed _ _ _ _⟩
  · rw [ends]
    exact .inr ⟨above, isResult_fail _ _ _ _⟩

/-- Contract calls recorded before the steps change nothing but the record. -/
theorem stepIntos_logCalls (stp : Stepper) (cs : List ContractCall) (s : State) (k : Nat) :
    (stepIntos stp k (s.logCalls cs)).forgetCalls = (stepIntos stp k s).forgetCalls :=
  stepIntos_forgetCalls stp (State.forgetCalls_logCalls cs s) k

theorem depth_stepInto_of_isCall (stp : Stepper) {s : State} (h : s.configured = true) (call : isCall s.opcode = true) :
    (stepInto stp s).2.depth = s.depth + 1 := by
  rw [depth_stepInto stp h, if_pos call]

section
variable (stp : Stepper) (max : BitVec 32) {s : State} (configured : s.configured = true) (call : isCall s.opcode = true)
  {n : Nat} (one : 1 ≤ n) (above : ∀ k, 1 ≤ k → k < n → s.depth < (stepIntos stp k s).depth)
include configured call one above

/-- StepOver on a call succeeds at the first step after which the depth is back, if the budget reaches it. The loop
runs from the call's StepInto, whose start differs from `s` in the record of contract calls. -/
theorem stepOver_call_success (within : n ≤ Max.max max.toNat 1) (back : (stepIntos stp n s).depth ≤ s.depth) :
    let u := stepIntos stp n s
    (stepOver stp max s).1 = succeed u.pcGetter n (some (callEntry s s.pcGetter s.opcode))
        (stepInto stp (stepIntos stp (n - 1) s)).1.ret ∧
      (stepOver stp max s).2.forgetCalls = u.forgetCalls := by
  obtain ⟨j, rfl⟩ : ∃ j, n = j + 1 := ⟨n - 1, by omega⟩
  have same := stepIntos_logCalls stp [.pcGetter s.pcGetter, .reader s.pcGetter s.opcode] s
  rw [stepOver_call stp max configured call]
  dsimp only
  cases j with
  | zero =>
    have deeper := depth_stepInto_of_isCall stp configured call
    rw [Nat.zero_add, stepIntos_succ, stepIntos_zero] at back
    omega
  | succ j =>
    rw [stepOverLoop_success stp s.depth _ (j := j + 1) 1 none _ (by omega) ?above ?back, Nat.add_comm 1]
    case above =>
      intro k hk
      rw [← stepIntos_succ, depth_of_forgetCalls (same (k + 1))]
      exact above (k + 1) (by omega) (by omega)
    case back => rwa [← stepIntos_succ, depth_of_forgetCalls (same (j + 1 + 1))]
    have last := (stepInto_forgetCalls stp (same (j + 1))).1
    simp only [lastRet, ← stepIntos_succ, last]
    exact finishWith_of_forgetCalls (same (j + 1 + 1)) _

/-- StepOver on a call times out when the depth is never back up to the budget. -/
theorem stepOver_call_timeout (budget : n = Max.max max.toNat 1) (still : s.depth < (stepIntos stp n s).depth) :
    let u := stepIntos stp n s
    (stepOver stp max s).1 = fail .errTimeout u.pcGetter n (some (callEntry s s.pcGetter s.opcode)) ∧
      (stepOver stp max s).2.forgetCalls = u.forgetCalls := by
  obtain ⟨j, rfl⟩ : ∃ j, n = j + 1 := ⟨n - 1, by omega⟩
  have left : max.toNat - 1 = j := by omega
  have same := stepIntos_logCalls stp [.pcGetter s.pcGetter, .reader s.pcGetter s.opcode] s
  rw [stepOver_call stp max configured call, left]
  dsimp only
  rw [stepOverLoop_timeout stp s.depth _ 1 none _ ?above, Nat.add_comm 1, ← stepIntos_succ]
  case above =>
    intro k hk
    rw [← stepIntos_succ, depth_of_forgetCalls (same (k + 1))]
    obtain hlt | rfl : k < j ∨ k = j := by omega
    · exact above (k + 1) (by omega) (by omega)
    · exact still
  exact finishWith_of_forgetCalls (same (j + 1)) _

end

/-- Settles O52: by the three branches of StepOver; on a call, by where the loop stops. -/
theorem stepOverReplaysStepInto : Obligations.StepOverReplaysStepInto := by
  refine ⟨fun max s => rfl, fun stp max s => ⟨fun h => ?unconfigured, fun h noCall => ?noCall, ?call⟩⟩
  case unconfigured =>
    rw [stepOver_unconfigured stp max ((configured_eq_false s).mpr h)]
    exact ⟨isResult_fail _ _ _ _, rfl⟩
  case noCall =>
    rw [stepOver_noCall stp max ((configured_iff s).mpr h) noCall]
    exact stepInto_forgetCalls stp rfl
  case call =>
    intro n h call one within above
    have configured := (configured_iff s).mpr h
    refine ⟨fun back => ?_, fun still budget => ?_⟩
    · obtain ⟨result, state⟩ := stepOver_call_success stp max configured call one above within back
      exact ⟨result ▸ isResult_succeed _ _ _ _, state⟩
    · obtain ⟨result, state⟩ := stepOver_call_timeout stp max configured call one above budget still
      exact ⟨result ▸ isResult_fail _ _ _ _, state⟩

/-! ## StepOut (R289, R290, R293, R295) -/

theorem stepOut_of_nil (stp : Stepper) (max : BitVec 32) {s : State} (h : s.configured = true) (hs : s.callStack = []) :
    stepOut stp max s = finishWith (fun pc => fail .errEmptyStack pc 0 none) s := by
  simp [stepOut, h, State.depth, hs]

theorem stepOut_of_ne_nil (stp : Stepper) (max : BitVec 32) {s : State} (h : s.configured = true)
    (hs : s.callStack ≠ []) :
    stepOut stp max s = stepOutLoop stp (s.depth - 1) max.toNat 0 s := by
  simp [stepOut, h, State.depth, hs]

/-- Settles O53: the empty stack is tested before the loop, and ending the command is the one contract call. -/
theorem stepOutOfEmptyStackFails : Obligations.StepOutOfEmptyStackFails := by
  intro s max configured hs
  refine ⟨_, _, rfl, rfl, ?_⟩
  rw [stepOut_of_nil _ max ((configured_iff s).mpr configured) hs]
  exact ⟨isResult_fail _ _ _ _, rfl, hs, ⟨rfl, rfl, rfl, rfl, rfl⟩, rfl⟩

/-- Settles O54: the loop ends at the first depth below the starting one, or at the budget. -/
theorem stepOutOutcomes : Obligations.StepOutOutcomes := by
  intro s max configured hs
  refine ⟨_, _, rfl, rfl, keepsSettings_of_same (same_stepOut max s) _, ?_⟩
  obtain ⟨n, e, one, within, back, ends⟩ | ⟨above, ends⟩ :=
    stepOut_cases Config.stepper max ((configured_iff s).mpr configured) hs
  · rw [ends]
    exact .inl ⟨n, e, one, within, back, isResult_succeed _ _ _ _⟩
  · rw [ends]
    exact .inr ⟨above, isResult_fail _ _ _ _⟩

section
variable (stp : Stepper) (max : BitVec 32) {s : State} (configured : s.configured = true) (hs : s.callStack ≠ [])
  {n : Nat} (above : ∀ k, 1 ≤ k → k < n → s.depth ≤ (stepIntos stp k s).depth)
include configured hs above

/-- StepOut succeeds at the first step after which the depth is below the starting one, if the budget reaches it. -/
theorem stepOut_success (within : n ≤ max.toNat) (back : (stepIntos stp n s).depth < s.depth) :
    stepOut stp max s =
      finishWith (fun pc => succeed pc n none (stepInto stp (stepIntos stp (n - 1) s)).1.ret) (stepIntos stp n s) := by
  rw [stepOut_of_ne_nil stp max configured hs]
  cases n with
  | zero => exact absurd back (lt_irrefl _)
  | succ j =>
    rw [stepOutLoop_success stp _ 0 s (Nat.succ_pos j) within (fun k one hk => ?_) (Nat.le_sub_one_of_lt back)]
    · simp only [Nat.zero_add, lastRet, Nat.add_sub_cancel]
    · have := above k one hk
      omega

/-- StepOut times out when the depth is never below the starting one up to the budget. -/
theorem stepOut_timeout (budget : n = max.toNat) (still : s.depth ≤ (stepIntos stp n s).depth) :
    stepOut stp max s = finishWith (fun pc => fail .errTimeout pc n none) (stepIntos stp n s) := by
  subst budget
  have pos : 0 < s.depth := List.length_pos_iff.mpr hs
  rw [stepOut_of_ne_nil stp max configured hs, stepOutLoop_timeout stp _ 0 s fun k one hk => ?_, Nat.zero_add]
  obtain hlt | rfl : k < max.toNat ∨ k = max.toNat := by omega
  · have := above k one hlt
    omega
  · omega

end

/-- Settles O55: by the three branches of StepOut; on a non-empty call stack, by where the loop stops. -/
theorem stepOutReplaysStepInto : Obligations.StepOutReplaysStepInto := by
  refine ⟨fun max s => rfl, fun stp max s => ⟨fun h => ?unconfigured, fun h hs => ?emptyStack, ?loop⟩⟩
  case unconfigured =>
    rw [stepOut_unconfigured stp max ((configured_eq_false s).mpr h)]
    exact ⟨isResult_fail _ _ _ _, rfl⟩
  case emptyStack =>
    rw [stepOut_of_nil stp max ((configured_iff s).mpr h) hs]
    exact ⟨isResult_fail _ _ _ _, rfl⟩
  case loop =>
    intro n h hs within above
    have configured := (configured_iff s).mpr h
    refine ⟨fun back => ?_, fun still budget => ?_⟩
    · rw [stepOut_success stp max configured hs above within back]
      exact ⟨isResult_succeed _ _ _ _, rfl⟩
    · rw [stepOut_timeout stp max configured hs above budget still]
      exact ⟨isResult_fail _ _ _ _, rfl⟩

/-- Settles O56: at a return opcode the first StepInto lowers the depth; with no budget the loop is over before it. -/
theorem stepOutAtReturn : Obligations.StepOutAtReturn := by
  intro s below top h hs
  have configured := (configured_iff s).mpr h
  have ne : s.callStack ≠ [] := by simp [hs]
  refine ⟨fun max one ret => ⟨_, _, rfl, rfl, ?_⟩, _, _, rfl, rfl, ?_⟩
  · have step := stepInto_eq Config.stepper configured
    rw [stackAfter_of_isReturn ret hs] at step
    have back : (stepIntos Config.stepper 1 s).depth < s.depth := by
      rw [stepIntos_succ, stepIntos_zero, step]
      simp [State.depth, hs]
    rw [stepOut_success _ max configured ne (fun k _ _ => by omega) one back, stepIntos_succ, Nat.sub_self,
      stepIntos_zero, stepIntos_zero, step]
    exact ⟨rfl, isResult_succeed _ _ _ _⟩
  · rw [stepOut_timeout _ 0 (n := 0) configured ne (fun k _ hk => absurd hk k.not_lt_zero) rfl le_rfl]
    exact ⟨rfl, rfl, isResult_fail _ _ _ _⟩

end Sys2Proof.Machine
end

section
/-! SUPPORT. What the step commands count, what they report, and the order of their checks (47_step_controller.md R292;
60_exceptions.md R320 to R327). -/

namespace Sys2Proof.Machine

/-! ## The budget (47_step_controller.md R292) -/

/-- The result and the final state `q` of a command from `s`: the result counts the Stepper calls that the command
made, and they are at most `bound`. -/
def CountsStepperCalls (bound : Nat) (s : State) (q : StepResult × State) : Prop :=
  q.1.instructionsExecuted.toNat ≤ bound ∧
    stepperCalls q.2.calls = stepperCalls s.calls + q.1.instructionsExecuted.toNat

theorem counts_configError (bound : Nat) (s : State) : CountsStepperCalls bound s (configError, s) :=
  ⟨Nat.zero_le bound, rfl⟩

theorem counts_stepInto (stp : Stepper) (s : State) : CountsStepperCalls 1 s (stepInto stp s) := by
  cases h : s.configured with
  | false =>
    rw [stepInto_unconfigured stp h]
    exact counts_configError 1 s
  | true =>
    have executed : (stepInto stp s).1.instructionsExecuted = 1 := by
      rw [stepInto_eq stp h]
      rfl
    rw [CountsStepperCalls, executed]
    exact ⟨le_rfl, stepperCalls_stepInto stp h⟩

/-- A command that ends after `n` StepIntos from `u` with a result that says `n`, where `u` is `s` with calls recorded
that are no Stepper's. -/
theorem counts_finishWith {stp : Stepper} {bound n : Nat} {s u : State} {result : Addr → StepResult}
    (h : u.configured = true) (hu : stepperCalls u.calls = stepperCalls s.calls) (le : n ≤ bound) (lt : n < 2 ^ 32)
    (hr : ∀ pc, (result pc).instructionsExecuted = BitVec.ofNat 32 n) :
    CountsStepperCalls bound s (finishWith result (stepIntos stp n u)) := by
  have executed (pc : Addr) : (result pc).instructionsExecuted.toNat = n := by
    rw [hr, BitVec.toNat_ofNat, Nat.mod_eq_of_lt lt]
  simp only [CountsStepperCalls, finishWith, executed, State.logCalls_calls, stepperCalls_append,
    stepperCalls_stepIntos stp h, hu]
  exact ⟨le, rfl⟩

theorem counts_stepOver (stp : Stepper) (max : BitVec 32) (s : State) :
    CountsStepperCalls (Max.max max.toNat 1) s (stepOver stp max s) := by
  have fits := max.isLt
  cases h : s.configured with
  | false =>
    rw [stepOver_unconfigured stp max h]
    exact counts_configError _ s
  | true =>
    have looked : stepperCalls (s.logCalls [.pcGetter s.pcGetter, .reader s.pcGetter s.opcode]).calls =
        stepperCalls s.calls := by
      rw [State.logCalls_calls, stepperCalls_append]
      rfl
    cases call : isCall s.opcode with
    | false =>
      obtain ⟨le, counted⟩ := counts_stepInto stp (s.logCalls [.pcGetter s.pcGetter, .reader s.pcGetter s.opcode])
      rw [stepOver_noCall stp max h call]
      exact ⟨le.trans (Nat.le_max_right _ _), looked ▸ counted⟩
    | true =>
      obtain ⟨n, e, -, within, -, ends⟩ | ⟨n, budget, -, ends⟩ := stepOver_call_cases stp max h call
      · rw [ends]
        exact counts_finishWith h looked (by omega) (by omega) fun _ => rfl
      · rw [ends]
        exact counts_finishWith h looked budget.le (by omega) fun _ => rfl

theorem counts_stepOut (stp : Stepper) (max : BitVec 32) (s : State) :
    CountsStepperCalls max.toNat s (stepOut stp max s) := by
  have fits := max.isLt
  cases h : s.configured with
  | false =>
    rw [stepOut_unconfigured stp max h]
    exact counts_configError _ s
  | true =>
    by_cases hs : s.callStack = []
    · rw [stepOut_of_nil stp max h hs]
      exact counts_finishWith (stp := stp) (n := 0) h rfl (Nat.zero_le _) (by decide) fun _ => rfl
    · obtain ⟨n, e, -, within, -, ends⟩ | ⟨-, ends⟩ := stepOut_cases stp max h hs
      · rw [ends]
        exact counts_finishWith h rfl within (within.trans_lt fits) fun _ => rfl
      · rw [ends]
        exact counts_finishWith h rfl le_rfl fits fun _ => rfl

/-- Settles O57: each command delivers what it returns, and delivering adds no contract call. -/
theorem budgetBoundsStepperCalls : Obligations.BudgetBoundsStepperCalls :=
  fun s max => ⟨⟨_, _, rfl, rfl, counts_stepInto _ s⟩, ⟨_, _, rfl, rfl, counts_stepOver _ max s⟩,
    _, _, rfl, rfl, counts_stepOut _ max s⟩

/-! ## What a command reports (60_exceptions.md R320 to R326) -/

theorem code_eq_zero_iff (c : Status) : c.code = 0 ↔ c = .ok := by
  cases c <;> decide

theorem infix_message_errEmptyStack : "empty".toList <:+: Status.errEmptyStack.message.toList := by decide

theorem infix_message_errTimeout : "timed out".toList <:+: Status.errTimeout.message.toList := by decide

/-- What follows from a result being formed: its status gives its success, its code and its message (R322). -/
theorem StepResult.Formed.report {r : StepResult} (h : r.Formed) :
    (r.success = true ↔ r.status = .ok) ∧ (r.success = true ↔ r.status.code = 0) ∧
      (r.status = .errEmptyStack → "empty".toList <:+: r.message.toList) ∧
      (r.status = .errTimeout → "timed out".toList <:+: r.message.toList) := by
  obtain ⟨success, message⟩ := h
  refine ⟨success, success.trans (code_eq_zero_iff _).symm, fun hs => ?_, fun hs => ?_⟩
  · rw [message, hs]
    exact infix_message_errEmptyStack
  · rw [message, hs]
    exact infix_message_errTimeout

/-- An executor command answers nothing and a query a classification, so neither delivers a result. -/
theorem not_delivers_of_not_isStep {i : Instr} {s t : State} (hi : ¬IsStep i) (h : exec i s = .next t) (r : StepResult) :
    ¬Delivers r t := by
  obtain ⟨op, low, high, -, rfl⟩ | ⟨op, rfl⟩ := exec_next_of_not_isStep hi h <;> simp [Delivers]

/-- Settles O58: the result of each step command is formed, and its own law says which failures it raises (R326). -/
theorem statusOfResults : Obligations.StatusOfResults := by
  refine fun s t i h => ⟨fun hi r => not_delivers_of_not_isStep hi h r, fun hi => ?_⟩
  obtain ⟨max, rfl | rfl | rfl⟩ := hi <;> cases h
  case inl =>
    obtain ⟨formed, status⟩ := stepInto_reports Config.stepper s
    obtain ⟨success, code, empty, timedOut⟩ := formed.report
    refine ⟨_, rfl, success, code, empty, timedOut, fun hs => ?_, fun hs => ?_⟩ <;> simp [hs] at status
  case inr.inl =>
    obtain ⟨formed, notEmpty, atCall⟩ := stepOver_reports Config.stepper max s
    obtain ⟨success, code, empty, timedOut⟩ := formed.report
    exact ⟨_, rfl, success, code, empty, timedOut, fun hs => absurd hs notEmpty, fun hs => .inr ⟨⟨max, rfl⟩, atCall hs⟩⟩
  case inr.inr =>
    obtain ⟨success, code, empty, timedOut⟩ := (stepOut_reports Config.stepper max s).report
    exact ⟨_, rfl, success, code, empty, timedOut, fun _ => ⟨max, rfl⟩, fun _ => .inl ⟨max, rfl⟩⟩

/-! ## The order of the checks (60_exceptions.md R327) -/

/-- A StepOver whose subroutine is one return instruction is over after two steps, at a budget of 2. -/
theorem stepOver_of_call_then_return (stp : Stepper) {s : State} (h : Configured s) (call : isCall s.opcode = true)
    (ret : isReturn (stepInto stp s).2.opcode = true) :
    ∃ newPc entry top, IsResult (stepOver stp 2 s).1 true newPc 2 .ok entry top := by
  have configured := (configured_iff s).mpr h
  have deeper := depth_stepInto_of_isCall stp configured call
  obtain ⟨noCall, -⟩ := noCall_of_isReturn ret
  have back : (stepIntos stp 2 s).depth = s.depth := by
    rw [stepIntos_succ, stepIntos_succ, stepIntos_zero, depth_stepInto stp ((configured_stepInto stp s).trans configured),
      noCall, ret, deeper]
    rfl
  have above (k : Nat) (one : 1 ≤ k) (two : k < 2) : s.depth < (stepIntos stp k s).depth := by
    obtain rfl : k = 1 := by omega
    rw [stepIntos_succ, stepIntos_zero, deeper]
    exact Nat.lt_succ_self _
  obtain ⟨-, replays⟩ := stepOverReplaysStepInto
  obtain ⟨-, -, atCall⟩ := replays stp 2 s
  exact ⟨_, _, _, ((atCall 2 h call (by decide) (by decide) above).1 back.le).1⟩

/-- Settles O59: each clause is the outcome of the command's first check that decides. -/
theorem failurePriority : Obligations.FailurePriority := by
  refine ⟨fun s max h _ => ?config, fun s h hs => ?emptyStack, fun stp s h call ret => ?success⟩
  case config =>
    obtain ⟨r, runs, -, -, -, status, -⟩ := unconfiguredFails s (.stepOut max) ⟨max, .inr (.inr rfl)⟩ h
    exact ⟨_, r, runs, rfl, status⟩
  case emptyStack =>
    obtain ⟨t, r, runs, delivers, ⟨-, -, -, status, -⟩, -⟩ := stepOutOfEmptyStackFails s 0 h hs
    exact ⟨t, r, runs, delivers, status⟩
  case success =>
    obtain ⟨-, -, -, success, -, executed, -⟩ := stepOver_of_call_then_return stp h call ret
    exact ⟨success, executed⟩

end Sys2Proof.Machine
end
